-- ==== Sys2Proof/Word.lean ====
section
/-! DEFINITION. The word types of ALSQ: the 32-bit bus word and command word (spec/30_encoding.md R110, spec/20_memory.md R80) and the byte. -/
namespace Sys2Proof

/-- The 32-bit bus word (R80), which is also a command word (R110). -/
abbrev Word := BitVec 32

/-- One byte lane of a word (R85). -/
abbrev Byte := BitVec 8

end Sys2Proof
end

