-- ==== Sys2Proof/Syntax.lean ====
section
/-! DEFINITION. The syntax: ALSQ's eleven commands (spec/30_encoding.md R113, one constructor per row of spec/opcode_table.json), why a word is
illegal (R114), and the host's bus transactions (spec/45_control.md R282, R283), which are the machine's program (spec/10_state.md R31). -/
namespace Sys2Proof

/-- A command with its fields (R111): `n` = N, `ct` = CT, and the flags XO, XE, RA, VD, BG. A field that the opcode does not use is not an operand. -/
inductive Instr where
  | nop
  | quant (n : Nat)
  | recon (n : Nat)
  | coefbits (n ct : Nat)
  | p2l (n : Nat)
  | resid (n : Nat) (ra : Bool)
  | ricebits (n : Nat) (ra : Bool)
  | ricesrch (n : Nat) (ra xe : Bool)
  | bgmcbits (n : Nat) (ra : Bool)
  | bgmcsrch (n : Nat) (ra xe : Bool)
  | ordsel (n ct : Nat) (xo xe ra vd bg : Bool)
deriving DecidableEq, Repr

/-- The mnemonics, the rows of R113's tables. -/
inductive Mnemonic where
  | nop | quant | recon | coefbits | p2l | resid | ricebits | ricesrch | bgmcbits | bgmcsrch | ordsel
deriving DecidableEq, Repr

/-- Why a command word is not legal (R114). -/
inductive IllegalWord where
  /-- Opcode 0x0B..0xFF. -/
  | reservedOpcode (op : Byte)
  /-- An assigned opcode with a nonzero bit outside the fields it uses. -/
  | unusedBitSet (op : Byte)
deriving DecidableEq, Repr

/-- What the outside world does to ALSQ (R2, R340): the entries of the host's program. -/
inductive HostOp where
  /-- A bus read of `z` bytes at aperture offset `a` (R282). -/
  | read (a : BitVec 24) (z : Nat)
  /-- A bus write of `z` bytes, value `v`, at aperture offset `a` (R283). -/
  | write (a : BitVec 24) (z : Nat) (v : Word)
  /-- The pseudo-instruction `wait` (R118): read STATUS until the value read has bit 0 clear. -/
  | wait
  /-- The platform asserts the power-on reset (R340). -/
  | powerOn
deriving DecidableEq, Repr

end Sys2Proof
end

