-- ==== Sys2Proof/WellFormed.lean ====
section
/-! DEFINITION. Which terms of `Instr` a command word can express: N is ten bits, CT two (spec/30_encoding.md R111, R112). -/
namespace Sys2Proof

/-- The operands fit their fields: N ∈ 0..1023 and CT ∈ 0..3 (R112). -/
def Instr.wellFormed : Instr → Bool
  | .nop => true
  | .quant n => decide (n < 1024)
  | .recon n => decide (n < 1024)
  | .coefbits n ct => decide (n < 1024) && decide (ct < 4)
  | .p2l n => decide (n < 1024)
  | .resid n _ => decide (n < 1024)
  | .ricebits n _ => decide (n < 1024)
  | .ricesrch n _ _ => decide (n < 1024)
  | .bgmcbits n _ => decide (n < 1024)
  | .bgmcsrch n _ _ => decide (n < 1024)
  | .ordsel n ct _ _ _ _ _ => decide (n < 1024) && decide (ct < 4)

/-- `wellFormed` as a proposition. -/
abbrev Instr.WellFormed (i : Instr) : Prop := i.wellFormed = true

end Sys2Proof
end

