-- ==== Sys2Proof/Decode.lean ====
section
/-! DEFINITION. Decoding and encoding of the 32-bit command word: the match and mask table of spec/30_encoding.md R113, the fields of R111, the
legality rule R114, and the host's entry `decodeTableWord`. -/
namespace Sys2Proof

/-- The rows of R113's match and mask table, in order of opcode. -/
def opcodeTable : List Mnemonic :=
  [.nop, .quant, .recon, .coefbits, .p2l, .resid, .ricebits, .ricesrch, .bgmcbits, .bgmcsrch, .ordsel]

/-- R113, column "mask". -/
def Mnemonic.mask : Mnemonic → Word
  | .nop => 0xFFFFFFFF#32
  | .quant => 0xFFFC00FF#32
  | .recon => 0xFFFC00FF#32
  | .coefbits => 0xFFF000FF#32
  | .p2l => 0xFFFC00FF#32
  | .resid => 0xFFBC00FF#32
  | .ricebits => 0xFFBC00FF#32
  | .ricesrch => 0xFF9C00FF#32
  | .bgmcbits => 0xFFBC00FF#32
  | .bgmcsrch => 0xFF9C00FF#32
  | .ordsel => 0xFE0000FF#32

/-- R113, column "match". -/
def Mnemonic.pattern : Mnemonic → Word
  | .nop => 0x00000000#32
  | .quant => 0x00000001#32
  | .recon => 0x00000002#32
  | .coefbits => 0x00000003#32
  | .p2l => 0x00000004#32
  | .resid => 0x00000005#32
  | .ricebits => 0x00000006#32
  | .ricesrch => 0x00000007#32
  | .bgmcbits => 0x00000008#32
  | .bgmcsrch => 0x00000009#32
  | .ordsel => 0x0000000A#32

/-- A word matches a row when `(w AND mask) = match` (R114). -/
def Mnemonic.matchesWord (k : Mnemonic) (w : Word) : Bool := w &&& k.mask == k.pattern

/-- Field `OP`, bits [7:0] (R111). -/
def fieldOP (w : Word) : Byte := w.extractLsb' 0 8
/-- Field `N`, bits [17:8], zero-extended (R111, R112). -/
def fieldN (w : Word) : Nat := (w.extractLsb' 8 10).toNat
/-- Field `CT`, bits [19:18], zero-extended. -/
def fieldCT (w : Word) : Nat := (w.extractLsb' 18 2).toNat
/-- Field `XO`, bit [20]. -/
def fieldXO (w : Word) : Bool := w.getLsbD 20
/-- Field `XE`, bit [21]. -/
def fieldXE (w : Word) : Bool := w.getLsbD 21
/-- Field `RA`, bit [22]. -/
def fieldRA (w : Word) : Bool := w.getLsbD 22
/-- Field `VD`, bit [23]. -/
def fieldVD (w : Word) : Bool := w.getLsbD 23
/-- Field `BG`, bit [24]. -/
def fieldBG (w : Word) : Bool := w.getLsbD 24

/-- The command of a row with the fields the row uses (R113, column "uses"). -/
def Mnemonic.instr (w : Word) : Mnemonic → Instr
  | .nop => .nop
  | .quant => .quant (fieldN w)
  | .recon => .recon (fieldN w)
  | .coefbits => .coefbits (fieldN w) (fieldCT w)
  | .p2l => .p2l (fieldN w)
  | .resid => .resid (fieldN w) (fieldRA w)
  | .ricebits => .ricebits (fieldN w) (fieldRA w)
  | .ricesrch => .ricesrch (fieldN w) (fieldRA w) (fieldXE w)
  | .bgmcbits => .bgmcbits (fieldN w) (fieldRA w)
  | .bgmcsrch => .bgmcsrch (fieldN w) (fieldRA w) (fieldXE w)
  | .ordsel => .ordsel (fieldN w) (fieldCT w) (fieldXO w) (fieldXE w) (fieldRA w) (fieldVD w) (fieldBG w)

/-- The decoder: a legal word's command, or why the word is illegal (R114). -/
def decode (w : Word) : Except IllegalWord Instr :=
  match opcodeTable.find? (fun k => k.matchesWord w) with
  | some k => .ok (k.instr w)
  | none => .error (if 0x0B#8 ≤ fieldOP w then .reservedOpcode (fieldOP w) else .unusedBitSet (fieldOP w))

/-- The encoder: the word of a command, bit 31 first, by the patterns of R113 (`n` N, `c` CT, `o` XO, `e` XE, `a` RA, `v` VD, `g` BG). -/
def encode : Instr → Word
  | .nop => 0x00000000#32
  | .quant n => 0#14 ++ BitVec.ofNat 10 n ++ 0x01#8
  | .recon n => 0#14 ++ BitVec.ofNat 10 n ++ 0x02#8
  | .coefbits n ct => 0#12 ++ BitVec.ofNat 2 ct ++ BitVec.ofNat 10 n ++ 0x03#8
  | .p2l n => 0#14 ++ BitVec.ofNat 10 n ++ 0x04#8
  | .resid n ra => 0#9 ++ BitVec.ofBool ra ++ 0#4 ++ BitVec.ofNat 10 n ++ 0x05#8
  | .ricebits n ra => 0#9 ++ BitVec.ofBool ra ++ 0#4 ++ BitVec.ofNat 10 n ++ 0x06#8
  | .ricesrch n ra xe => 0#9 ++ BitVec.ofBool ra ++ BitVec.ofBool xe ++ 0#3 ++ BitVec.ofNat 10 n ++ 0x07#8
  | .bgmcbits n ra => 0#9 ++ BitVec.ofBool ra ++ 0#4 ++ BitVec.ofNat 10 n ++ 0x08#8
  | .bgmcsrch n ra xe => 0#9 ++ BitVec.ofBool ra ++ BitVec.ofBool xe ++ 0#3 ++ BitVec.ofNat 10 n ++ 0x09#8
  | .ordsel n ct xo xe ra vd bg =>
    0#7 ++ BitVec.ofBool bg ++ BitVec.ofBool vd ++ BitVec.ofBool ra ++ BitVec.ofBool xe ++ BitVec.ofBool xo
      ++ BitVec.ofNat 2 ct ++ BitVec.ofNat 10 n ++ 0x0A#8

/-- The row a command belongs to. -/
def Instr.mnemonic : Instr → Mnemonic
  | .nop => .nop
  | .quant _ => .quant
  | .recon _ => .recon
  | .coefbits _ _ => .coefbits
  | .p2l _ => .p2l
  | .resid _ _ => .resid
  | .ricebits _ _ => .ricebits
  | .ricesrch _ _ _ => .ricesrch
  | .bgmcbits _ _ => .bgmcbits
  | .bgmcsrch _ _ _ => .bgmcsrch
  | .ordsel _ _ _ _ _ _ _ => .ordsel

/-- The word an opcode-table row's bits stand for. A command is one 32-bit word, bit 0 its least significant (R110, R111), so the table's
numbering is the word's own; the bits above `nbits` are 0. -/
def tableWord (nbits w : Nat) : Word := BitVec.ofNat 32 (w % 2 ^ nbits)

/-- The host's question: what this decoder reads from an instruction whose bits are `w`. -/
def decodeTableWord (nbits w : Nat) : Option Instr := (decode (tableWord nbits w)).toOption

end Sys2Proof
end

