-- ==== Sys2Proof/Machine/Arith.lean ====
section
/-! DEFINITION. The arithmetic primitives of spec/00_scope.md R9–R11 and R13, on unbounded integers. -/
namespace Sys2Proof.Machine

/-- `asr(v, n)` = ⌊v / 2^n⌋ (R10). -/
def asr (v : Int) (n : Nat) : Int := v / ((2 ^ n : Nat) : Int)

/-- `clip(v, lo, hi)` (R10). -/
def clip (v lo hi : Int) : Int := if v < lo then lo else if hi < v then hi else v

/-- `sext_N(v)`: the integer whose N-bit two's-complement representation is `v[N-1:0]` (R9). -/
def sext (n : Nat) (v : Int) : Int := (BitVec.ofInt n v).toInt

/-- `wrap32(v)` (R9). -/
def wrap32 (v : Int) : Int := sext 32 v

/-- `wrap64(v)` (R9). -/
def wrap64 (v : Int) : Int := sext 64 v

/-- `fits32(v)` ⇔ −2^31 ≤ v ≤ 2^31 − 1 (R9). -/
def fits32 (v : Int) : Bool := decide (-2147483648 ≤ v) && decide (v ≤ 2147483647)

/-- `floor_log2(v)` for v ≥ 1 (R10). -/
def floorLog2 (v : Nat) : Nat := Nat.log2 v

/-- `ceil_log2(v)` for v ≥ 1: the smallest m with 2^m ≥ v (R10). -/
def ceilLog2 (v : Nat) : Nat := if v ≤ 1 then 0 else Nat.log2 (v - 1) + 1

/-- The integer square root of `v` by base-4 digits, `fuel` digits at most. -/
def isqrtDigits : Nat → Nat → Nat
  | 0, _ => 0
  | fuel + 1, v =>
    if v = 0 then 0
    else
      let r := 2 * isqrtDigits fuel (v / 4)
      if (r + 1) * (r + 1) ≤ v then r + 1 else r

/-- `isqrt(v)`: the largest m with m² ≤ v (R10). -/
def isqrt (v : Nat) : Nat := isqrtDigits (Nat.log2 v + 1) v

/-- `zz(v)` = 2v if v ≥ 0, else −2v − 1 (R11). -/
def zz (v : Int) : Nat := if 0 ≤ v then (2 * v).toNat else (-2 * v - 1).toNat

/-- `len_sr(v, k)` = asr(zz(v), k) + k + 1, the signed Rice code length (R11). -/
def lenSr (v : Int) (k : Nat) : Nat := zz v / 2 ^ k + k + 1

/-- A search cost: a natural number, or `none` for `INF` (R13). -/
abbrev Cost := Option Nat

/-- `a < b` on costs; `INF` is greater than every number and `INF < INF` is false (R13). -/
def Cost.lt : Cost → Cost → Bool
  | some a, some b => decide (a < b)
  | some _, none => true
  | none, _ => false

/-- `a <= b` on costs. -/
def Cost.le (a b : Cost) : Bool := !Cost.lt b a

end Sys2Proof.Machine
end

