-- ==== Sys2Proof/Config.lean ====
section
/-! DEFINITION. What the spec leaves open: the named parameters of spec/00_scope.md R7 (no values anywhere in the spec), and the sources of free values. None has a body, so nothing can be proved of a value of theirs beyond the laws the rules name. -/
namespace Sys2Proof

/-- A symbol of a BGMC sub-block's MSB sequence (spec/44_bgmc.md R252, R255): an in-range residual's `msb(e)`, or the escape. -/
inductive Sym where
  | esc
  | msb (m : Int)
deriving DecidableEq, Repr

/-- The named parameters of R7 as one argument: the coefficient Rice table and `BGMC_MAX` (ROM tables, spec/10_state.md R47) and the
parameter functions. The counts are taken over a `Params`, so that a stated instantiation can be tested; the machine itself uses `Config.params`. -/
structure Params where
  /-- `PRT[ct][i].offset`, read as a signed 8-bit value. -/
  prtOffset : Nat → Nat → BitVec 8
  /-- `PRT[ct][i].param`. -/
  prtParam : Nat → Nat → BitVec 8
  /-- `BGMC_MAX[sx]`. -/
  bgmcMax : Nat → BitVec 16
  /-- `BGMC_AC_BITS(s, sx, k, max, syms)` (R256). -/
  acBits : Nat → Nat → Nat → Nat → List Sym → Nat
  /-- `BGMC_ESC_BITS(e, s, k, max)` (R256). -/
  escBits : Int → Nat → Nat → Nat → Nat
  /-- `BGMC_FLUSH_BITS` (R257). -/
  flushBits : Nat
  /-- `BGMC_EST(S, n)` (R260). -/
  bgmcEst : Nat → Nat → Nat
  /-- `LOGTERM(E, len)` on a binary64 pattern (R172). -/
  logTerm : BitVec 64 → Nat → Nat

namespace Config

/-- The offsets of the coefficient Rice table, unknown (R7, log 9). -/
opaque prtOffset : Nat → Nat → BitVec 8
/-- The parameters of the coefficient Rice table, unknown; three bits, which is the law of R150 (log 9). -/
opaque prtParam : Nat → Nat → BitVec 3
/-- The `BGMC_MAX` table, unknown (R7, log 9). -/
opaque bgmcMax : Nat → BitVec 16
/-- The arithmetic-coder cost of a nonempty symbol sequence, unknown (R256, log 9). -/
opaque acBits : Nat → Nat → Nat → Nat → List Sym → Nat
/-- The escape cost, unknown (R256, log 9). -/
opaque escBits : Int → Nat → Nat → Nat → Nat
/-- The flush cost, unknown (R257, log 9). -/
opaque flushBits : Nat
/-- The BGMC estimate of a nonzero sum, unknown (R260, log 9). -/
opaque bgmcEst : Nat → Nat → Nat
/-- The order estimator's error term of a value other than 1.0, unknown (R172, log 9). -/
opaque logTerm : BitVec 64 → Nat → Nat

/-- The binary64 pattern of 1.0 (spec/95_test_vectors.md V26). -/
def oneF64 : BitVec 64 := 0x3FF0000000000000#64

/-- The machine's parameters: uninterpreted, with the laws the spec names built in: `param` ∈ 0..7 (R150), `BGMC_AC_BITS(.., [])` = 0
(R256), `BGMC_EST(0, n)` = 0 (R260), `LOGTERM(1.0, len)` = 0 (R172). -/
def params : Params where
  prtOffset := prtOffset
  prtParam ct i := (prtParam ct i).setWidth 8
  bgmcMax := bgmcMax
  acBits s sx k mx syms := if syms = [] then 0 else acBits s sx k mx syms
  escBits := escBits
  flushBits := flushBits
  bgmcEst S n := if S = 0 then 0 else bgmcEst S n
  logTerm e len := if e = oneF64 then 0 else logTerm e len

/-- FREE VALUE (log 7, log 8): the arbitrary word that draw `d` gives the array word or register at aperture offset `a`. Used where the spec says
"any value": what ORDSEL leaves in its scratch state (R176) and the write set of an abandoned command (R342). -/
opaque freeWord (d a : Nat) : Word

/-- FREE VALUE (log 1): how many host transactions land between the acceptance of a command and its completion, for draw `d`: any finite number
(spec/70_reset_and_hazards.md R350). -/
opaque freeLatency (d : Nat) : Nat

end Config
end Sys2Proof
end

