-- ==== Sys2Proof/Machine/State.lean ====
section
/-! DEFINITION. The state of ALSQ: every register, internal array and hidden state of spec/10_state.md, the host's pending transactions, the reasons a
step stops, and the state after a power-on reset (spec/10_state.md R50, spec/70_reset_and_hazards.md R340, R341). -/
namespace Sys2Proof.Machine

open Sys2Proof

/-- The cause codes of an error report (spec/60_exceptions.md R300). Codes 9..15 are never reported, so they have no constructor. -/
inductive Cause where
  /-- 0, `NONE`: the reset value, never reported. -/
  | noCause
  /-- 1, `ILLEGAL_CMD`. -/
  | illegalCmd
  /-- 2, `CMD_BUSY`. -/
  | cmdBusy
  /-- 3, `BAD_LEN`. -/
  | badLen
  /-- 4, `BAD_CONFIG`. -/
  | badConfig
  /-- 5, `BAD_SUBBLOCKS`. -/
  | badSubblocks
  /-- 6, `BAD_PARAM`. -/
  | badParam
  /-- 7, `BUS_ERROR`. -/
  | busError
  /-- 8, `ACC_BUSY`. -/
  | accBusy
deriving DecidableEq, Repr

/-- The internal arrays with a read-write window (spec/10_state.md R45, spec/20_memory.md R83). -/
inductive Window where
  | parcor | qcof | rcof | lpc | eerr | smp | res
deriving DecidableEq, Repr

/-- What an aperture offset names (R82, R83, R84). -/
inductive Region where
  /-- A register of the CSR page, by its offset. -/
  | csr (off : Nat)
  /-- Word `j` of an array window. -/
  | ram (w : Window) (j : Nat)
  /-- Word `j` of the `PRT` ROM window. -/
  | prtRom (j : Nat)
  /-- Word `j` of the `BGMC_MAX` ROM window. -/
  | bgmcMaxRom (j : Nat)
  /-- Nothing. -/
  | unmapped
deriving DecidableEq, Repr

/-- The internal arrays as they stand in the aperture: (byte offset, byte) pairs with strictly rising offsets. An unlisted byte is unwritten and reads as no
value (R51, R341; log 12). -/
abbrev Memory := List Host.Cell

/-- The parameter registers (spec/10_state.md R37–R41), each field at its defined bits. -/
structure ParamRegs where
  /-- `CONFIG.RESCODE` [1:0]. -/
  rescode : BitVec 2
  /-- `CONFIG.SBPART` [2]. -/
  sbpart : Bool
  /-- `CONFIG.BPS` [8:3]. -/
  bps : BitVec 6
  /-- `LEN` [16:0]. -/
  len : BitVec 17
  /-- `BITS_MISC` [31:0]. -/
  bitsMisc : Word
  /-- `SUBBLOCKS` [3:0]. -/
  subblocks : BitVec 4
  /-- `SPAR0`..`SPAR7`, [7:0] each. -/
  spar : Vector Byte 8
deriving DecidableEq, Repr

/-- The engine (R48): idle, or running the accepted word `w` with the parameter registers of its acceptance. -/
inductive Engine where
  | idle
  | run (w : Word) (snap : ParamRegs)
deriving DecidableEq, Repr

/-- The state of one ALSQ and of its host's program. `BUSY` is `eng` (R48) and `IRQ` is a function of four bits (R310), so neither is stored again (log 15). -/
structure State where
  /-- `CTRL.IE_DONE` (R34). -/
  ieDone : Bool
  /-- `CTRL.IE_ERR` (R34). -/
  ieErr : Bool
  /-- `STATUS.DONE` (R35). -/
  done : Bool
  /-- `STATUS.ERR` (R35). -/
  err : Bool
  /-- `STATUS.FBK` (R35). -/
  fbk : Bool
  /-- `STATUS.ROVF` (R35). -/
  rovf : Bool
  /-- `STATUS.ECAUSE` (R35). -/
  ecause : Cause
  /-- `CMD`: the last accepted word (R36). -/
  cmd : Word
  /-- `CONFIG`, `LEN`, `BITS_MISC`, `SUBBLOCKS`, `SPAR0..7` (R37–R41). -/
  par : ParamRegs
  /-- `OPT_ORDER` [9:0] (R42). -/
  optOrder : BitVec 10
  /-- `COEFBITS` (R42). -/
  coefBits : Word
  /-- `PARBITS` (R42). -/
  parBits : Word
  /-- `RESBITS` = {RESBITS_HI, RESBITS_LO} (R42). -/
  resBits : BitVec 64
  /-- `TOTBITS` = {TOTBITS_HI, TOTBITS_LO} (R42). -/
  totBits : BitVec 64
  /-- The internal arrays (R45). -/
  mem : Memory
  /-- The engine (R48). -/
  eng : Engine
  /-- MODEL's own (log 1): host transactions that still land before the running command completes. -/
  due : Nat
  /-- MODEL's own (log 7): free values drawn so far. -/
  draws : Nat
  /-- MODEL's own (log 2): what the last host read returned. -/
  rdata : Word
  /-- MODEL's own (log 2): the host's transactions still to come, in order. -/
  pending : List HostOp
deriving DecidableEq, Repr

/-- Why a step has no continuation. -/
inductive Fault where
  /-- A host read or a command read the array word at this aperture offset, which nothing has written since power-on (R51, R343). Raised by the
  array reads. SAFE: the spec asks a model for exactly this stop. -/
  | unwrittenRead (a : Nat)
  /-- A command read element word `j` past the end of a window. Raised by the engine's array reads, only in states no run reaches: N is ten bits and
  LEN ≤ 65536 is checked at acceptance (R302). SAFE (log 13). -/
  | noSuchElement (w : Window) (j : Nat)
deriving DecidableEq, Repr

/-- Why a step has no meaning. -/
inductive Refusal where
  /-- The instruction has no meaning in the model yet. Raised by no arm of this model. SAFE. -/
  | notModelled (mnemonic : String)
  /-- The engine holds a word that is not legal. Raised by the engine's turn, only in states no run reaches: acceptance latches legal words only (R280). SAFE (log 13). -/
  | illegalLatch (w : Word)
deriving DecidableEq, Repr

/-- The parameter registers after a reset (R50): CONFIG = 0x81, SUBBLOCKS = 1, the others 0. -/
def ParamRegs.reset : ParamRegs where
  rescode := 1#2
  sbpart := false
  bps := 16#6
  len := 0#17
  bitsMisc := 0#32
  subblocks := 1#4
  spar := #v[0#8, 0#8, 0#8, 0#8, 0#8, 0#8, 0#8, 0#8]

/-- The machine right after a power-on reset (R50, R340): every register at the value the spec states, every array word unwritten (R341). The model's own
four fields start at zero or empty (log 17). -/
def State.reset : State where
  ieDone := false
  ieErr := false
  done := false
  err := false
  fbk := false
  rovf := false
  ecause := .noCause
  cmd := 0#32
  par := ParamRegs.reset
  optOrder := 0#10
  coefBits := 0#32
  parBits := 0#32
  resBits := 0#64
  totBits := 0#64
  mem := []
  eng := .idle
  due := 0
  draws := 0
  rdata := 0#32
  pending := []

end Sys2Proof.Machine
end

