-- ==== Sys2Proof/Machine/Ops.lean ====
section
/-! DEFINITION. The named operations over memory and registers: bytes and words of the internal arrays (spec/20_memory.md R83, R85), element reads and
writes (spec/00_scope.md R12, spec/10_state.md R46, R51), the error report (spec/60_exceptions.md R304) and its acknowledgement (R312), the latching of a
command (spec/45_control.md R280) and its completion (R281), and the arbitrary values (spec/70_reset_and_hazards.md R342). -/
namespace Sys2Proof.Machine

open Sys2Proof

/-! ## Bytes and words of the arrays -/

/-- What the byte at an offset holds; `none` when nothing has written it (R341). -/
def Memory.readByte : Memory → Nat → Option Byte
  | [], _ => none
  | (b, v) :: rest, a => if a = b then some v else Memory.readByte rest a

/-- Store one byte, keeping the offsets rising. -/
def Memory.writeByte : Memory → Nat → Byte → Memory
  | [], a, v => [(a, v)]
  | (b, u) :: rest, a, v =>
    if a < b then (a, v) :: (b, u) :: rest
    else if a = b then (a, v) :: rest
    else (b, u) :: Memory.writeByte rest a v

/-- The canonical form: offsets strictly rising. (An unlisted byte reads as no value, so no entry can equal it.) -/
def Memory.wf : Memory → Bool
  | [] => true
  | [_] => true
  | (a, _) :: (b, v) :: rest => decide (a < b) && Memory.wf ((b, v) :: rest)

/-- The 32-bit word at offset `a`, byte lane j carrying bits [8j+7:8j] (R85); a word is readable when it is written (R341). -/
def Memory.readWord (m : Memory) (a : Nat) : Option Word :=
  match m.readByte a, m.readByte (a + 1), m.readByte (a + 2), m.readByte (a + 3) with
  | some b0, some b1, some b2, some b3 => some (b3 ++ b2 ++ b1 ++ b0)
  | _, _, _, _ => none

/-- Store the 32-bit word at offset `a`, little-endian (R85). -/
def Memory.writeWord (m : Memory) (a : Nat) (w : Word) : Memory :=
  (((m.writeByte a (w.extractLsb' 0 8)).writeByte (a + 1) (w.extractLsb' 8 8)).writeByte (a + 2) (w.extractLsb' 16 8)).writeByte
    (a + 3) (w.extractLsb' 24 8)

/-! ## The array windows (R83) -/

/-- First offset of a window. -/
def Window.base : Window → Nat
  | .parcor => 0x010000
  | .qcof => 0x011000
  | .rcof => 0x012000
  | .lpc => 0x013000
  | .eerr => 0x014000
  | .smp => 0x100000
  | .res => 0x200000

/-- Number of 32-bit words of a window (`EERR` has two a element, `SMP` starts with its 1024 history samples). -/
def Window.words : Window → Nat
  | .parcor => 1024
  | .qcof => 1024
  | .rcof => 1024
  | .lpc => 1024
  | .eerr => 2048
  | .smp => 66560
  | .res => 65536

/-- Bits of a window's word that the array stores: the element width (R45), a half of the 64-bit pattern for `EERR`. -/
def Window.width : Window → Nat
  | .parcor => 32
  | .qcof => 7
  | .rcof => 21
  | .lpc => 32
  | .eerr => 32
  | .smp => 32
  | .res => 32

/-- Offset of word `j` of a window. -/
def Window.addr (w : Window) (j : Nat) : Nat := w.base + 4 * j

/-- Word index of `SMP[i]`, i ≥ −1024 (R83: `SMP[i]` at 0x100000 + 4·(i + 1024)). -/
def smpWord (i : Int) : Nat := (i + 1024).toNat

/-- Is offset `a` inside window `w`? -/
def Window.holds (w : Window) (a : Nat) : Bool := decide (w.base ≤ a) && decide (a < w.base + 4 * w.words)

/-- All windows. -/
def allWindows : List Window := [.parcor, .qcof, .rcof, .lpc, .eerr, .smp, .res]

/-- What an aperture offset names (R82, R83, R84). -/
def regionOf (a : Nat) : Region :=
  if a < 0x100 then .csr a
  else
    match allWindows.find? (fun w => w.holds a) with
    | some w => .ram w ((a - w.base) / 4)
    | none =>
      if 0x017000 ≤ a ∧ a < 0x0170F0 then .prtRom ((a - 0x017000) / 4)
      else if 0x017100 ≤ a ∧ a < 0x017140 then .bgmcMaxRom ((a - 0x017100) / 4)
      else .unmapped

/-! ## Elements (R12, R46, R51) -/

/-- What reading a stored word of a window gives: `sext_W` of the stored W bits (R46; W = 32 leaves the word as it is, so an `EERR` half is its pattern). -/
def Window.view (w : Window) (raw : Word) : Word := (raw.setWidth w.width).signExtend 32

/-- What a window stores of a written word: `v[W−1:0]` (R46). -/
def Window.store (w : Window) (v : Word) : Word := (v.setWidth w.width).setWidth 32

/-- `MemRead` of word `j` of a window: the value of a written word; a fault for an unwritten one (R343). -/
def Memory.readElem (m : Memory) (w : Window) (j : Nat) : Except Fault Word :=
  if j < w.words then
    match m.readWord (w.addr j) with
    | some raw => .ok (w.view raw)
    | none => .error (.unwrittenRead (w.addr j))
  else .error (.noSuchElement w j)

/-- `MemWrite` of word `j` of a window. -/
def Memory.writeElem (m : Memory) (w : Window) (j : Nat) (v : Word) : Memory := m.writeWord (w.addr j) (w.store v)

/-- The signed elements at words `j`, `j+1`, … (`count` of them), in that order; the first unwritten one is the fault. -/
def Memory.readRange (m : Memory) (w : Window) (j : Nat) : Nat → Except Fault (List Int)
  | 0 => .ok []
  | count + 1 =>
    match m.readElem w j with
    | .error f => .error f
    | .ok v =>
      match Memory.readRange m w (j + 1) count with
      | .error f => .error f
      | .ok vs => .ok (v.toInt :: vs)

/-- Store values at words `j`, `j+1`, …. -/
def Memory.writeRange (m : Memory) (w : Window) (j : Nat) : List Int → Memory
  | [] => m
  | v :: vs => Memory.writeRange (m.writeElem w j (BitVec.ofInt 32 v)) w (j + 1) vs

/-- Give words `j`, `j+1`, … (`count` of them) the free values of draw `d`, each within its element's width (R342, R176). -/
def Memory.havocRange (m : Memory) (d : Nat) (w : Window) (j : Nat) : Nat → Memory
  | 0 => m
  | count + 1 => Memory.havocRange (m.writeElem w j (Config.freeWord d (w.addr j))) d w (j + 1) count

/-- The 64-bit pattern of `EERR[k]`, its low word first (R85); either half unwritten is a fault (R349). -/
def Memory.readEerr (m : Memory) (k : Nat) : Except Fault (BitVec 64) :=
  match m.readElem .eerr (2 * k) with
  | .error f => .error f
  | .ok lo =>
    match m.readElem .eerr (2 * k + 1) with
    | .error f => .error f
    | .ok hi => .ok (hi ++ lo)

/-! ## Errors: the report and its acknowledgement -/

/-- `raise E(cause)` (R304): the whole of what ALSQ does in place of a trap entry (R311). -/
def raiseError (c : Cause) (s : State) : State := { s with err := true, ecause := c }

/-- The host's acknowledgement (R312), a write of `v` to `STATUS`: bit 1 clears DONE, bit 2 clears ERR, every other bit is ignored (R35, R283). -/
def ackStatus (v : Word) (s : State) : State := { s with done := s.done && !v.getLsbD 1, err := s.err && !v.getLsbD 2 }

/-! ## The engine's latch and completion -/

/-- Is the engine running a command? `STATUS.BUSY` (R48). -/
def State.busy (s : State) : Bool :=
  match s.eng with
  | .idle => false
  | .run _ _ => true

/-- The engine latches a command word (R280, the last four assignments): CMD, FBK, ROVF, and RUN with the snapshot. -/
def latch (w : Word) (s : State) : State := { s with cmd := w, fbk := false, rovf := false, eng := .run w s.par }

/-- The completion bookkeeping (R281): BUSY ← 0, DONE ← 1, eng ← IDLE. -/
def complete (s : State) : State := { s with eng := .idle, due := 0, done := true }

/-- A command's operation, followed by its completion; the operation's fault is the step's. -/
def finish : Except Fault State → Host.Outcome State Fault Refusal
  | .ok t => .next (complete t)
  | .error f => .fault f

end Sys2Proof.Machine
end

