-- ==== Sys2Proof/Machine/Flags.lean ====
section
/-! DEFINITION. The status flags, the interrupt level and the register words they are read as (spec/10_state.md R34, R35, R44; spec/60_exceptions.md R300, R310). -/
namespace Sys2Proof.Machine

open Sys2Proof

/-- The number of a cause in `ECAUSE` (R300). -/
def Cause.code : Cause → BitVec 4
  | .noCause => 0#4
  | .illegalCmd => 1#4
  | .cmdBusy => 2#4
  | .badLen => 3#4
  | .badConfig => 4#4
  | .badSubblocks => 5#4
  | .badParam => 6#4
  | .busError => 7#4
  | .accBusy => 8#4

/-- The interrupt line: `IRQ = (DONE AND IE_DONE) OR (ERR AND IE_ERR)` (R310). -/
def State.irq (s : State) : Bool := (s.done && s.ieDone) || (s.err && s.ieErr)

/-- `STATUS` as read (R35): [31:12] 0, [11:8] ECAUSE, [7:6] 0, IRQ, ROVF, FBK, ERR, DONE, BUSY. -/
def statusWord (s : State) : Word :=
  0#20 ++ s.ecause.code ++ 0#2 ++ BitVec.ofBool s.irq ++ BitVec.ofBool s.rovf ++ BitVec.ofBool s.fbk ++ BitVec.ofBool s.err
    ++ BitVec.ofBool s.done ++ BitVec.ofBool s.busy

/-- `CTRL` as read (R34): [31] 0, [30:2] 0, IE_ERR, IE_DONE. -/
def ctrlWord (s : State) : Word := 0#30 ++ BitVec.ofBool s.ieErr ++ BitVec.ofBool s.ieDone

/-- `CONFIG` as read (R37): [31:9] 0, BPS, SBPART, RESCODE. -/
def configWord (p : ParamRegs) : Word := 0#23 ++ p.bps ++ BitVec.ofBool p.sbpart ++ p.rescode

/-- The order-1 fallback's flag (R194): set, never cleared here. -/
def setFbk (s : State) : State := { s with fbk := true }

/-- The residual-overflow flag (R200): set when some unwrapped residual is outside 32 bits, else left as acceptance cleared it. -/
def setRovf (es : List Int) (s : State) : State := { s with rovf := s.rovf || es.any (fun e => !fits32 e) }

end Sys2Proof.Machine
end

