-- ==== Sys2Proof/Machine/Operands.lean ====
section
/-! DEFINITION. The operand forms of the commands: parameter registers (spec/10_state.md R37–R41), the blocks and sub-blocks of residuals
(spec/00_scope.md R14, spec/43_rice.md R222), the result of a parameter search and the registers it goes to (R230). -/
namespace Sys2Proof.Machine

open Sys2Proof

/-- `kmax` = 31 if RESCODE > 1, else 15 (R37). -/
def ParamRegs.kmax (p : ParamRegs) : Nat := if 1 < p.rescode.toNat then 31 else 15

/-- The block length `LEN` as a number (R38). -/
def State.blockLen (s : State) : Nat := s.par.len.toNat

/-- The entropy parameters of the first `B` sub-blocks, `SPAR0..SPAR(B−1)` (R41). -/
def ParamRegs.sparList (p : ParamRegs) (B : Nat) : List Nat := (p.spar.toList.take B).map BitVec.toNat

/-- What a bit count is taken of: the parameter registers, the order `r` = N and RA of the command, and the residuals `RES[0..LEN−1]`. -/
structure Block where
  par : ParamRegs
  order : Nat
  ra : Bool
  res : List Int
deriving DecidableEq, Repr

/-- Length of a sub-block when the block is cut into `B` (R14). -/
def Block.sbl (blk : Block) (B : Nat) : Nat := blk.res.length / B

/-- The residuals of sub-block `b` of `B`: positions [b·sbl, (b+1)·sbl) (R14). -/
def Block.sub (blk : Block) (B b : Nat) : List Int := (blk.res.drop (b * blk.sbl B)).take (blk.sbl B)

/-- Length of the RA head of sub-block `b`: `min(r, 3, sbl)` for sub-block 0 of an RA block, else 0 (R222). -/
def Block.headLen (blk : Block) (B b : Nat) : Nat := if blk.ra ∧ b = 0 then min (min blk.order 3) (blk.sbl B) else 0

/-- `hp(j, s0)` = [BPS − 4, min(s0 + 3, kmax), min(s0 + 1, kmax)][j] (R222). The commands that use it run with BPS ≥ 4 (R302). -/
def headParam (p : ParamRegs) (j s0 : Nat) : Nat :=
  match j with
  | 0 => p.bps.toNat - 4
  | 1 => min (s0 + 3) p.kmax
  | _ => min (s0 + 1) p.kmax

/-- Σ over b ≥ 1 of `len_sr(s[b] − s[b−1], k)`: the bits of the parameter deltas (R221, R254). -/
def deltaBits (k : Nat) : List Nat → Nat
  | a :: b :: rest => lenSr ((b : Int) - (a : Int)) k + deltaBits k (b :: rest)
  | _ => 0

/-- A candidate of a parameter search: the sub-block count, the parameters, the residual bits and the parameter bits. -/
structure Choice where
  blocks : Nat
  params : List Nat
  resBits : Nat
  parBits : Nat
deriving DecidableEq, Repr

/-- `T_B = R_B + parbits` (R229, R265). -/
def Choice.total (c : Choice) : Nat := c.resBits + c.parBits

/-- The candidate of smallest total among `c` and those after it, an earlier one winning a tie (R229, R265: "ties go to the smaller B"). -/
def cheapest (c : Choice) : List Choice → Choice
  | [] => c
  | d :: ds => cheapest (if d.total < c.total then d else c) ds

/-- The bit-count registers: RESBITS ← R, PARBITS ← Q, TOTBITS ← R + Q (R225, R258). -/
def setCounts (R Q : Nat) (s : State) : State :=
  { s with resBits := BitVec.ofNat 64 R, parBits := BitVec.ofNat 32 Q, totBits := BitVec.ofNat 64 (R + Q) }

/-- Eight parameter bytes from a list, the entries past it 0 (R230, R265: `SPAR(b)` ← 0 for b ≥ B). -/
def sparOf (ps : List Nat) : Vector Byte 8 :=
  #v[BitVec.ofNat 8 (ps.getD 0 0), BitVec.ofNat 8 (ps.getD 1 0), BitVec.ofNat 8 (ps.getD 2 0), BitVec.ofNat 8 (ps.getD 3 0),
     BitVec.ofNat 8 (ps.getD 4 0), BitVec.ofNat 8 (ps.getD 5 0), BitVec.ofNat 8 (ps.getD 6 0), BitVec.ofNat 8 (ps.getD 7 0)]

/-- The result registers of a search (R230, R265): SUBBLOCKS, SPAR0..7, RESBITS, PARBITS, TOTBITS. -/
def setChoice (c : Choice) (s : State) : State :=
  setCounts c.resBits c.parBits
    { s with par := { s.par with subblocks := BitVec.ofNat 4 c.blocks, spar := sparOf c.params } }

/-- The block a bit-count command works on, `RES[0..LEN−1]` read in order (R343). -/
def readBlock (s : State) (r : Nat) (ra : Bool) : Except Fault Block :=
  match s.mem.readRange .res 0 s.blockLen with
  | .error f => .error f
  | .ok es => .ok { par := s.par, order := r, ra := ra, res := es }

end Sys2Proof.Machine
end

