-- ==== Sys2Proof/Machine/Control.lean ====
section
/-! DEFINITION. NOP, command acceptance with its value checks, soft and power-on reset, and the host's bus transactions (spec/45_control.md R280–R285,
spec/60_exceptions.md R300–R306, spec/70_reset_and_hazards.md R340–R344). -/
namespace Sys2Proof.Machine

open Sys2Proof

/-- **NOP** (R285): nothing but the completion. -/
def execNop (s : State) : Host.Outcome State Fault Refusal := finish (.ok s)

/-! ## Value checks (R302) -/

/-- Check L: 1 ≤ LEN ≤ 65536, else BAD_LEN. -/
def checkLen (p : ParamRegs) : Option Cause := if 1 ≤ p.len.toNat ∧ p.len.toNat ≤ 65536 then none else some .badLen

/-- Check C: 4 ≤ BPS ≤ 32, else BAD_CONFIG. -/
def checkBps (p : ParamRegs) : Option Cause := if 4 ≤ p.bps.toNat ∧ p.bps.toNat ≤ 32 then none else some .badConfig

/-- Check S_rice: SUBBLOCKS ∈ {1, 4}, and 4 needs SBPART = 1 and LEN mod 4 = 0, else BAD_SUBBLOCKS. -/
def checkRiceBlocks (p : ParamRegs) : Option Cause :=
  let B := p.subblocks.toNat
  if B = 1 ∨ (B = 4 ∧ p.sbpart = true ∧ p.len.toNat % 4 = 0) then none else some .badSubblocks

/-- Check S_bgmc: SUBBLOCKS ∈ {1, 2, 4, 8}, and more than 1 needs SBPART = 1 and LEN mod B = 0, else BAD_SUBBLOCKS. -/
def checkBgmcBlocks (p : ParamRegs) : Option Cause :=
  let B := p.subblocks.toNat
  if B = 1 ∨ ((B = 2 ∨ B = 4 ∨ B = 8) ∧ p.sbpart = true ∧ p.len.toNat % B = 0) then none else some .badSubblocks

/-- Check K: SPAR(b) ≤ kmax for every b < B, else BAD_PARAM. -/
def checkRiceParams (p : ParamRegs) : Option Cause :=
  if (p.sparList p.subblocks.toNat).all (fun k => decide (k ≤ p.kmax)) then none else some .badParam

/-- The value checks of a command, in order; the first that fails gives the cause (R302). -/
def valueCheck (p : ParamRegs) : Instr → Option Cause
  | .nop => none
  | .quant _ => none
  | .recon _ => none
  | .coefbits _ _ => none
  | .p2l _ => none
  | .resid _ _ => checkLen p
  | .ricebits _ _ => checkLen p <|> checkBps p <|> checkRiceBlocks p <|> checkRiceParams p
  | .ricesrch _ _ _ => checkLen p <|> checkBps p
  | .bgmcbits _ _ => checkLen p <|> checkBps p <|> checkBgmcBlocks p
  | .bgmcsrch _ _ _ => checkLen p <|> checkBps p
  | .ordsel _ _ _ _ _ _ _ => checkLen p <|> checkBps p

/-! ## Acceptance (R280) -/

/-- The host writes `w` to `CMD` (R280): CMD_BUSY, ILLEGAL_CMD, the value checks (R306), else the command is latched and its completion is due after a free
number of host transactions (log 1). -/
def acceptCommand (w : Word) (s : State) : State :=
  if s.busy then raiseError .cmdBusy s
  else
    match decode w with
    | .error _ => raiseError .illegalCmd s
    | .ok i =>
      match valueCheck s.par i with
      | some c => raiseError c s
      | none => { latch w s with due := Config.freeLatency s.draws, draws := s.draws + 1 }

/-! ## Reset (R284, R340–R344) -/

/-- The array elements of a command's write set (R342), as (window, first word, count). -/
def abandonedSet (len : Nat) : Instr → List (Window × Nat × Nat)
  | .nop => []
  | .quant n => [(.qcof, 0, n), (.rcof, 0, n)]
  | .recon n => [(.rcof, 0, n)]
  | .coefbits _ _ => []
  | .p2l n => [(.lpc, 0, n), (.qcof, 0, 1), (.rcof, 0, 1)]
  | .resid n _ => [(.lpc, 0, n), (.qcof, 0, 1), (.rcof, 0, 1), (.res, 0, len)]
  | .ricebits _ _ => []
  | .ricesrch _ _ _ => []
  | .bgmcbits _ _ => []
  | .bgmcsrch _ _ _ => []
  | .ordsel n _ _ _ _ _ _ => [(.res, 0, len), (.lpc, 0, max (n - 1) 0 + 1)]

/-- Give every element of a list of ranges its free value of draw `d`. -/
def Memory.havocAll (m : Memory) (d : Nat) : List (Window × Nat × Nat) → Memory
  | [] => m
  | (w, j, count) :: rest => Memory.havocAll (m.havocRange d w j count) d rest

/-- The arrays after a reset abandons the running command, if any (R284, R342): its write set holds free values (log 8), everything else is kept. -/
def abandon (s : State) : Memory :=
  match s.eng with
  | .idle => s.mem
  | .run w snap =>
    match decode w with
    | .error _ => s.mem
    | .ok i => s.mem.havocAll s.draws (abandonedSet snap.len.toNat i)

/-- The soft reset (R284): every register takes its reset value, the engine is idle, the arrays keep their contents but for an abandoned write set. -/
def softReset (s : State) : State :=
  { State.reset with mem := abandon s, draws := s.draws + 1, rdata := s.rdata, pending := s.pending }

/-- The power-on reset (R340, R341, R344): the reset state, whatever came before; the host's program and the free values already drawn are not ALSQ's (log 18). -/
def powerOnReset (s : State) : State := { State.reset with draws := s.draws, rdata := s.rdata, pending := s.pending }

/-! ## The registers on the bus (R32–R43) -/

/-- The value a register offset of the CSR page reads as (R32–R43); reserved offsets read 0. -/
def readRegister (a : Nat) (s : State) : Word :=
  match a with
  | 0x000 => 0x51534C41#32
  | 0x004 => 0x00010000#32
  | 0x008 => ctrlWord s
  | 0x00C => statusWord s
  | 0x010 => s.cmd
  | 0x014 => configWord s.par
  | 0x018 => s.par.len.setWidth 32
  | 0x01C => s.par.bitsMisc
  | 0x020 => s.par.subblocks.setWidth 32
  | 0x024 => s.optOrder.setWidth 32
  | 0x028 => s.coefBits
  | 0x02C => s.parBits
  | 0x030 => s.resBits.extractLsb' 0 32
  | 0x034 => s.resBits.extractLsb' 32 32
  | 0x038 => s.totBits.extractLsb' 0 32
  | 0x03C => s.totBits.extractLsb' 32 32
  | 0x040 => s.par.spar[0].setWidth 32
  | 0x044 => s.par.spar[1].setWidth 32
  | 0x048 => s.par.spar[2].setWidth 32
  | 0x04C => s.par.spar[3].setWidth 32
  | 0x050 => s.par.spar[4].setWidth 32
  | 0x054 => s.par.spar[5].setWidth 32
  | 0x058 => s.par.spar[6].setWidth 32
  | 0x05C => s.par.spar[7].setWidth 32
  | _ => 0#32

/-- The parameter registers after a write of `v` at an RW-idle register's offset, only its defined bits stored; `none` for another offset (R37–R41). -/
def writeParam (a : Nat) (v : Word) (p : ParamRegs) : Option ParamRegs :=
  match a with
  | 0x014 => some { p with rescode := v.extractLsb' 0 2, sbpart := v.getLsbD 2, bps := v.extractLsb' 3 6 }
  | 0x018 => some { p with len := v.setWidth 17 }
  | 0x01C => some { p with bitsMisc := v }
  | 0x020 => some { p with subblocks := v.setWidth 4 }
  | 0x040 => some { p with spar := p.spar.set 0 (v.setWidth 8) }
  | 0x044 => some { p with spar := p.spar.set 1 (v.setWidth 8) }
  | 0x048 => some { p with spar := p.spar.set 2 (v.setWidth 8) }
  | 0x04C => some { p with spar := p.spar.set 3 (v.setWidth 8) }
  | 0x050 => some { p with spar := p.spar.set 4 (v.setWidth 8) }
  | 0x054 => some { p with spar := p.spar.set 5 (v.setWidth 8) }
  | 0x058 => some { p with spar := p.spar.set 6 (v.setWidth 8) }
  | 0x05C => some { p with spar := p.spar.set 7 (v.setWidth 8) }
  | _ => none

/-- A write of `v` to `CTRL` (R34, R283): bit 31 is the soft reset, and then the other bits are discarded. -/
def writeCtrl (v : Word) (s : State) : State :=
  if v.getLsbD 31 then softReset s else { s with ieDone := v.getLsbD 0, ieErr := v.getLsbD 1 }

/-- A write of `v` to a register offset (R283). Read-only registers and reserved offsets ignore it. -/
def writeRegister (a : Nat) (v : Word) (s : State) : State :=
  if a = 0x010 then acceptCommand v s
  else if a = 0x008 then writeCtrl v s
  else if a = 0x00C then ackStatus v s
  else
    match writeParam a v s.par with
    | some p => if s.busy then raiseError .accBusy s else { s with par := p }
    | none => s

/-! ## ROM words (R83) -/

/-- Word `j` of the `PRT` window: {16'h0000, param, offset} of entry (ct, i), j = 20·ct + i. -/
def prtWord (P : Params) (j : Nat) : Word := 0#16 ++ P.prtParam (j / 20) (j % 20) ++ P.prtOffset (j / 20) (j % 20)

/-- Word `j` of the `BGMC_MAX` window: {16'h0000, value}. -/
def bgmcMaxWord (P : Params) (j : Nat) : Word := 0#16 ++ P.bgmcMax j

/-! ## Bus transactions (R282, R283) -/

/-- Is a bus access of `z` bytes at offset `a` a bus error: not four bytes, misaligned, or unmapped (R84, R86)? -/
def busBad (a z : Nat) : Bool := decide (z ≠ 4) || decide (a % 4 ≠ 0) || decide (regionOf a = .unmapped)

/-- An error report by a read, which returns 0 (R282, R303). -/
def failRead (c : Cause) (s : State) : State := { raiseError c s with rdata := 0#32 }

/-- A host read (R282). Reading an unwritten array word is a fault (R343). -/
def hostRead (a z : Nat) (s : State) : Except Fault State :=
  if busBad a z then .ok (failRead .busError s)
  else
    match regionOf a with
    | .csr o => .ok { s with rdata := readRegister o s }
    | .ram w j =>
      if s.busy then .ok (failRead .accBusy s)
      else
        match s.mem.readElem w j with
        | .error f => .error f
        | .ok v => .ok { s with rdata := v }
    | .prtRom j => if s.busy then .ok (failRead .accBusy s) else .ok { s with rdata := prtWord Config.params j }
    | .bgmcMaxRom j => if s.busy then .ok (failRead .accBusy s) else .ok { s with rdata := bgmcMaxWord Config.params j }
    | .unmapped => .ok (failRead .busError s)

/-- A host write (R283). -/
def hostWrite (a z : Nat) (v : Word) (s : State) : State :=
  if busBad a z then raiseError .busError s
  else
    match regionOf a with
    | .csr o => writeRegister o v s
    | .ram w j => if s.busy then raiseError .accBusy s else { s with mem := s.mem.writeElem w j v }
    | .prtRom _ => if s.busy then raiseError .accBusy s else s
    | .bgmcMaxRom _ => if s.busy then raiseError .accBusy s else s
    | .unmapped => raiseError .busError s

/-- The pseudo-instruction `wait` (R118): a read of STATUS, repeated while the value read has BUSY set. -/
def hostWait (s : State) : State :=
  let t := { s with rdata := statusWord s }
  if s.busy then { t with pending := .wait :: s.pending } else t

/-- One host transaction, complete in itself (R91). -/
def hostTransact (op : HostOp) (s : State) : Except Fault State :=
  match op with
  | .read a z => hostRead a.toNat z s
  | .write a z v => .ok (hostWrite a.toNat z v s)
  | .wait => .ok (hostWait s)
  | .powerOn => .ok (powerOnReset s)

/-- The host's turn: its next transaction; with none left, nothing happens (R319). -/
def hostTurn (s : State) : Host.Outcome State Fault Refusal :=
  match s.pending with
  | [] => .next s
  | op :: rest =>
    match hostTransact op { s with pending := rest } with
    | .ok t => .next t
    | .error f => .fault f

end Sys2Proof.Machine
end

