-- ==== Sys2Proof/Machine/Rice.lean ====
section
/-! DEFINITION. RICEBITS and RICESRCH: the Rice bit count, its estimate and the Rice parameter search (spec/43_rice.md R220–R232). -/
namespace Sys2Proof.Machine

open Sys2Proof

/-- `parbits_rice(B, s)` (R221): the selector bit when SBPART, 4 or 5 bits of s[0], and the parameter-0 deltas. -/
def riceParBits (p : ParamRegs) (ss : List Nat) : Nat :=
  (if p.sbpart then 1 else 0) + (if p.kmax = 31 then 5 else 4) + deltaBits 0 ss

/-- `cost_rice(b, k)` (R223) of sub-block `b` of `B`: `k_t` = hp(t, k) in the RA head, k elsewhere. -/
def riceCost (blk : Block) (B b k : Nat) : Nat :=
  ((blk.sub B b).mapIdx (fun t e => lenSr e (if t < blk.headLen B b then headParam blk.par t k else k))).sum

/-- `resbits_rice(B, s)` (R224). -/
def riceResBits (blk : Block) (B : Nat) (ss : List Nat) : Nat :=
  ((List.range B).map (fun b => riceCost blk B b (ss.getD b 0))).sum

/-- Σ|v| over a list of residuals (R226). -/
def absSum (es : List Int) : Nat := (es.map Int.natAbs).sum

/-- The estimated parameter and bits of a sub-block (R226). -/
def riceEstimate (kmax : Nat) (es : List Int) : Nat × Nat :=
  let n := es.length
  let t : Int := (absSum es : Int) - ((n / 2 : Nat) : Int)
  if t ≤ 0 then (0, n)
  else
    let u := t.toNat / n
    let k := if u = 0 then 0 else min (floorLog2 u) kmax
    (k, n * (k + 1) + t.toNat / 2 ^ k)

/-- The walk down from k while the next lower parameter costs strictly less (R227, d = −1). -/
def walkDown (C : Nat → Nat) : Nat → Nat
  | 0 => 0
  | k + 1 => if C k < C (k + 1) then walkDown C k else k + 1

/-- The walk up from k while the next higher parameter costs strictly less, `room` = kmax − k steps at most (R227, d = +1). -/
def walkUp (C : Nat → Nat) : Nat → Nat → Nat
  | 0, k => k
  | room + 1, k => if C (k + 1) < C k then walkUp C room (k + 1) else k

/-- The exact parameter search over 0..kmax with cost C (R227): both neighbours of k0 = kmax div 3 are probed, a tie goes down, and a step is taken only
when it strictly lowers the cost. -/
def riceSearch (C : Nat → Nat) (kmax : Nat) : Nat :=
  let k0 := kmax / 3
  let c0 : Cost := some (C k0)
  let cm : Cost := if 0 < k0 then some (C (k0 - 1)) else none
  let cp : Cost := if k0 < kmax then some (C (k0 + 1)) else none
  if Cost.lt cm c0 && Cost.le cm cp then walkDown C (k0 - 1)
  else if Cost.lt cp c0 then walkUp C (kmax - (k0 + 1)) (k0 + 1)
  else k0

/-- The parameters of candidate `B` (R229): the estimates, or the exact searches. -/
def riceParams (blk : Block) (xe : Bool) (B : Nat) : List Nat :=
  (List.range B).map (fun b =>
    if xe then riceSearch (riceCost blk B b) blk.par.kmax else (riceEstimate blk.par.kmax (blk.sub B b)).1)

/-- Candidate `B` evaluated (R229): in estimate mode R_B is the sum of the estimates, in exact mode the exact count. -/
def riceChoice (blk : Block) (xe : Bool) (B : Nat) : Choice :=
  let ss := riceParams blk xe B
  { blocks := B
    params := ss
    resBits :=
      if xe then riceResBits blk B ss
      else ((List.range B).map (fun b => (riceEstimate blk.par.kmax (blk.sub B b)).2)).sum
    parBits := riceParBits blk.par ss }

/-- Is B = 4 a candidate: SBPART = 1, LEN mod 4 = 0 and LEN ≥ 16 (R228). -/
def riceSplits (blk : Block) : Bool := blk.par.sbpart && decide (blk.res.length % 4 = 0) && decide (16 ≤ blk.res.length)

/-- The candidate RICESRCH chooses: the smallest T_B, B = 1 on a tie (R229). -/
def riceBest (blk : Block) (xe : Bool) : Choice :=
  cheapest (riceChoice blk xe 1) (if riceSplits blk then [riceChoice blk xe 4] else [])

/-- RICEBITS's operation (R225). -/
def ricebitsOp (r : Nat) (ra : Bool) (s : State) : Except Fault State :=
  match readBlock s r ra with
  | .error f => .error f
  | .ok blk =>
    let B := s.par.subblocks.toNat
    let ss := s.par.sparList B
    .ok (setCounts (riceResBits blk B ss) (riceParBits s.par ss) s)

/-- **RICEBITS** N, RA (R225). -/
def execRicebits (n : Nat) (ra : Bool) (s : State) : Host.Outcome State Fault Refusal := finish (ricebitsOp n ra s)

/-- RICESRCH's operation (R231). -/
def ricesrchOp (r : Nat) (ra xe : Bool) (s : State) : Except Fault State :=
  match readBlock s r ra with
  | .error f => .error f
  | .ok blk => .ok (setChoice (riceBest blk xe) s)

/-- **RICESRCH** N, RA, XE (R231). -/
def execRicesrch (n : Nat) (ra xe : Bool) (s : State) : Host.Outcome State Fault Refusal := finish (ricesrchOp n ra xe s)

end Sys2Proof.Machine
end

