-- ==== Sys2Proof/Machine/Bgmc.lean ====
section
/-! DEFINITION. BGMCBITS and BGMCSRCH: the BGMC geometry, bit count, estimate and parameter-byte search (spec/44_bgmc.md R250–R267). Everything the spec
leaves to named parameters is taken from a `Params` argument (R7). -/
namespace Sys2Proof.Machine

open Sys2Proof

/-- `s(p)` = p >> 4 (R250). -/
def bgmcS (p : Nat) : Nat := p / 16

/-- `sx(p)` = p AND 0xF (R250). -/
def bgmcSx (p : Nat) : Nat := p % 16

/-- `bb` = clip(asr(ceil_log2(LEN) − 3, 1), 0, 5) (R251). -/
def bgmcBb (len : Nat) : Nat := (clip (asr ((ceilLog2 len : Int) - 3) 1) 0 5).toNat

/-- `k` = max(s(p) − bb, 0) (R251). -/
def bgmcK (len p : Nat) : Nat := bgmcS p - bgmcBb len

/-- The shift count 5 − s(p) + k of R251, never negative. -/
def bgmcShift (len p : Nat) : Nat := 5 + bgmcK len p - bgmcS p

/-- `max` = BGMC_MAX[sx(p)] >> (5 − s(p) + k) (R251). -/
def bgmcMaxOf (P : Params) (len p : Nat) : Nat := (P.bgmcMax (bgmcSx p)).toNat / 2 ^ bgmcShift len p

/-- `half` = max >> 1 (R251). -/
def bgmcHalf (P : Params) (len p : Nat) : Nat := bgmcMaxOf P len p / 2

/-- Is the residual in range: −half ≤ msb(e) < half, msb(e) = asr(e, k) (R252)? -/
def bgmcInRange (P : Params) (len p : Nat) (e : Int) : Bool :=
  decide (-(bgmcHalf P len p : Int) ≤ asr e (bgmcK len p)) && decide (asr e (bgmcK len p) < (bgmcHalf P len p : Int))

/-- The symbol a residual contributes (R252). -/
def bgmcSym (P : Params) (len p : Nat) (e : Int) : Sym :=
  if bgmcInRange P len p e then .msb (asr e (bgmcK len p)) else .esc

/-- The residuals of sub-block `b` after its RA head (R253, R255). -/
def Block.body (blk : Block) (B b : Nat) : List Int := (blk.sub B b).drop (blk.headLen B b)

/-- `syms(b, p)` (R255). -/
def bgmcSyms (P : Params) (blk : Block) (B b p : Nat) : List Sym := (blk.body B b).map (bgmcSym P blk.res.length p)

/-- The Rice-coded RA head of sub-block `b` with `s0` = s(p) (R253, R256). -/
def bgmcHeadBits (blk : Block) (B b p : Nat) : Nat :=
  (((blk.sub B b).take (blk.headLen B b)).mapIdx (fun j e => lenSr e (headParam blk.par j (bgmcS p)))).sum

/-- `cost_bgmc(b, p)` (R256): the head, k bits for each in-range residual, the escapes, and the arithmetic-coded symbols. -/
def bgmcCost (P : Params) (blk : Block) (B b p : Nat) : Nat :=
  let len := blk.res.length
  let body := blk.body B b
  bgmcHeadBits blk B b p
    + bgmcK len p * (body.filter (bgmcInRange P len p)).length
    + ((body.filter (fun e => !bgmcInRange P len p e)).map (fun e => P.escBits e (bgmcS p) (bgmcK len p) (bgmcMaxOf P len p))).sum
    + P.acBits (bgmcS p) (bgmcSx p) (bgmcK len p) (bgmcMaxOf P len p) (bgmcSyms P blk B b p)

/-- `resbits_bgmc(B, p)` = Σ cost_bgmc(b, p[b]) + BGMC_FLUSH_BITS (R257). -/
def bgmcResBits (P : Params) (blk : Block) (B : Nat) (ps : List Nat) : Nat :=
  ((List.range B).map (fun b => bgmcCost P blk B b (ps.getD b 0))).sum + P.flushBits

/-- `parbits_bgmc(B, p)` (R254): the 2-bit selector, 8 or 9 bits of p[0], and the parameter-2 deltas of whole bytes. -/
def bgmcParBits (p : ParamRegs) (ps : List Nat) : Nat := 2 + (if p.kmax = 31 then 9 else 8) + deltaBits 2 ps

/-- `p_est` = min(BGMC_EST(S, n), 255) of a sub-block, S = Σ|RES[t]| over all of it (R260). -/
def bgmcEstimate (P : Params) (es : List Int) : Nat := min (P.bgmcEst (absSum es) es.length) 255

/-- `C(p)` of the exact search: `INF` outside 0..255 (R263). -/
def bgmcProbe (C : Nat → Nat) (p : Int) : Cost := if 0 ≤ p ∧ p ≤ 255 then some (C p.toNat) else none

/-- The linear scan (R263): over parameters in increasing order, a strictly smaller cost replaces the best. -/
def bgmcScan (C : Nat → Nat) : List Nat → Nat → Nat
  | [], best => best
  | p :: ps, best => bgmcScan C ps (if C p < C best then p else best)

/-- The descent of R263 from p in direction d, `fuel` steps at most (256 suffice, since p leaves 0..255 by then): a strictly smaller cost is the new best and clears the
misses, and the fifth miss in a row, or leaving 0..255, ends it. -/
def bgmcDescend (C : Nat → Nat) (d : Int) : Nat → Int → Nat → Nat → Nat
  | 0, _, best, _ => best
  | fuel + 1, p, best, miss =>
    let q := p + d
    if q < 0 ∨ 255 < q then best
    else if C q.toNat < C best then bgmcDescend C d fuel q q.toNat 0
    else if miss + 1 = 5 then best
    else bgmcDescend C d fuel q best (miss + 1)

/-- The exact local search of one sub-block with cost C from seed p0 (R263). The scan runs over max(0, p0−4)..min(255, p0+4). -/
def bgmcSearch (C : Nat → Nat) (p0 : Nat) : Nat :=
  let c0 : Cost := some (C p0)
  let cm := bgmcProbe C ((p0 : Int) - 5)
  let cp := bgmcProbe C ((p0 : Int) + 5)
  if Cost.le c0 cm && Cost.le c0 cp then
    bgmcScan C (List.range' (p0 - 4) (min 255 (p0 + 4) + 1 - (p0 - 4))) p0
  else if Cost.lt cm c0 && Cost.le cm cp then bgmcDescend C (-1) 256 p0 p0 0
  else bgmcDescend C 1 256 p0 p0 0

/-- The searched parameter bytes of sub-blocks `b`, `b+1`, … of candidate `B` (`count` of them): the first from `seed`, each later one from the result before it (R264). -/
def bgmcSearchFrom (P : Params) (blk : Block) (B b seed : Nat) : Nat → List Nat
  | 0 => []
  | count + 1 =>
    let p := bgmcSearch (bgmcCost P blk B b) seed
    p :: bgmcSearchFrom P blk B (b + 1) p count

/-- The parameter bytes of candidate `B`: the estimates (R262), or the searches from `seed` (R264). -/
def bgmcParams (P : Params) (blk : Block) (xe : Bool) (B seed : Nat) : List Nat :=
  if xe then bgmcSearchFrom P blk B 0 seed B else (List.range B).map (fun b => bgmcEstimate P (blk.sub B b))

/-- Candidate `B` evaluated; R_B is the exact count in both modes (R262, R265). -/
def bgmcChoice (P : Params) (blk : Block) (xe : Bool) (B seed : Nat) : Choice :=
  let ps := bgmcParams P blk xe B seed
  { blocks := B, params := ps, resBits := bgmcResBits P blk B ps, parBits := bgmcParBits blk.par ps }

/-- Is B ∈ {2, 4, 8} a candidate: SBPART = 1, LEN mod 4 = 0, LEN ≥ 16 and LEN mod B = 0 (R261)? -/
def bgmcSplits (blk : Block) (B : Nat) : Bool :=
  blk.par.sbpart && decide (blk.res.length % 4 = 0) && decide (16 ≤ blk.res.length) && decide (blk.res.length % B = 0)

/-- The candidates of a list of counts, each sub-block 0 seeded with p[0] of the candidate before it, which is B/2 (R264, R261). -/
def bgmcChoices (P : Params) (blk : Block) (xe : Bool) (seed : Nat) : List Nat → List Choice
  | [] => []
  | B :: Bs =>
    let c := bgmcChoice P blk xe B seed
    c :: bgmcChoices P blk xe (c.params.headD 0) Bs

/-- The candidate BGMCSRCH chooses: B = 1 seeded with the block's estimate, then the splits in increasing order, the smaller B on a tie (R264, R265). -/
def bgmcBest (P : Params) (blk : Block) (xe : Bool) : Choice :=
  let c1 := bgmcChoice P blk xe 1 (bgmcEstimate P blk.res)
  cheapest c1 (bgmcChoices P blk xe (c1.params.headD 0) ([2, 4, 8].filter (bgmcSplits blk)))

/-- BGMCBITS's operation (R258). -/
def bgmcbitsOp (P : Params) (r : Nat) (ra : Bool) (s : State) : Except Fault State :=
  match readBlock s r ra with
  | .error f => .error f
  | .ok blk =>
    let B := s.par.subblocks.toNat
    let ps := s.par.sparList B
    .ok (setCounts (bgmcResBits P blk B ps) (bgmcParBits s.par ps) s)

/-- **BGMCBITS** N, RA (R258). -/
def execBgmcbits (n : Nat) (ra : Bool) (s : State) : Host.Outcome State Fault Refusal := finish (bgmcbitsOp Config.params n ra s)

/-- BGMCSRCH's operation (R266). -/
def bgmcsrchOp (P : Params) (r : Nat) (ra xe : Bool) (s : State) : Except Fault State :=
  match readBlock s r ra with
  | .error f => .error f
  | .ok blk => .ok (setChoice (bgmcBest P blk xe) s)

/-- **BGMCSRCH** N, RA, XE (R266). -/
def execBgmcsrch (n : Nat) (ra xe : Bool) (s : State) : Host.Outcome State Fault Refusal := finish (bgmcsrchOp Config.params n ra xe s)

end Sys2Proof.Machine
end

