-- ==== Sys2Proof/Machine/Quantizer.lean ====
section
/-! DEFINITION. QUANT, RECON and COEFBITS: the PARCOR quantizer, the reconstructor and the coefficient bit count (spec/40_quantizer.md R141–R150). -/
namespace Sys2Proof.Machine

open Sys2Proof

/-- The companded quantization of `X`, 2·(1 ± p) scaled by 2^30; below 0 it saturates to −64 (R141). -/
def compand (X : Int) : Int := if X < 0 then -64 else clip ((isqrt (asr X 17).toNat : Int) - 64) (-64) 63

/-- `quant(i, P)` → q ∈ [−64, 63] (R141). -/
def quant (i : Nat) (P : Int) : Int :=
  match i with
  | 0 => compand (P + 1073741824)
  | 1 => compand (1073741824 - P)
  | _ => clip (asr P 24) (-64) 63

/-- `Gamma(q)` = 32·(2q + 129)² − 2^20 (R143). -/
def gamma (q : Int) : Int := 32 * (2 * q + 129) * (2 * q + 129) - 1048576

/-- `rec(i, q)`: the 21-bit reconstruction, 2^20 = 1.0 (R143). -/
def recon (i : Nat) (q : Int) : Int :=
  match i with
  | 0 => gamma q
  | 1 => -gamma q
  | _ => q * 16384 + 8192

/-- `cbits(i, q, ct)`: the coded length of coefficient `i` under coefficient table `ct` (R147). -/
def cbits (P : Params) (i : Nat) (q : Int) (ct : Nat) : Nat :=
  if ct = 3 then 7
  else if i < 20 then lenSr (q - (P.prtOffset ct i).toInt) (P.prtParam ct i).toNat
  else if i ≤ 126 then lenSr (q - ((i % 2 : Nat) : Int)) 2
  else lenSr q 1

/-- Σ of `cbits` over the coefficients of a list, from index 0 (R149; `cb(k)` of R171 on the first k). -/
def coefTotal (P : Params) (ct : Nat) (qs : List Int) : Nat := (qs.mapIdx (fun i q => cbits P i q ct)).sum

/-- QUANT's operation (R142). -/
def quantOp (n : Nat) (s : State) : Except Fault State :=
  match s.mem.readRange .parcor 0 n with
  | .error f => .error f
  | .ok ps =>
    let qs := ps.mapIdx quant
    .ok { s with mem := (s.mem.writeRange .qcof 0 qs).writeRange .rcof 0 (qs.mapIdx recon) }

/-- **QUANT** N (R142). -/
def execQuant (n : Nat) (s : State) : Host.Outcome State Fault Refusal := finish (quantOp n s)

/-- RECON's operation (R146). -/
def reconOp (n : Nat) (s : State) : Except Fault State :=
  match s.mem.readRange .qcof 0 n with
  | .error f => .error f
  | .ok qs => .ok { s with mem := s.mem.writeRange .rcof 0 (qs.mapIdx recon) }

/-- **RECON** N (R146). -/
def execRecon (n : Nat) (s : State) : Host.Outcome State Fault Refusal := finish (reconOp n s)

/-- COEFBITS's operation (R149): `COEFBITS` ← total[31:0], `TOTBITS` ← total. -/
def coefbitsOp (P : Params) (n ct : Nat) (s : State) : Except Fault State :=
  match s.mem.readRange .qcof 0 n with
  | .error f => .error f
  | .ok qs => .ok { s with coefBits := BitVec.ofNat 32 (coefTotal P ct qs), totBits := BitVec.ofNat 64 (coefTotal P ct qs) }

/-- **COEFBITS** N, CT (R149), under the machine's own PRT (R148). -/
def execCoefbits (n ct : Nat) (s : State) : Host.Outcome State Fault Refusal := finish (coefbitsOp Config.params n ct s)

end Sys2Proof.Machine
end

