-- ==== Sys2Proof/Machine/Lattice.lean ====
section
/-! DEFINITION. P2L and RESID: the PARCOR-to-LPC lattice with its overflow test and order-1 fallback, and the residual filter
(spec/42_lattice_residual.md R190–R202). -/
namespace Sys2Proof.Machine

open Sys2Proof

/-- The lattice step (R190): `d[m] = c[m] + asr(a·c[k−1−m] + 2^19, 20)` for m < k, every read of the old `c`; `d[k] = a`. -/
def latticeStep (c : List Int) (a : Int) : List Int :=
  List.zipWith (fun cm cr => cm + asr (a * cr + 524288) 20) c c.reverse ++ [a]

/-- The vectors `c`, `step(c)`, … of a lattice continued from `c` over the reconstructed coefficients. -/
def latticeSeq (c : List Int) : List Int → List (List Int)
  | [] => [c]
  | a :: rest => c :: latticeSeq (latticeStep c a) rest

/-- `c^(r)`: the vector of order r over `rc[0..r−1]`, from the empty vector (R191). -/
def lattice (rc : List Int) : List Int := rc.foldl latticeStep []

/-- The conversion overflows when some updated entry `d[j]`, j < m, of some `c^(m+1)` is not `fits32` (R191). -/
def latticeOverflows (rc : List Int) : Bool := (latticeSeq [] rc).any (fun d => d.dropLast.any (fun x => !fits32 x))

/-- `P_FB`: −0.9 in Q2.30 (R193). -/
def pFb : Int := -966367642

/-- `Q_FB` = quant(0, P_FB) (R193). -/
def qFb : Int := quant 0 pFb

/-- `R_FB` = rec(0, Q_FB) (R193). -/
def rFb : Int := recon 0 qFb

/-- The coefficients in effect: the operands, or the fallback's one (R194). -/
def effectiveRc (rc : List Int) : List Int := if latticeOverflows rc then [rFb] else rc

/-- The fallback's stores and flag (R194): QCOF[0] ← Q_FB, RCOF[0] ← R_FB, FBK ← 1. -/
def fallback (s : State) : State :=
  setFbk { s with mem := (s.mem.writeElem .qcof 0 (BitVec.ofInt 32 qFb)).writeElem .rcof 0 (BitVec.ofInt 32 rFb) }

/-- The LPC vector and order in effect (R195; R201's first four lines): the fallback when the lattice overflows, `LPC[0..r_eff−1]` ← c^(r_eff),
OPT_ORDER ← r_eff. -/
def loadLpc (rc : List Int) (s : State) : State :=
  let t := if latticeOverflows rc then fallback s else s
  { t with mem := t.mem.writeRange .lpc 0 (lattice (effectiveRc rc)), optOrder := BitVec.ofNat 10 (effectiveRc rc).length }

/-- P2L's operation (R195); it reads RCOF[0..r−1] (log 10). -/
def p2lOp (r : Nat) (s : State) : Except Fault State :=
  match s.mem.readRange .rcof 0 r with
  | .error f => .error f
  | .ok rc => .ok (loadLpc rc s)

/-- **P2L** N (R195). -/
def execP2l (n : Nat) (s : State) : Host.Outcome State Fault Refusal := finish (p2lOp n s)

/-- Σ_{j=1..m} c[j−1] · x(n−j) for the vector `c` of order m (R197). -/
def predictorSum (c : List Int) (x : Int → Int) (n : Int) : Int := (c.mapIdx (fun j cj => cj * x (n - 1 - (j : Int)))).sum

/-- `asr(acc, 20)` with `acc = wrap64(2^19 + Σ ...)`: the negated prediction of sample n (R197). -/
def predictorTerm (c : List Int) (x : Int → Int) (n : Int) : Int := asr (wrap64 (524288 + predictorSum c x n)) 20

/-- `e(n) = x(n) + asr(acc, 20)`, exact (R197). -/
def residual (c : List Int) (x : Int → Int) (n : Int) : Int := x n + predictorTerm c x n

/-- The vector that predicts sample n (R198): `c^(m)`, the lattice of the first m coefficients, with m = min(n, r_eff) in an RA block and r_eff otherwise. -/
def predictorOf (ra : Bool) (rc : List Int) (n : Nat) : List Int := lattice (rc.take (if ra then min n rc.length else rc.length))

/-- The exact residuals `e(0..len−1)` over the coefficients in effect `rc` (R197, R198); sample n is predicted by `predictorOf ra rc n`, taken from the
sequence of the lattice's vectors, which is built once. -/
def residuals (ra : Bool) (rc : List Int) (x : Int → Int) (len : Nat) : List Int :=
  let seq := latticeSeq [] rc
  (List.range len).map (fun n => residual (seq.getD (if ra then min n rc.length else rc.length) []) x (n : Int))

/-- History samples that a block of order r reads: r unless it is an RA block, which reads none (R198, R199). -/
def historyLen (ra : Bool) (r : Nat) : Nat := if ra then 0 else r

/-- The samples `x(−h..len−1)`, read in order (R196, R199, R343). -/
def readSamples (s : State) (h len : Nat) : Except Fault (List Int) := s.mem.readRange .smp (smpWord (-(h : Int))) (h + len)

/-- `x(i)` of samples read from −h on (R196). -/
def sampleAt (xs : List Int) (h : Nat) (i : Int) : Int := xs.getD (i + h).toNat 0

/-- The exact residuals of the block in `SMP` under the coefficients in effect (R196–R199). -/
def blockResiduals (ra : Bool) (rc : List Int) (s : State) : Except Fault (List Int) :=
  match readSamples s (historyLen ra rc.length) s.blockLen with
  | .error f => .error f
  | .ok xs => .ok (residuals ra rc (sampleAt xs (historyLen ra rc.length)) s.blockLen)

/-- RESID's operation (R201): the lattice over all r coefficients, LPC, OPT_ORDER, `RES[n]` ← wrap32(e(n)), ROVF (R200). -/
def residOp (r : Nat) (ra : Bool) (s : State) : Except Fault State :=
  match s.mem.readRange .rcof 0 r with
  | .error f => .error f
  | .ok rc =>
    match blockResiduals ra (effectiveRc rc) s with
    | .error f => .error f
    | .ok es =>
      let t := loadLpc rc s
      .ok (setRovf es { t with mem := t.mem.writeRange .res 0 (es.map wrap32) })

/-- **RESID** N, RA (R201). -/
def execResid (n : Nat) (ra : Bool) (s : State) : Host.Outcome State Fault Refusal := finish (residOp n ra s)

end Sys2Proof.Machine
end

