-- ==== Sys2Proof/Machine/OrderSelect.lean ====
section
/-! DEFINITION. ORDSEL: the order selection, by estimate or exact count, full or valley-detect (spec/41_order_select.md R170–R177). -/
namespace Sys2Proof.Machine

open Sys2Proof

/-- The fields of an ORDSEL command beside N (R176). -/
structure OrdselOpts where
  ct : Nat
  xo : Bool
  xe : Bool
  ra : Bool
  vd : Bool
  bg : Bool
deriving DecidableEq, Repr

/-- `aob` = ceil_log2(clip(asr(LEN, 3) − 1, 2, max(P + 1, 2))) (R171). -/
def adaptOrderBits (len P : Nat) : Nat := ceilLog2 (clip (asr (len : Int) 3 - 1) 2 ((max (P + 1) 2 : Nat) : Int)).toNat

/-- The test `E[k] ≥ 1` on a binary64 pattern (R173): x[63] = 0, x[62:52] ≥ 1023, and not a NaN. -/
def atLeastOne (x : BitVec 64) : Bool :=
  !x.getLsbD 63 && decide (1023 ≤ (x.extractLsb' 52 11).toNat)
    && !(decide ((x.extractLsb' 52 11).toNat = 2047) && decide ((x.extractLsb' 0 52).toNat ≠ 0))

/-- The terms every order's count has: BITS_MISC + aob + cb(k), the coefficients being the first k of `QCOF` (R171). -/
def orderFixedBits (P : Params) (s : State) (maxOrder ct : Nat) (qs : List Int) : Nat :=
  s.par.bitsMisc.toNat + adaptOrderBits s.blockLen maxOrder + coefTotal P ct qs

/-- `est(k)` (R172) with `E` = EERR[k]. -/
def orderEstimate (P : Params) (s : State) (maxOrder ct k : Nat) (E : BitVec 64) : Except Fault Cost :=
  match s.mem.readRange .qcof 0 k with
  | .error f => .error f
  | .ok qs => .ok (some (orderFixedBits P s maxOrder ct qs + P.logTerm E s.blockLen))

/-- `T_ent` (R175): the total that the search of the command's coder would compute on the residuals `es` (log 11). -/
def entropyTotal (P : Params) (par : ParamRegs) (k : Nat) (o : OrdselOpts) (es : List Int) : Nat :=
  let blk : Block := { par := par, order := k, ra := o.ra, res := es }
  if o.bg then (bgmcBest P blk o.xe).total else (riceBest blk o.xe).total

/-- `exact(k)` (R175): INF when the lattice of order k overflows; else the fixed terms and the entropy total of RESID's residuals. -/
def orderExact (P : Params) (s : State) (maxOrder k : Nat) (o : OrdselOpts) : Except Fault Cost :=
  match s.mem.readRange .rcof 0 k with
  | .error f => .error f
  | .ok rc =>
    if latticeOverflows rc then .ok none
    else
      match blockResiduals o.ra rc s with
      | .error f => .error f
      | .ok es =>
        match s.mem.readRange .qcof 0 k with
        | .error f => .error f
        | .ok qs => .ok (some (orderFixedBits P s maxOrder o.ct qs + entropyTotal P s.par k o (es.map wrap32)))

/-- `cost(k)` (R176): the estimate when XO = 0 and EERR[k] ≥ 1.0, else the exact count. EERR[k] is read only when XO = 0 (R343). -/
def orderCost (P : Params) (s : State) (maxOrder : Nat) (o : OrdselOpts) (k : Nat) : Except Fault Cost :=
  if o.xo then orderExact P s maxOrder k o
  else
    match s.mem.readEerr k with
    | .error f => .error f
    | .ok E => if atLeastOne E then orderEstimate P s maxOrder o.ct k E else orderExact P s maxOrder k o

/-- The state of the selection loop (R176). -/
structure OrderScan where
  best : Cost
  kbest : Nat
  miss : Nat
deriving DecidableEq, Repr

/-- One order's cost in the loop (R176, R177): strictly below the best so far it is the new best and clears the misses. -/
def OrderScan.see (a : OrderScan) (k : Nat) (c : Cost) : OrderScan :=
  if Cost.lt c a.best then { best := c, kbest := k, miss := 0 } else { a with miss := a.miss + 1 }

/-- The loop over orders k, k+1, … (`count` of them), stopping under VD when the misses exceed T (R176). The costs are evaluated as they are needed, so an
order past the stop is never read (log 10). -/
def orderScan (cost : Nat → Except Fault Cost) (vd : Bool) (T : Nat) (a : OrderScan) (k : Nat) : Nat → Except Fault OrderScan
  | 0 => .ok a
  | count + 1 =>
    match cost k with
    | .error f => .error f
    | .ok c =>
      let b := a.see k c
      if vd && decide (T < b.miss) then .ok b else orderScan cost vd T b (k + 1) count

/-- The valley threshold `T` = max(2, P div 6) (R176). -/
def valleyT (P : Nat) : Nat := max 2 (P / 6)

/-- What ORDSEL leaves unspecified (R176): the free values of draw `s.draws` in RES[0..LEN−1], LPC[0..max(P−1, 0)], SUBBLOCKS, SPAR0..7, RESBITS and PARBITS,
each within its field (log 7). -/
def ordselScratch (maxOrder : Nat) (s : State) : State :=
  let w := Config.freeWord s.draws
  { s with
    mem := (s.mem.havocRange s.draws .res 0 s.blockLen).havocRange s.draws .lpc 0 (max (maxOrder - 1) 0 + 1)
    par := { s.par with
      subblocks := (w 0x020).setWidth 4
      spar := #v[(w 0x040).setWidth 8, (w 0x044).setWidth 8, (w 0x048).setWidth 8, (w 0x04C).setWidth 8,
                 (w 0x050).setWidth 8, (w 0x054).setWidth 8, (w 0x058).setWidth 8, (w 0x05C).setWidth 8] }
    resBits := w 0x034 ++ w 0x030
    parBits := w 0x02C
    draws := s.draws + 1 }

/-- ORDSEL's operation (R176): OPT_ORDER ← kbest, TOTBITS ← best. The best cost is finite whenever the loop ends, since order 0 is never INF (log 16). -/
def ordselOp (P : Params) (maxOrder : Nat) (o : OrdselOpts) (s : State) : Except Fault State :=
  match orderScan (orderCost P s maxOrder o) o.vd (valleyT maxOrder) { best := none, kbest := 0, miss := 0 } 0 (maxOrder + 1) with
  | .error f => .error f
  | .ok a => .ok { ordselScratch maxOrder s with optOrder := BitVec.ofNat 10 a.kbest, totBits := BitVec.ofNat 64 (a.best.getD 0) }

/-- **ORDSEL** N, CT, XO, XE, RA, VD, BG (R176). -/
def execOrdsel (n ct : Nat) (xo xe ra vd bg : Bool) (s : State) : Host.Outcome State Fault Refusal :=
  finish (ordselOp Config.params n { ct := ct, xo := xo, xe := xe, ra := ra, vd := vd, bg := bg } s)

end Sys2Proof.Machine
end

