-- ==== Sys2Proof/Machine/Dispatch.lean ====
section
/-! DEFINITION. The dispatch: the meaning of each command, its completion step (spec/45_control.md R281). -/
namespace Sys2Proof.Machine

open Sys2Proof

/-- The completion step of a command in a state (R281): one arm per row of spec/opcode_table.json. -/
def exec (i : Instr) (s : State) : Host.Outcome State Fault Refusal :=
  match i with
  | .nop => Sys2Proof.Machine.execNop s
  | .quant n => Sys2Proof.Machine.execQuant n s
  | .recon n => Sys2Proof.Machine.execRecon n s
  | .coefbits n ct => Sys2Proof.Machine.execCoefbits n ct s
  | .p2l n => Sys2Proof.Machine.execP2l n s
  | .resid n ra => Sys2Proof.Machine.execResid n ra s
  | .ricebits n ra => Sys2Proof.Machine.execRicebits n ra s
  | .ricesrch n ra xe => Sys2Proof.Machine.execRicesrch n ra xe s
  | .bgmcbits n ra => Sys2Proof.Machine.execBgmcbits n ra s
  | .bgmcsrch n ra xe => Sys2Proof.Machine.execBgmcsrch n ra xe s
  | .ordsel n ct xo xe ra vd bg => Sys2Proof.Machine.execOrdsel n ct xo xe ra vd bg s

end Sys2Proof.Machine
end

