-- ==== Sys2Proof/Machine/Agents.lean ====
section
/-! DEFINITION. Which agent moves, and its move: the host's next transaction or the engine's completion (spec/20_memory.md R91, spec/45_control.md R281,
spec/70_reset_and_hazards.md R350). -/
namespace Sys2Proof.Machine

open Sys2Proof

/-- The engine's turn: the completion of the latched word's command (R281). -/
def engineTurn (w : Word) (s : State) : Host.Outcome State Fault Refusal :=
  match decode w with
  | .ok i => exec i s
  | .error _ => .refused (.illegalLatch w)

/-- Is the running command's completion the next step: its latency has run out, or the host has nothing more to do, so that only the completion can happen
(R350; log 1, log 4). -/
def State.completes (s : State) : Bool := decide (s.due = 0) || s.pending.isEmpty

/-- One turn of the system: the completion when it is the next step, else one host transaction, of which one fewer is now to land before the completion. -/
def turn (s : State) : Host.Outcome State Fault Refusal :=
  match s.eng with
  | .idle => hostTurn s
  | .run w _ => if s.completes then engineTurn w s else hostTurn { s with due := s.due - 1 }

/-- The state in which the engine has latched `w` and its completion is the next step: what acceptance without a wait leaves (R280; log 5). -/
def latched (w : Word) (s : State) : State := { latch w s with due := 0 }

end Sys2Proof.Machine
end

