-- ==== Sys2Proof/Machine/Step.lean ====
section
/-! DEFINITION. The step of the machine, and where it takes its next command from. -/
namespace Sys2Proof.Machine

/-- One step: a host transaction, a command's completion, or idleness (spec/20_memory.md R91). -/
def step (s : State) : Host.Outcome State Fault Refusal := turn s

/-- `s` with the command word `w` where the next step takes its command: in the engine's latch, its completion due at once. ALSQ fetches nothing
(spec/10_state.md R31), so this stands for the host's accepted `CMD` write (log 5). -/
def State.withFetchWord (s : State) (nbits w : Nat) : State := latched (tableWord nbits w) s

end Sys2Proof.Machine
end

