-- ==== Sys2Proof/Safety.lean ====
section
/-! DEFINITION. What claims are stated in: written operands (spec/70_reset_and_hazards.md R343), the bytes a store covers, the invariant every step keeps, and the
decoder of spec/42_lattice_residual.md R202. -/
namespace Sys2Proof.Machine

open Sys2Proof

/-- The words `j..j+n−1` of a window are written (R341), so that reading them is no fault (R343). -/
abbrev Memory.Written (m : Memory) (w : Window) (j n : Nat) : Prop := ∀ i, i < n → (m.readWord (w.addr (j + i))).isSome = true

/-- Offset `a` is one of the bytes of the words `j..j+n−1` of a window. -/
def StoredAt (w : Window) (j n a : Nat) : Prop := ∃ i, i < n ∧ w.addr (j + i) ≤ a ∧ a < w.addr (j + i) + 4

/-- Every listed byte lies in an array window (R83): nothing is stored at an unmapped offset, in a ROM window or in the CSR page. -/
def Memory.inWindows (m : Memory) : Bool := m.all (fun c => allWindows.any (fun w => w.holds c.1))

/-- A word is written as a whole (R341, "the unit of writtenness is the 32-bit word"). -/
def Memory.wholeWords (m : Memory) : Bool := m.all (fun c => (m.readWord (c.1 / 4 * 4)).isSome)

/-- What is true of the engine's hidden state (R48, R280): while it runs, the snapshot is the parameter registers, CMD is the latched word, the word is legal and
passed its value checks, and FBK and ROVF are clear. -/
def EngineInv (s : State) : Prop :=
  match s.eng with
  | .idle => s.due = 0
  | .run w snap =>
    snap = s.par ∧ s.cmd = w ∧ s.fbk = false ∧ s.rovf = false ∧ ∃ i, decode w = .ok i ∧ valueCheck s.par i = none

/-- The invariant of every reachable state. -/
structure Inv (s : State) : Prop where
  /-- The memory keeps its canonical form. -/
  memWf : s.mem.wf = true
  /-- Only array windows hold bytes (R83). -/
  memWindows : s.mem.inWindows = true
  /-- Words are written whole (R341). -/
  memWhole : s.mem.wholeWords = true
  /-- `ERR` = 1 has a cause (R300: 0 is never reported; R304). -/
  errCause : s.err = true → s.ecause ≠ .noCause
  /-- The engine's hidden state is consistent (R48). -/
  engine : EngineInv s

/-- The next step is the host's, and its transaction is `op`: no command runs, or its completion is not yet due. -/
def HostNext (s : State) (op : HostOp) (rest : List HostOp) : Prop := s.pending = op :: rest ∧ (s.busy = true → 0 < s.due)

/-- The state a host transaction acts on: it is taken off the list, and one fewer is to land before a running command's completion. -/
def State.afterPop (s : State) (rest : List HostOp) : State := { s with pending := rest, due := if s.busy then s.due - 1 else s.due }

/-- The inputs that reset ALSQ: the power-on reset (R340), and a word written to `CTRL` with bit 31 set (R284). -/
def isReset : HostOp → Bool
  | .read _ _ => false
  | .write a z v => decide (a = 0x008#24) && decide (z = 4) && v.getLsbD 31
  | .wait => false
  | .powerOn => true

/-- ORDSEL's loop (R176) reaches order `k`: the orders below `k` are evaluated, and under VD their misses in a row do not exceed T. -/
def orderReached (s : State) (n : Nat) (o : OrdselOpts) (k : Nat) : Bool :=
  match orderScan (orderCost Config.params s n o) o.vd (valleyT n) ⟨none, 0, 0⟩ 0 k with
  | .ok a => !o.vd || decide (a.miss ≤ valleyT n)
  | .error _ => false

/-- `B` is a candidate sub-block count of RICESRCH on this block (R228). -/
def RiceCandidate (blk : Block) (B : Nat) : Prop :=
  B = 1 ∨ (B = 4 ∧ blk.par.sbpart = true ∧ blk.res.length % 4 = 0 ∧ 16 ≤ blk.res.length)

/-- `B` is a candidate sub-block count of BGMCSRCH on this block (R261). -/
def BgmcCandidate (blk : Block) (B : Nat) : Prop :=
  B = 1 ∨ (B ∈ [2, 4, 8] ∧ blk.par.sbpart = true ∧ blk.res.length % 4 = 0 ∧ 16 ≤ blk.res.length ∧ blk.res.length % B = 0)

/-- The mapped offsets of the aperture: the CSR page (R82) and the windows of R83. -/
abbrev Mapped (a : Nat) : Prop :=
  a < 0x100 ∨ (0x010000 ≤ a ∧ a < 0x016000) ∨ (0x017000 ≤ a ∧ a < 0x0170F0) ∨ (0x017100 ≤ a ∧ a < 0x017140) ∨
    (0x100000 ≤ a ∧ a < 0x141000) ∨ (0x200000 ≤ a ∧ a < 0x240000)

/-- `k` steps, stopping at the first fault or refusal. -/
def runSteps : Nat → State → Host.Outcome State Fault Refusal
  | 0, s => .next s
  | k + 1, s =>
    match step s with
    | .next t => runSteps k t
    | .fault f => .fault f
    | .refused r => .refused r

/-- `x` after the samples `xs` have been decoded: `xs[i]` for i ≥ 0, the history for i < 0. -/
def decodedSignal (hist : Int → Int) (xs : List Int) (i : Int) : Int := if i < 0 then hist i else xs.getD i.toNat 0

/-- The decoder of R202, after the samples `xs`: each residual in sample order gives `x(n) = RES[n] − asr(acc, 20)`, with the predictor of R198. -/
def decodeResiduals (ra : Bool) (rc : List Int) (hist : Int → Int) (xs : List Int) : List Int → List Int
  | [] => xs
  | e :: es =>
    decodeResiduals ra rc hist
      (xs ++ [e - predictorTerm (predictorOf ra rc xs.length) (decodedSignal hist xs) (xs.length : Int)]) es

/-- The laws the spec names for the parameter functions: R150, R256, R260, R172. -/
structure LawfulParams (P : Params) : Prop where
  /-- Every `PRT[ct][i].param` is in 0..7 (R150). -/
  prtParam : ∀ ct i, (P.prtParam ct i).toNat ≤ 7
  /-- `BGMC_AC_BITS(.., [])` = 0 (R256). -/
  acBits : ∀ s sx k mx, P.acBits s sx k mx [] = 0
  /-- `BGMC_EST(0, n)` = 0 (R260). -/
  bgmcEst : ∀ n, P.bgmcEst 0 n = 0
  /-- `LOGTERM(1.0, len)` = 0 (R172). -/
  logTerm : ∀ len, P.logTerm Config.oneF64 len = 0

end Sys2Proof.Machine
end

