-- ==== Sys2Proof/Certificates/Slice0/Obligations.lean ====
section
/-! DEFINITION. The statements for the provers, each with the rule of spec/ it formalises. -/

open Sys2Proof Sys2Proof.Machine

/-! ## Encoding (spec/30_encoding.md) -/

/-- R111–R113: encoding a well-formed command and decoding the word gives the command back, every operand at every value. -/
def Obligations.DecodeOfEncode : Prop := ∀ i : Instr, i.WellFormed → decode (encode i) = .ok i

/-- R111–R114: a legal word is the encoding of its command, which is well formed: no bit of a legal word is dropped. -/
def Obligations.EncodeOfDecode : Prop := ∀ (w : Word) (i : Instr), decode w = .ok i → i.WellFormed ∧ encode i = w

/-- R114: a word is legal exactly when a row of R113 matches it, and at most one row does; opcodes 0x0B..0xFF and words with a bit outside the fields their opcode uses are illegal; a `CMD`
write of an illegal word while idle reports ILLEGAL_CMD and changes nothing else. -/
def Obligations.LegalWordsExactlyTableRows : Prop :=
  (∀ w : Word, (∃ i, decode w = .ok i) ↔ ∃ k : Mnemonic, w &&& k.mask = k.pattern) ∧
  (∀ (w : Word) (k k' : Mnemonic), w &&& k.mask = k.pattern → w &&& k'.mask = k'.pattern → k = k') ∧
  (∀ w : Word, 0x0B#8 ≤ fieldOP w → decode w = .error (.reservedOpcode (fieldOP w))) ∧
  (∀ (w : Word) (k : Mnemonic), fieldOP w = fieldOP k.pattern → w &&& k.mask ≠ k.pattern → decode w = .error (.unusedBitSet (fieldOP w))) ∧
  ∀ (s : State) (w : Word) (rest : List HostOp), s.eng = .idle → (∀ i, decode w ≠ .ok i) → s.pending = .write 0x010#24 4 w :: rest →
    step s = .next { s with pending := rest, err := true, ecause := .illegalCmd }

/-- R113, R117: words written out bit by bit from the spec's patterns decode to the commands they stand for. -/
def Obligations.SpecWordsDecode : Prop :=
  decode 0b00000000000000000000000000000000#32 = .ok .nop ∧
  decode 0b00000000000000000000001100000001#32 = .ok (.quant 3) ∧
  decode 0b00000000000000111111111100000010#32 = .ok (.recon 1023) ∧
  decode 0b00000000000011000000010100000011#32 = .ok (.coefbits 5 3) ∧
  decode 0b00000000000000000000001100000100#32 = .ok (.p2l 3) ∧
  decode 0b00000000010000000000001000000101#32 = .ok (.resid 2 true) ∧
  decode 0b00000000010000000000010100000110#32 = .ok (.ricebits 5 true) ∧
  decode 0b00000000011000000000001000000111#32 = .ok (.ricesrch 2 true true) ∧
  decode 0b00000000000000000000000000001000#32 = .ok (.bgmcbits 0 false) ∧
  decode 0b00000000001000000000000100001001#32 = .ok (.bgmcsrch 1 false true) ∧
  decode 0b00000000000111000000001000001010#32 = .ok (.ordsel 2 3 true false false false false) ∧
  decode 0b00000001100000000000110000001010#32 = .ok (.ordsel 12 0 false false false true true)

/-! ## The step (spec/45_control.md, spec/20_memory.md, spec/70_reset_and_hazards.md) -/

/-- R281: when the engine's latched word decodes to `i` and its completion is the next step, the step is exec of `i` at that state; and so it is from the state
`withFetchWord` gives. (The model's choices: that the completion is the next step when `due` is 0 or no host transaction is pending, logs 1 and 4; and what
`withFetchWord` latches, log 5.) -/
def Obligations.StepRunsLatchedCommand : Prop :=
  (∀ (s : State) (w : Word) (snap : ParamRegs) (i : Instr), s.eng = .run w snap → decode w = .ok i → (s.due = 0 ∨ s.pending = []) →
    step s = exec i s) ∧
  ∀ (s : State) (w : Word) (i : Instr), decode w = .ok i → step (s.withFetchWord 32 w.toNat) = exec i (s.withFetchWord 32 w.toNat)

/-- R91 with the model's own schedule (log 1): a step that is the host's performs its next transaction, on the state from which that transaction is taken off. -/
def Obligations.StepPerformsHostTransaction : Prop :=
  ∀ (s : State) (op : HostOp) (rest : List HostOp), HostNext s op rest →
    (∀ t, hostTransact op (s.afterPop rest) = .ok t → step s = .next t) ∧
    (∀ f, hostTransact op (s.afterPop rest) = .error f → step s = .fault f)

/-- R319: all state survives idleness, and nothing but a `CMD` write wakes the engine. -/
def Obligations.OnlyCmdWriteWakesIdleEngine : Prop :=
  (∀ s : State, s.eng = .idle → s.pending = [] → step s = .next s) ∧
  ∀ s t : State, s.eng = .idle → step s = .next t → t.eng ≠ .idle → ∃ w rest, s.pending = .write 0x010#24 4 w :: rest

/-- R350 (the count of host transactions is the model's own measure of the latency, log 1): a running legal command completes within `due + 1` steps, or is abandoned by
a reset, or stops on a fault. -/
def Obligations.RunningCommandEndsWithinLatency : Prop :=
  ∀ (s : State) (w : Word) (snap : ParamRegs) (i : Instr), s.eng = .run w snap → decode w = .ok i →
    ∃ k, k ≤ s.due + 1 ∧
      ((∃ t : State, runSteps k s = .next t ∧ t.eng = .idle) ∨ ∃ f : Fault, runSteps k s = .fault f)

/-- R50, R340, R341: the reset state meets the invariant. -/
def Obligations.ResetMeetsInvariant : Prop := Inv State.reset

/-- R48, R83, R280, R304, R341: every step keeps the invariant: canonical memory, bytes in array windows only, whole words, an error has a cause, and the
engine runs only a legal, checked command whose parameter registers are those of its acceptance. -/
def Obligations.StepKeepsInvariant : Prop := ∀ s t : State, Inv s → step s = .next t → Inv t

/-- R281, R343: from a state that meets the invariant a step never refuses, and it faults only on reading a word that nothing has written. -/
def Obligations.OnlyUnwrittenReadsStop : Prop :=
  ∀ s : State, Inv s → (∀ r, step s ≠ .refused r) ∧ ∀ f, step s = .fault f → ∃ a, f = .unwrittenRead a ∧ s.mem.readWord a = none

/-- R281, R305: no command's completion raises an error, changes CTRL, CMD or the parameter registers CONFIG, LEN and BITS_MISC, or touches PARCOR, EERR or SMP; it
sets DONE and leaves the engine idle. -/
def Obligations.CompletionRaisesNoError : Prop :=
  ∀ (i : Instr) (s t : State), i.WellFormed → s.blockLen ≤ 65536 → exec i s = .next t →
    t.err = s.err ∧ t.ecause = s.ecause ∧ t.ieDone = s.ieDone ∧ t.ieErr = s.ieErr ∧ t.cmd = s.cmd ∧ t.done = true ∧ t.eng = .idle ∧
    t.par.rescode = s.par.rescode ∧ t.par.sbpart = s.par.sbpart ∧ t.par.bps = s.par.bps ∧ t.par.len = s.par.len ∧
    t.par.bitsMisc = s.par.bitsMisc ∧
    ∀ (w : Window) (j : Nat), (w = .parcor ∨ w = .eerr ∨ w = .smp) → t.mem.readElem w j = s.mem.readElem w j

/-! ## NOP and the quantizer (spec/45_control.md R285, spec/40_quantizer.md) -/

/-- R285, R281: NOP completes from every state and changes nothing but the completion bookkeeping. -/
def Obligations.NopOnlyCompletes : Prop := ∀ s : State, exec .nop s = .next { s with eng := .idle, due := 0, done := true }

/-- R142: QUANT completes when its operands are written, and leaves quant(i, P) in QCOF[i] and rec(i, q) in RCOF[i] for every i < n. -/
def Obligations.QuantResult : Prop :=
  ∀ (n : Nat) (s : State) (ps : List Int), n < 1024 → s.mem.readRange .parcor 0 n = .ok ps →
    ∃ t, exec (.quant n) s = .next t ∧ t.done = true ∧ t.eng = .idle ∧
      t.mem.readRange .qcof 0 n = .ok (ps.mapIdx quant) ∧ t.mem.readRange .rcof 0 n = .ok ((ps.mapIdx quant).mapIdx recon)

/-- R146: RECON completes when its operands are written, and leaves rec(i, QCOF[i]) in RCOF[i] for every i < n. -/
def Obligations.ReconResult : Prop :=
  ∀ (n : Nat) (s : State) (qs : List Int), n < 1024 → s.mem.readRange .qcof 0 n = .ok qs →
    ∃ t, exec (.recon n) s = .next t ∧ t.done = true ∧ t.eng = .idle ∧ t.mem.readRange .rcof 0 n = .ok (qs.mapIdx recon)

/-- R149: COEFBITS completes when its operands are written, with COEFBITS and TOTBITS the sum of the coded lengths, 7·n under table 3; the sum never exceeds
383·n, so neither register truncates it (R149, R150). -/
def Obligations.CoefbitsResult : Prop :=
  ∀ (n ct : Nat) (s : State) (qs : List Int), n < 1024 → ct < 4 → s.mem.readRange .qcof 0 n = .ok qs →
    exec (.coefbits n ct) s = .next { s with
      coefBits := BitVec.ofNat 32 (coefTotal Config.params ct qs), totBits := BitVec.ofNat 64 (coefTotal Config.params ct qs),
      eng := .idle, due := 0, done := true } ∧
    coefTotal Config.params ct qs ≤ 383 * n ∧ (ct = 3 → coefTotal Config.params ct qs = 7 * n)

/-- The frame of QUANT, RECON and COEFBITS (R142, R146, R149, R49): QUANT changes only the completion bookkeeping and the bytes of QCOF[0..n−1] and RCOF[0..n−1],
RECON of RCOF[0..n−1], and COEFBITS only COEFBITS and TOTBITS and no byte. -/
def Obligations.QuantizerFrame : Prop :=
  (∀ (n : Nat) (s t : State), exec (.quant n) s = .next t →
    t = { s with mem := t.mem, eng := .idle, due := 0, done := true } ∧
    ∀ a, ¬ StoredAt .qcof 0 n a → ¬ StoredAt .rcof 0 n a → t.mem.readByte a = s.mem.readByte a) ∧
  (∀ (n : Nat) (s t : State), exec (.recon n) s = .next t →
    t = { s with mem := t.mem, eng := .idle, due := 0, done := true } ∧
    ∀ a, ¬ StoredAt .rcof 0 n a → t.mem.readByte a = s.mem.readByte a) ∧
  ∀ (n ct : Nat) (s t : State), exec (.coefbits n ct) s = .next t →
    t = { s with coefBits := t.coefBits, totBits := t.totBits, eng := .idle, due := 0, done := true }

/-- R141: quant(i, P) lies in [−64, 63]; for i = 0 and 1, where X ≥ 0, an unsaturated q is the integer square root of asr(X, 17) less 64, and X < 0
gives −64; for i ≥ 2 an unsaturated q is ⌊P / 2^24⌋. -/
def Obligations.QuantFunction : Prop :=
  (∀ (i : Nat) (P : Int), -64 ≤ quant i P ∧ quant i P ≤ 63) ∧
  (∀ (i : Nat) (P X : Int), (i = 0 ∧ X = P + 2 ^ 30) ∨ (i = 1 ∧ X = 2 ^ 30 - P) →
    (X < 0 → quant i P = -64) ∧
    (0 ≤ X → quant i P < 63 → (quant i P + 64) ^ 2 * 2 ^ 17 ≤ X ∧ X < (quant i P + 65) ^ 2 * 2 ^ 17) ∧
    (0 ≤ X → quant i P = 63 → 127 ^ 2 * 2 ^ 17 ≤ X)) ∧
  ∀ (i : Nat) (P : Int), 2 ≤ i →
    (-64 < quant i P → quant i P < 63 → quant i P * 2 ^ 24 ≤ P ∧ P < (quant i P + 1) * 2 ^ 24) ∧
    (quant i P = -64 → P < -63 * 2 ^ 24) ∧ (quant i P = 63 → 63 * 2 ^ 24 ≤ P)

/-- R144, R145: the range of the reconstructed values, all of which RCOF holds without truncation; and every readable element of QCOF is a legal index. -/
def Obligations.ReconstructedValuesFit : Prop :=
  (∀ (m : Memory) (j : Nat) (v : Word), m.readElem .qcof j = .ok v → -64 ≤ v.toInt ∧ v.toInt ≤ 63) ∧
  ∀ q : Int, -64 ≤ q → q ≤ 63 →
    (-1048544 ≤ gamma q ∧ gamma q ≤ 1032224) ∧ (-1032224 ≤ -gamma q ∧ -gamma q ≤ 1048544) ∧
    (-1040384 ≤ q * 16384 + 8192 ∧ q * 16384 + 8192 ≤ 1040384) ∧
    ∀ (i j : Nat) (m : Memory), j < 1024 →
      ∃ v, (m.writeElem .rcof j (BitVec.ofInt 32 (recon i q))).readElem .rcof j = .ok v ∧ v.toInt = recon i q

/-- R146: RECON after QUANT with the same n leaves RCOF unchanged. -/
def Obligations.ReconAfterQuantKeepsRcof : Prop :=
  ∀ (n : Nat) (s t : State), n < 1024 → exec (.quant n) s = .next t →
    ∃ u, exec (.recon n) t = .next u ∧ ∀ j, u.mem.readElem .rcof j = t.mem.readElem .rcof j

/-! ## The lattice and the residuals (spec/42_lattice_residual.md) -/

/-- R190: each entry of a lattice step. -/
def Obligations.LatticeStepEntries : Prop :=
  ∀ (c : List Int) (a : Int),
    (latticeStep c a).length = c.length + 1 ∧
    (∀ m, m < c.length → (latticeStep c a).getD m 0 = c.getD m 0 + (a * c.getD (c.length - 1 - m) 0 + 2 ^ 19) / 2 ^ 20) ∧
    (latticeStep c a).getD c.length 0 = a

/-- R192: orders 0, 1 and 2 never overflow, over 21-bit coefficients. -/
def Obligations.LowOrdersNeverOverflow : Prop :=
  ∀ rc : List Int, rc.length ≤ 2 → (∀ a ∈ rc, -(2 ^ 20) ≤ a ∧ a < 2 ^ 20) → latticeOverflows rc = false

/-- R193: P_FB is −0.9·2^30 rounded to the nearest integer, and the quantized and reconstructed values that follow from it. -/
def Obligations.FallbackConstants : Prop :=
  pFb = -966367642 ∧ 2 * (10 * pFb + 9 * 2 ^ 30).natAbs ≤ 10 ∧ qFb = quant 0 pFb ∧ qFb = -36 ∧ rFb = recon 0 qFb ∧ rFb = gamma (-36) ∧ rFb = -944608

/-- R195, no overflow: P2L completes when its operands are written, with c^(r) in LPC[0..r−1] and OPT_ORDER = r; FBK is as it was. -/
def Obligations.P2lResult : Prop :=
  ∀ (r : Nat) (s : State) (rc : List Int), r < 1024 → s.mem.readRange .rcof 0 r = .ok rc → latticeOverflows rc = false →
    ∃ t, exec (.p2l r) s = .next t ∧ t.done = true ∧ t.eng = .idle ∧ t.mem.readRange .lpc 0 r = .ok (lattice rc) ∧
      t.optOrder.toNat = r ∧ t.fbk = s.fbk

/-- R194, R195, overflow: P2L completes with the fallback: QCOF[0] = −36, RCOF[0] = LPC[0] = −944608, OPT_ORDER = 1, FBK = 1, every other element as before, ERR and
ECAUSE untouched. -/
def Obligations.P2lFallback : Prop :=
  ∀ (r : Nat) (s : State) (rc : List Int), s.mem.readRange .rcof 0 r = .ok rc → latticeOverflows rc = true →
    ∃ t, exec (.p2l r) s = .next t ∧ t.done = true ∧ t.eng = .idle ∧
      t.mem.readElem .qcof 0 = .ok (BitVec.ofInt 32 (-36)) ∧ t.mem.readElem .rcof 0 = .ok (BitVec.ofInt 32 (-944608)) ∧
      t.mem.readElem .lpc 0 = .ok (BitVec.ofInt 32 (-944608)) ∧ t.optOrder = 1#10 ∧ t.fbk = true ∧ t.err = s.err ∧ t.ecause = s.ecause ∧
      ∀ (w : Window) (j : Nat), j < w.words → ¬ (j = 0 ∧ (w = .qcof ∨ w = .rcof ∨ w = .lpc)) → t.mem.readElem w j = s.mem.readElem w j

/-- R194, R197, R198, R200, R201: RESID completes when its coefficients and samples are written. RES[k] is the wrapped residual of order r_eff, or min(k, r_eff) in an RA block; ROVF is
set exactly when some residual is outside 32 bits; LPC[0..r_eff−1] = c^(r_eff), OPT_ORDER = r_eff, and FBK is set exactly by the fallback, which also stores QCOF[0] = −36 and RCOF[0] = LPC[0] = −944608
(r_eff = 1); ERR and ECAUSE are untouched. -/
def Obligations.ResidResult : Prop :=
  ∀ (r : Nat) (ra : Bool) (s : State) (rc xs : List Int), r < 1024 → s.blockLen ≤ 65536 → s.mem.readRange .rcof 0 r = .ok rc →
    s.mem.readRange .smp (1024 - historyLen ra (effectiveRc rc).length) (historyLen ra (effectiveRc rc).length + s.blockLen) = .ok xs →
    ∃ t, exec (.resid r ra) s = .next t ∧ t.done = true ∧ t.eng = .idle ∧
      (∀ k : Nat, k < s.blockLen → t.mem.readElem .res k = .ok (BitVec.ofInt 32
        (residual (predictorOf ra (effectiveRc rc) k) (sampleAt xs (historyLen ra (effectiveRc rc).length)) k))) ∧
      (t.rovf = true ↔ s.rovf = true ∨ ∃ k : Nat, k < s.blockLen ∧
        fits32 (residual (predictorOf ra (effectiveRc rc) k) (sampleAt xs (historyLen ra (effectiveRc rc).length)) k) = false) ∧
      t.mem.readRange .lpc 0 (effectiveRc rc).length = .ok (lattice (effectiveRc rc)) ∧
      t.optOrder.toNat = (effectiveRc rc).length ∧ (t.fbk = true ↔ s.fbk = true ∨ latticeOverflows rc = true) ∧ t.err = s.err ∧ t.ecause = s.ecause ∧
      (latticeOverflows rc = true → t.mem.readElem .qcof 0 = .ok (BitVec.ofInt 32 (-36)) ∧ t.mem.readElem .rcof 0 = .ok (BitVec.ofInt 32 (-944608)) ∧
        t.mem.readElem .lpc 0 = .ok (BitVec.ofInt 32 (-944608)) ∧ t.optOrder = 1#10)

/-- The frame of P2L and RESID (R195, R201, R49), r_eff = 1 on fallback and r otherwise: the registers but OPT_ORDER, FBK and (RESID) ROVF, and every byte outside LPC[0..r_eff−1],
on fallback QCOF[0] and RCOF[0], and (RESID) RES[0..LEN−1], are unchanged. -/
def Obligations.LatticeFrame : Prop :=
  (∀ (r : Nat) (s t : State) (rc : List Int), s.mem.readRange .rcof 0 r = .ok rc → exec (.p2l r) s = .next t →
    t = { s with mem := t.mem, optOrder := t.optOrder, fbk := t.fbk, eng := .idle, due := 0, done := true } ∧
    ∀ a, ¬ StoredAt .lpc 0 (effectiveRc rc).length a →
      (latticeOverflows rc = true → ¬ StoredAt .qcof 0 1 a ∧ ¬ StoredAt .rcof 0 1 a) → t.mem.readByte a = s.mem.readByte a) ∧
  ∀ (r : Nat) (ra : Bool) (s t : State) (rc : List Int), s.mem.readRange .rcof 0 r = .ok rc → exec (.resid r ra) s = .next t →
    t = { s with mem := t.mem, optOrder := t.optOrder, fbk := t.fbk, rovf := t.rovf, eng := .idle, due := 0, done := true } ∧
    ∀ a, ¬ StoredAt .lpc 0 (effectiveRc rc).length a → ¬ StoredAt .res 0 s.blockLen a →
      (latticeOverflows rc = true → ¬ StoredAt .qcof 0 1 a ∧ ¬ StoredAt .rcof 0 1 a) → t.mem.readByte a = s.mem.readByte a

/-- R198: an RA block never reads its history: two states that agree but for SMP[−1024..−1] give the same residuals, and one completes when the other does. -/
def Obligations.RaBlockIgnoresHistory : Prop :=
  ∀ (r : Nat) (s s' t : State), r < 1024 → s.blockLen ≤ 65536 → s' = { s with mem := s'.mem } →
    (∀ (w : Window) (j : Nat), (w = .smp → 1024 ≤ j) → s'.mem.readElem w j = s.mem.readElem w j) →
    exec (.resid r true) s = .next t →
    ∃ t', exec (.resid r true) s' = .next t' ∧ t'.mem.readRange .res 0 s.blockLen = t.mem.readRange .res 0 s.blockLen ∧ t'.rovf = t.rovf

/-- R202, the block-level round trip: after a RESID that did not set ROVF, the decoder, from RES, the coefficients in effect and (in a non-RA block) the history, gives
back the samples x(0..LEN−1). -/
def Obligations.DecoderReproducesSamples : Prop :=
  ∀ (r : Nat) (ra : Bool) (s t : State) (rc xs es ys : List Int) (hist : Int → Int), r < 1024 → s.blockLen ≤ 65536 →
    s.mem.readRange .rcof 0 r = .ok rc →
    s.mem.readRange .smp (1024 - historyLen ra (effectiveRc rc).length) (historyLen ra (effectiveRc rc).length + s.blockLen) = .ok xs →
    (∀ i : Int, -(historyLen ra (effectiveRc rc).length : Int) ≤ i → i < 0 → hist i = sampleAt xs (historyLen ra (effectiveRc rc).length) i) →
    exec (.resid r ra) s = .next t → t.rovf = false → t.mem.readRange .res 0 s.blockLen = .ok es →
    s.mem.readRange .smp 1024 s.blockLen = .ok ys → decodeResiduals ra (effectiveRc rc) hist [] es = ys

/-! ## Rice and BGMC (spec/43_rice.md, spec/44_bgmc.md) -/

/-- R225, R258: RICEBITS and BGMCBITS complete when the residuals are written, with RESBITS, PARBITS and TOTBITS the counts of the parameters in SPAR. (Counts past a
register's width, which only BGMC parameter values of Config could give, are cut modulo the width: the model's choice, log 20.) -/
def Obligations.BitCountResults : Prop :=
  ∀ (r : Nat) (ra : Bool) (s : State) (es : List Int), s.mem.readRange .res 0 s.blockLen = .ok es →
    exec (.ricebits r ra) s = .next { s with
      resBits := BitVec.ofNat 64 (riceResBits ⟨s.par, r, ra, es⟩ s.par.subblocks.toNat (s.par.sparList s.par.subblocks.toNat)),
      parBits := BitVec.ofNat 32 (riceParBits s.par (s.par.sparList s.par.subblocks.toNat)),
      totBits := BitVec.ofNat 64 (riceResBits ⟨s.par, r, ra, es⟩ s.par.subblocks.toNat (s.par.sparList s.par.subblocks.toNat)
        + riceParBits s.par (s.par.sparList s.par.subblocks.toNat)),
      eng := .idle, due := 0, done := true } ∧
    exec (.bgmcbits r ra) s = .next { s with
      resBits := BitVec.ofNat 64
        (bgmcResBits Config.params ⟨s.par, r, ra, es⟩ s.par.subblocks.toNat (s.par.sparList s.par.subblocks.toNat)),
      parBits := BitVec.ofNat 32 (bgmcParBits s.par (s.par.sparList s.par.subblocks.toNat)),
      totBits := BitVec.ofNat 64
        (bgmcResBits Config.params ⟨s.par, r, ra, es⟩ s.par.subblocks.toNat (s.par.sparList s.par.subblocks.toNat)
          + bgmcParBits s.par (s.par.sparList s.par.subblocks.toNat)),
      eng := .idle, due := 0, done := true }

/-- R230, R231, R265, R266: RICESRCH and BGMCSRCH complete when the residuals are written, with the chosen candidate in SUBBLOCKS, SPAR (0 past the last sub-block),
RESBITS, PARBITS and TOTBITS; SUBBLOCKS is 1 or 4, and 1, 2, 4 or 8. (BGMC counts past a register's width are cut modulo the width: the model's choice, log 20.) -/
def Obligations.SearchResults : Prop :=
  ∀ (r : Nat) (ra xe : Bool) (s : State) (es : List Int), s.mem.readRange .res 0 s.blockLen = .ok es →
    (∃ t, exec (.ricesrch r ra xe) s = .next t ∧ t.done = true ∧ t.eng = .idle ∧
      (t.par.subblocks = 1#4 ∨ t.par.subblocks = 4#4) ∧ t.par.subblocks.toNat = (riceBest ⟨s.par, r, ra, es⟩ xe).blocks ∧
      (∀ b : Fin 8, t.par.spar[b].toNat = (riceBest ⟨s.par, r, ra, es⟩ xe).params.getD b 0) ∧
      (∀ b : Fin 8, t.par.subblocks.toNat ≤ b → t.par.spar[b] = 0#8) ∧
      t.resBits = BitVec.ofNat 64 (riceBest ⟨s.par, r, ra, es⟩ xe).resBits ∧
      t.parBits = BitVec.ofNat 32 (riceBest ⟨s.par, r, ra, es⟩ xe).parBits ∧
      t.totBits = BitVec.ofNat 64 ((riceBest ⟨s.par, r, ra, es⟩ xe).resBits + (riceBest ⟨s.par, r, ra, es⟩ xe).parBits)) ∧
    ∃ t, exec (.bgmcsrch r ra xe) s = .next t ∧ t.done = true ∧ t.eng = .idle ∧
      (t.par.subblocks = 1#4 ∨ t.par.subblocks = 2#4 ∨ t.par.subblocks = 4#4 ∨ t.par.subblocks = 8#4) ∧
      t.par.subblocks.toNat = (bgmcBest Config.params ⟨s.par, r, ra, es⟩ xe).blocks ∧
      (∀ b : Fin 8, t.par.spar[b].toNat = (bgmcBest Config.params ⟨s.par, r, ra, es⟩ xe).params.getD b 0) ∧
      (∀ b : Fin 8, t.par.subblocks.toNat ≤ b → t.par.spar[b] = 0#8) ∧
      t.resBits = BitVec.ofNat 64 (bgmcBest Config.params ⟨s.par, r, ra, es⟩ xe).resBits ∧
      t.parBits = BitVec.ofNat 32 (bgmcBest Config.params ⟨s.par, r, ra, es⟩ xe).parBits ∧
      t.totBits = BitVec.ofNat 64
        ((bgmcBest Config.params ⟨s.par, r, ra, es⟩ xe).resBits + (bgmcBest Config.params ⟨s.par, r, ra, es⟩ xe).parBits)

/-- The frame of the four entropy commands (R225, R231, R258, R266, R49): no byte of any array changes, and no register but RESBITS, PARBITS, TOTBITS and, for
the searches, SUBBLOCKS and SPAR0..7. -/
def Obligations.EntropyFrame : Prop :=
  (∀ (r : Nat) (ra : Bool) (s t : State), exec (.ricebits r ra) s = .next t ∨ exec (.bgmcbits r ra) s = .next t →
    t = { s with resBits := t.resBits, parBits := t.parBits, totBits := t.totBits, eng := .idle, due := 0, done := true }) ∧
  ∀ (r : Nat) (ra xe : Bool) (s t : State), exec (.ricesrch r ra xe) s = .next t ∨ exec (.bgmcsrch r ra xe) s = .next t →
    t = { s with
      par := { s.par with subblocks := t.par.subblocks, spar := t.par.spar },
      resBits := t.resBits, parBits := t.parBits, totBits := t.totBits, eng := .idle, due := 0, done := true }

/-- R227, R232: the exact Rice search from k0 = kmax div 3. It stays at k0 when neither neighbour is cheaper; it goes down when k0 − 1 is cheaper than k0 and no dearer than k0 + 1 (a
tie of the directions goes down), and up when k0 + 1 is cheaper than k0 and than k0 − 1. The cost falls strictly at every step of the walk, and the walk ends only where the next step does not
lower it, or at the end of 0..kmax: no minimum beyond a step that does not improve is found. -/
def Obligations.RiceSearchIsLocal : Prop :=
  ∀ (C : Nat → Nat) (kmax : Nat), kmax = 15 ∨ kmax = 31 →
    riceSearch C kmax ≤ kmax ∧ C (riceSearch C kmax) ≤ C (kmax / 3) ∧
    (0 < riceSearch C kmax → riceSearch C kmax ≤ kmax / 3 → C (riceSearch C kmax) ≤ C (riceSearch C kmax - 1)) ∧
    (kmax / 3 ≤ riceSearch C kmax → riceSearch C kmax < kmax → C (riceSearch C kmax) ≤ C (riceSearch C kmax + 1)) ∧
    (∀ k, riceSearch C kmax ≤ k → k < kmax / 3 → C k < C (k + 1)) ∧
    (∀ k, kmax / 3 ≤ k → k < riceSearch C kmax → C (k + 1) < C k) ∧
    (C (kmax / 3 - 1) < C (kmax / 3) → C (kmax / 3 - 1) ≤ C (kmax / 3 + 1) → riceSearch C kmax < kmax / 3) ∧
    (C (kmax / 3 + 1) < C (kmax / 3) → C (kmax / 3 + 1) < C (kmax / 3 - 1) → kmax / 3 < riceSearch C kmax) ∧
    (C (kmax / 3) ≤ C (kmax / 3 - 1) → C (kmax / 3) ≤ C (kmax / 3 + 1) → riceSearch C kmax = kmax / 3)

/-- R228, R229: RICESRCH's choice is the evaluation of one of the candidates of R228 (B = 1, and B = 4 when SBPART = 1, LEN mod 4 = 0 and LEN ≥ 16), it costs no more than any of them, and a tie goes to B = 1.
Candidate B has B parameters and costs T_B = R_B + parbits_rice(B, s). Under XE each parameter is the exact search's over 0..kmax on its sub-block's cost and R_B is the exact count; without XE the parameters and
R_B = Σ est_b are those of the estimate of R226 on each sub-block. -/
def Obligations.RiceChoiceMinimal : Prop :=
  ∀ (blk : Block) (xe : Bool),
    (RiceCandidate blk (riceBest blk xe).blocks ∧ riceBest blk xe = riceChoice blk xe (riceBest blk xe).blocks ∧
      ∀ B, RiceCandidate blk B →
        (riceBest blk xe).total ≤ (riceChoice blk xe B).total ∧
        (B < (riceBest blk xe).blocks → (riceBest blk xe).total < (riceChoice blk xe B).total)) ∧
    ∀ B, (riceChoice blk xe B).blocks = B ∧ (riceChoice blk xe B).params.length = B ∧
      (riceChoice blk xe B).total = (riceChoice blk xe B).resBits + riceParBits blk.par (riceChoice blk xe B).params ∧
      (xe = true → (riceChoice blk true B).resBits = riceResBits blk B (riceChoice blk true B).params ∧
        ∀ b, b < B → (riceChoice blk true B).params.getD b 0 = riceSearch (riceCost blk B b) blk.par.kmax) ∧
      (xe = false →
        (riceChoice blk false B).resBits = ((List.range B).map (fun b => (riceEstimate blk.par.kmax (blk.sub B b)).2)).sum ∧
        ∀ b, b < B → (riceChoice blk false B).params.getD b 0 = (riceEstimate blk.par.kmax (blk.sub B b)).1)

/-- R250, R251, R252, R258: the BGMC geometry of a parameter byte p = 16·s + sx. bb = clip(asr(ceil_log2(LEN) − 3, 1), 0, 5): it reaches m in 1..5 exactly when LEN > 2^(2m+2). k = max(s − bb, 0), the shift of
BGMC_MAX[sx] is 5 − s + k = 5 − min(s, bb), and half = max >> 1. With LEN ≤ 8, bb = 0 and k = s. Where max ≤ 1 every residual is escaped, and max ≤ 1 wherever BGMC_MAX[sx] < 2^(6 − min(s, bb)). -/
def Obligations.BgmcGeometry : Prop :=
  ∀ (P : Params) (len p : Nat), p ≤ 255 →
    (∀ m, m ≤ bgmcBb len ↔ m = 0 ∨ (m ≤ 5 ∧ 2 ^ (2 * m + 2) < len)) ∧
    bgmcK len p = p / 16 - bgmcBb len ∧ bgmcShift len p = 5 - min (p / 16) (bgmcBb len) ∧
    bgmcMaxOf P len p = (P.bgmcMax (p % 16)).toNat / 2 ^ (5 - min (p / 16) (bgmcBb len)) ∧ bgmcHalf P len p = bgmcMaxOf P len p / 2 ∧
    (len ≤ 8 → bgmcBb len = 0 ∧ bgmcK len p = p / 16) ∧
    (bgmcMaxOf P len p ≤ 1 → ∀ e, bgmcSym P len p e = .esc) ∧
    ((P.bgmcMax (p % 16)).toNat < 2 ^ (6 - min (p / 16) (bgmcBb len)) → bgmcMaxOf P len p ≤ 1)

/-- R252: with msb(e) = ⌊e / 2^k⌋, a residual whose msb lies in [−half, half) contributes the symbol msb(e), and every other one the escape; and the split loses nothing:
e = msb·2^k + lsb with 0 ≤ lsb < 2^k. -/
def Obligations.BgmcSplitExact : Prop :=
  ∀ (P : Params) (len p : Nat) (e : Int),
    (-(bgmcHalf P len p : Int) ≤ e / 2 ^ bgmcK len p → e / 2 ^ bgmcK len p < bgmcHalf P len p → bgmcSym P len p e = .msb (e / 2 ^ bgmcK len p)) ∧
    (¬ (-(bgmcHalf P len p : Int) ≤ e / 2 ^ bgmcK len p ∧ e / 2 ^ bgmcK len p < bgmcHalf P len p) → bgmcSym P len p e = .esc) ∧
    ∀ m : Int, bgmcSym P len p e = .msb m →
      -(bgmcHalf P len p : Int) ≤ m ∧ m < bgmcHalf P len p ∧ m * 2 ^ bgmcK len p ≤ e ∧ e < (m + 1) * 2 ^ bgmcK len p

/-- R263, R267: the exact BGMC search from a seed p0 in 0..255 returns a byte r that costs no more than the seed. When neither probe at ±5 (outside 0..255: INF) is cheaper, r is the
cheapest of the bytes within 4 of the seed, the seed on a tie with it and else the lowest. Otherwise it goes down when p0 − 5 is cheaper than the seed and no dearer than p0 + 5 (a tie of the
directions goes down), and up otherwise: r is cheaper than every byte from the seed up to it, none of the next five bytes after it (those inside 0..255) is cheaper, and on the way there
every five bytes in a row have one that is cheaper than all before it. So a minimum beyond five bytes in a row that do not improve is not found. -/
def Obligations.BgmcSearchNoWorseThanSeed : Prop :=
  ∀ (C : Nat → Nat) (p0 r : Nat), p0 ≤ 255 → r = bgmcSearch C p0 →
    r ≤ 255 ∧ C r ≤ C p0 ∧
    ((p0 < 5 ∨ C p0 ≤ C (p0 - 5)) → (250 < p0 ∨ C p0 ≤ C (p0 + 5)) →
      r ≤ p0 + 4 ∧ p0 ≤ r + 4 ∧ (C r = C p0 → r = p0) ∧
      ∀ p, p ≤ 255 → p0 ≤ p + 4 → p ≤ p0 + 4 → C r ≤ C p ∧ (p < r → r ≠ p0 → C r < C p)) ∧
    (5 ≤ p0 → C (p0 - 5) < C p0 → (250 < p0 ∨ C (p0 - 5) ≤ C (p0 + 5)) →
      r < p0 ∧ (∀ p, r < p → p ≤ p0 → C r < C p) ∧ (∀ p, p < r → r ≤ p + 5 → C r ≤ C p) ∧
      ∀ x, r ≤ x → x + 5 ≤ p0 → ∃ q, x ≤ q ∧ q < x + 5 ∧ ∀ p, q < p → p ≤ p0 → C q < C p) ∧
    (p0 ≤ 250 → C (p0 + 5) < C p0 → (p0 < 5 ∨ C (p0 + 5) < C (p0 - 5)) →
      p0 < r ∧ (∀ p, p0 ≤ p → p < r → C r < C p) ∧ (∀ p, r < p → p ≤ r + 5 → p ≤ 255 → C r ≤ C p) ∧
      ∀ x, x ≤ r → p0 + 5 ≤ x → ∃ q, x < q + 5 ∧ q ≤ x ∧ ∀ p, p0 ≤ p → p < q → C q < C p)

/-- R261, R262, R264, R265: BGMCSRCH's choice is the evaluation of one of the candidates B of R261, it costs no more than any of them, and less than every one with fewer sub-blocks: a tie goes to the smaller B.
`c B` is candidate B evaluated: sub-block 0 of B = 1 is seeded with the block's estimate, and sub-block 0 of B > 1 with the result for sub-block 0 of candidate B/2; under XE every later sub-block is searched
from the result of the one before it, and without XE every byte is the sub-block's estimate. -/
def Obligations.CheapestCandidateWins : Prop :=
  ∀ (P : Params) (blk : Block) (xe : Bool) (c : Nat → Choice),
    c 1 = bgmcChoice P blk xe 1 (bgmcEstimate P blk.res) →
    (∀ B ∈ [2, 4, 8], c B = bgmcChoice P blk xe B ((c (B / 2)).params.getD 0 0)) →
    BgmcCandidate blk (bgmcBest P blk xe).blocks ∧
    bgmcBest P blk xe = c (bgmcBest P blk xe).blocks ∧
    (∀ B, BgmcCandidate blk B →
      (bgmcBest P blk xe).total ≤ (c B).total ∧ (B < (bgmcBest P blk xe).blocks → (bgmcBest P blk xe).total < (c B).total)) ∧
    ∀ B seed b, 0 < B → b < B →
      (xe = true → (bgmcChoice P blk true B seed).params.getD b 0 =
        bgmcSearch (bgmcCost P blk B b) (if b = 0 then seed else (bgmcChoice P blk true B seed).params.getD (b - 1) 0)) ∧
      (xe = false → (bgmcChoice P blk false B seed).params.getD b 0 = bgmcEstimate P (blk.sub B b))

/-! ## Order selection (spec/41_order_select.md) -/

/-- R175, R176: ORDSEL completes when its coefficients, samples and (XO = 0) error terms are written: OPT_ORDER is an evaluated order, and TOTBITS its finite cost. (The
model's choices: which words are read, log 10; the totals are added as exact naturals, log 11, and the cost is cut to 64 bits only where it is stored, log 20.) -/
def Obligations.OrdselCompletes : Prop :=
  ∀ (n ct : Nat) (xo xe ra vd bg : Bool) (s : State), n < 1024 → s.blockLen ≤ 65536 → s.mem.Written .qcof 0 n → s.mem.Written .rcof 0 n →
    (xo = false → s.mem.Written .eerr 0 (2 * (n + 1))) → s.mem.Written .smp (1024 - historyLen ra n) (historyLen ra n + s.blockLen) →
    ∃ t b, exec (.ordsel n ct xo xe ra vd bg) s = .next t ∧ t.done = true ∧ t.eng = .idle ∧ t.optOrder.toNat ≤ n ∧
      orderCost Config.params s n ⟨ct, xo, xe, ra, vd, bg⟩ t.optOrder.toNat = .ok (some b) ∧ t.totBits = BitVec.ofNat 64 b

/-- R176, full enumeration: with VD = 0 and every order's cost computed, the chosen order has the smallest cost, and every lower order costs strictly more. -/
def Obligations.FullEnumerationPicksLowestMinimum : Prop :=
  ∀ (n ct : Nat) (xo xe ra bg : Bool) (s t : State) (c : Nat → Cost), n < 1024 →
    (∀ k, k ≤ n → orderCost Config.params s n ⟨ct, xo, xe, ra, false, bg⟩ k = .ok (c k)) → exec (.ordsel n ct xo xe ra false bg) s = .next t →
    t.optOrder.toNat ≤ n ∧ (∀ k, k ≤ n → Cost.lt (c k) (c t.optOrder.toNat) = false) ∧
    ∀ k, k < t.optOrder.toNat → Cost.lt (c t.optOrder.toNat) (c k) = true

/-- R176, R177: ORDSEL with VD = 1, T = max(2, P div 6), and the loop it runs. If the command completes, then there is a last evaluated order L: the costs of orders 0..L are computed, OPT_ORDER is the lowest order of
smallest cost among them, L is P or lies T + 1 orders after OPT_ORDER (T + 1 misses in a row), and the search did not have to stop before L: of any T + 1 consecutive orders before L one is a new
best. In the loop, a cost below the best so far becomes the best and resets the count of misses; and once the misses in a row, the costs not below the best so far, exceed T, the search stops
with that best, whatever the later orders cost, even if they cannot be read. -/
def Obligations.ValleyStopsAfterThresholdMisses : Prop :=
  (∀ (n ct : Nat) (xo xe ra bg : Bool) (s t : State), n < 1024 → exec (.ordsel n ct xo xe ra true bg) s = .next t →
    ∃ (L : Nat) (c : Nat → Cost), L ≤ n ∧ (∀ k, k ≤ L → orderCost Config.params s n ⟨ct, xo, xe, ra, true, bg⟩ k = .ok (c k)) ∧
      t.optOrder.toNat ≤ L ∧ (∀ k, k ≤ L → Cost.lt (c k) (c t.optOrder.toNat) = false) ∧
      (∀ k, k < t.optOrder.toNat → Cost.lt (c t.optOrder.toNat) (c k) = true) ∧
      (L = n ∨ L = t.optOrder.toNat + max 2 (n / 6) + 1) ∧
      ∀ m, max 2 (n / 6) ≤ m → m < L → ∃ i, m ≤ i + max 2 (n / 6) ∧ i ≤ m ∧ ∀ j, j < i → Cost.lt (c i) (c j) = true) ∧
  ∀ (cost : Nat → Except Fault Cost) (T k count : Nat) (a : OrderScan) (c : Nat → Cost),
    (cost k = .ok (c 0) → Cost.lt (c 0) a.best = true → orderScan cost true T a k (count + 1) = orderScan cost true T ⟨c 0, k, 0⟩ (k + 1) count) ∧
    (a.miss ≤ T → T + 1 - a.miss ≤ count →
      (∀ i, i < T + 1 - a.miss → cost (k + i) = .ok (c i) ∧ Cost.lt (c i) a.best = false) →
      orderScan cost true T a k count = .ok { a with miss := T + 1 })

/-- The frame of ORDSEL (R176, R49): beside OPT_ORDER and TOTBITS it changes only what the rule leaves unspecified: RES[0..LEN−1], LPC[0..max(P−1, 0)], SUBBLOCKS, SPAR0..7,
RESBITS and PARBITS (and the model's own count of free values drawn). COEFBITS, FBK and ROVF keep their values. (That the scratch words count as written afterwards, each
with a free value, is the model's choice, log 7.) -/
def Obligations.OrdselFrame : Prop :=
  ∀ (n ct : Nat) (xo xe ra vd bg : Bool) (s t : State), exec (.ordsel n ct xo xe ra vd bg) s = .next t →
    t = { s with
      mem := t.mem, par := { s.par with subblocks := t.par.subblocks, spar := t.par.spar }, optOrder := t.optOrder, resBits := t.resBits,
      parBits := t.parBits, totBits := t.totBits, draws := s.draws + 1, eng := .idle, due := 0, done := true } ∧
    (∀ a, ¬ StoredAt .res 0 s.blockLen a → ¬ StoredAt .lpc 0 (max (n - 1) 0 + 1) a → t.mem.readByte a = s.mem.readByte a) ∧
    t.mem.Written .res 0 s.blockLen ∧ t.mem.Written .lpc 0 (max (n - 1) 0 + 1)

/-- R51, R343, R349: a command that reads an unwritten operand word has no continuation: it faults on the first one it reads; so does a host read, while idle. Of ORDSEL it says so for every order k that the
loop reaches: the low half of EERR[k], then its high half (XO = 0); on the estimate path QCOF[0..k−1]; on the exact path RCOF[0..k−1], then, when the lattice does not overflow, the
history and the samples, then QCOF[0..k−1]. (Which words a command reads, and in which order, is the model's reading, log 10; which address the fault names is its choice, log 21.) -/
def Obligations.UnwrittenReadsFault : Prop :=
  ∀ s : State,
    (∀ (i j : Nat) (w : Window), i < 1024 → j ≤ i → s.mem.Written w 0 j → s.mem.readWord (w.addr j) = none →
      (w = .parcor → exec (.quant (i + 1)) s = .fault (.unwrittenRead (w.addr j))) ∧
      (w = .qcof → exec (.recon (i + 1)) s = .fault (.unwrittenRead (w.addr j)) ∧
        ∀ ct, exec (.coefbits (i + 1) ct) s = .fault (.unwrittenRead (w.addr j))) ∧
      (w = .rcof → exec (.p2l (i + 1)) s = .fault (.unwrittenRead (w.addr j)) ∧
        ∀ ra, exec (.resid (i + 1) ra) s = .fault (.unwrittenRead (w.addr j)))) ∧
    (∀ (j r : Nat) (ra xe : Bool), j < s.blockLen → s.blockLen ≤ 65536 → s.mem.Written .res 0 j → s.mem.readWord (Window.res.addr j) = none →
      exec (.ricebits r ra) s = .fault (.unwrittenRead (Window.res.addr j)) ∧ exec (.ricesrch r ra xe) s = .fault (.unwrittenRead (Window.res.addr j)) ∧
      exec (.bgmcbits r ra) s = .fault (.unwrittenRead (Window.res.addr j)) ∧ exec (.bgmcsrch r ra xe) s = .fault (.unwrittenRead (Window.res.addr j))) ∧
    (∀ (j r : Nat) (ra : Bool) (rc : List Int), r < 1024 → s.blockLen ≤ 65536 → s.mem.readRange .rcof 0 r = .ok rc →
      j < historyLen ra (effectiveRc rc).length + s.blockLen → s.mem.Written .smp (1024 - historyLen ra (effectiveRc rc).length) j →
      s.mem.readWord (Window.smp.addr (1024 - historyLen ra (effectiveRc rc).length + j)) = none →
      exec (.resid r ra) s = .fault (.unwrittenRead (Window.smp.addr (1024 - historyLen ra (effectiveRc rc).length + j)))) ∧
    (∀ (j n ct : Nat) (xe ra vd bg : Bool),
      (s.mem.readWord (Window.eerr.addr 0) = none → exec (.ordsel n ct false xe ra vd bg) s = .fault (.unwrittenRead (Window.eerr.addr 0))) ∧
      (j < s.blockLen → s.blockLen ≤ 65536 → s.mem.Written .smp 1024 j → s.mem.readWord (Window.smp.addr (1024 + j)) = none →
        exec (.ordsel n ct true xe ra vd bg) s = .fault (.unwrittenRead (Window.smp.addr (1024 + j))))) ∧
    (∀ (n k j ct : Nat) (xo xe ra vd bg : Bool), n < 1024 → k ≤ n → s.blockLen ≤ 65536 → orderReached s n ⟨ct, xo, xe, ra, vd, bg⟩ k = true →
      (xo = false → s.mem.readWord (Window.eerr.addr (2 * k)) = none →
        exec (.ordsel n ct xo xe ra vd bg) s = .fault (.unwrittenRead (Window.eerr.addr (2 * k)))) ∧
      (xo = false → (s.mem.readWord (Window.eerr.addr (2 * k))).isSome = true → s.mem.readWord (Window.eerr.addr (2 * k + 1)) = none →
        exec (.ordsel n ct xo xe ra vd bg) s = .fault (.unwrittenRead (Window.eerr.addr (2 * k + 1)))) ∧
      (∀ E, xo = false → s.mem.readEerr k = .ok E → atLeastOne E = true → j < k → s.mem.Written .qcof 0 j →
        s.mem.readWord (Window.qcof.addr j) = none → exec (.ordsel n ct xo xe ra vd bg) s = .fault (.unwrittenRead (Window.qcof.addr j))) ∧
      (xo = true ∨ (∃ E, s.mem.readEerr k = .ok E ∧ atLeastOne E = false) →
        (j < k → s.mem.Written .rcof 0 j → s.mem.readWord (Window.rcof.addr j) = none →
          exec (.ordsel n ct xo xe ra vd bg) s = .fault (.unwrittenRead (Window.rcof.addr j))) ∧
        ∀ rc, s.mem.readRange .rcof 0 k = .ok rc → latticeOverflows rc = false →
          (j < historyLen ra k + s.blockLen → s.mem.Written .smp (1024 - historyLen ra k) j →
            s.mem.readWord (Window.smp.addr (1024 - historyLen ra k + j)) = none →
            exec (.ordsel n ct xo xe ra vd bg) s = .fault (.unwrittenRead (Window.smp.addr (1024 - historyLen ra k + j)))) ∧
          (j < k → s.mem.Written .smp (1024 - historyLen ra k) (historyLen ra k + s.blockLen) → s.mem.Written .qcof 0 j →
            s.mem.readWord (Window.qcof.addr j) = none →
            exec (.ordsel n ct xo xe ra vd bg) s = .fault (.unwrittenRead (Window.qcof.addr j))))) ∧
    ∀ (w : Window) (j : Nat) (rest : List HostOp), s.eng = .idle → j < w.words → s.mem.readWord (w.addr j) = none →
      s.pending = .read (BitVec.ofNat 24 (w.addr j)) 4 :: rest → step s = .fault (.unwrittenRead (w.addr j))

/-! ## Acceptance, errors and the interrupt (spec/45_control.md, spec/60_exceptions.md) -/

/-- R280, R301, R306: a write of a word to `CMD`, in this order: CMD_BUSY while a command runs, ILLEGAL_CMD, the value check that fails, each with no other effect than the error
report; else CMD records the word, FBK and ROVF are cleared and the engine runs it with the snapshot of the parameter registers. DONE, ERR, ECAUSE, the parameter and
result registers and the arrays are unchanged. (How long it runs, `due`, is the model's free value, log 1.) -/
def Obligations.CommandAcceptance : Prop :=
  ∀ (s : State) (w : Word) (rest : List HostOp), HostNext s (.write 0x010#24 4 w) rest →
    (s.busy = true → step s = .next { s.afterPop rest with err := true, ecause := .cmdBusy }) ∧
    (s.busy = false → (∀ i, decode w ≠ .ok i) → step s = .next { s.afterPop rest with err := true, ecause := .illegalCmd }) ∧
    ∀ i : Instr, s.busy = false → decode w = .ok i →
      (∀ c, valueCheck s.par i = some c → step s = .next { s.afterPop rest with err := true, ecause := c }) ∧
      (valueCheck s.par i = none → ∃ t, step s = .next t ∧ t.busy = true ∧
        t = { s with
          cmd := w, fbk := false, rovf := false, eng := .run w s.par, pending := rest, due := t.due, draws := t.draws })

/-- R302: which commands are checked for what, and in which order: LEN, then BPS, then SUBBLOCKS, then SPAR; the first failing check gives the cause, with which a legal word is
rejected while idle. -/
def Obligations.ValueChecksInOrder : Prop :=
  ∀ (p : ParamRegs) (n ct : Nat) (ra xe xo vd bg : Bool),
    (∀ (s : State) (w : Word) (i : Instr) (c : Cause), s.busy = false → decode w = .ok i → valueCheck s.par i = some c →
      acceptCommand w s = { s with err := true, ecause := c }) ∧
    (∀ i : Instr, i = .nop ∨ i = .quant n ∨ i = .recon n ∨ i = .coefbits n ct ∨ i = .p2l n → valueCheck p i = none) ∧
    (valueCheck p (.resid n ra) = if 1 ≤ p.len.toNat ∧ p.len.toNat ≤ 65536 then none else some .badLen) ∧
    (∀ i : Instr, i = .ricebits n ra ∨ i = .ricesrch n ra xe ∨ i = .bgmcbits n ra ∨ i = .bgmcsrch n ra xe ∨ i = .ordsel n ct xo xe ra vd bg →
      (¬ (1 ≤ p.len.toNat ∧ p.len.toNat ≤ 65536) → valueCheck p i = some .badLen) ∧
      (1 ≤ p.len.toNat → p.len.toNat ≤ 65536 → ¬ (4 ≤ p.bps.toNat ∧ p.bps.toNat ≤ 32) → valueCheck p i = some .badConfig)) ∧
    (1 ≤ p.len.toNat → p.len.toNat ≤ 65536 → 4 ≤ p.bps.toNat → p.bps.toNat ≤ 32 →
      valueCheck p (.ricesrch n ra xe) = none ∧ valueCheck p (.bgmcsrch n ra xe) = none ∧ valueCheck p (.ordsel n ct xo xe ra vd bg) = none ∧
      (valueCheck p (.bgmcbits n ra) =
        if p.subblocks.toNat = 1 ∨ (p.subblocks.toNat ∈ [2, 4, 8] ∧ p.sbpart = true ∧ p.len.toNat % p.subblocks.toNat = 0)
        then none else some .badSubblocks) ∧
      (valueCheck p (.ricebits n ra) =
        if p.subblocks.toNat = 1 ∨ (p.subblocks.toNat = 4 ∧ p.sbpart = true ∧ p.len.toNat % 4 = 0) then
          if ∀ b : Fin 8, b < p.subblocks.toNat → p.spar[b].toNat ≤ p.kmax then none else some .badParam
        else some .badSubblocks))

/-- R32–R42, R310, R282: what the host reads of the registers, idle or while a command runs. STATUS: BUSY, DONE, ERR, FBK, ROVF, the interrupt level (DONE AND IE_DONE) OR (ERR AND IE_ERR), ECAUSE, and zeros
elsewhere. Every other register at its offset, each field at its place and zeros elsewhere; the 64-bit counts as their low word at the lower offset and their high word at the next. The read changes nothing
else. -/
def Obligations.StatusRead : Prop :=
  (∀ (s : State) (rest : List HostOp), HostNext s (.read 0x00C#24 4) rest →
    ∃ w : Word, step s = .next { s.afterPop rest with rdata := w } ∧
      w.getLsbD 0 = s.busy ∧ w.getLsbD 1 = s.done ∧ w.getLsbD 2 = s.err ∧ w.getLsbD 3 = s.fbk ∧ w.getLsbD 4 = s.rovf ∧
      w.getLsbD 5 = ((s.done && s.ieDone) || (s.err && s.ieErr)) ∧ w.extractLsb' 6 2 = 0#2 ∧ w.extractLsb' 8 4 = s.ecause.code ∧
      w.extractLsb' 12 20 = 0#20) ∧
  ∀ (s : State) (rest : List HostOp) (a : BitVec 24) (v : Nat),
    (a, v) ∈ [(0x000#24, 0x51534C41), (0x004#24, 0x00010000), (0x008#24, s.ieDone.toNat + 2 * s.ieErr.toNat), (0x010#24, s.cmd.toNat),
      (0x014#24, s.par.rescode.toNat + 4 * s.par.sbpart.toNat + 8 * s.par.bps.toNat), (0x018#24, s.par.len.toNat),
      (0x01C#24, s.par.bitsMisc.toNat), (0x020#24, s.par.subblocks.toNat), (0x024#24, s.optOrder.toNat), (0x028#24, s.coefBits.toNat),
      (0x02C#24, s.parBits.toNat), (0x030#24, s.resBits.toNat % 2 ^ 32), (0x034#24, s.resBits.toNat / 2 ^ 32),
      (0x038#24, s.totBits.toNat % 2 ^ 32), (0x03C#24, s.totBits.toNat / 2 ^ 32)] ∨
      (∃ b : Fin 8, a = BitVec.ofNat 24 (0x040 + 4 * b) ∧ v = s.par.spar[b].toNat) →
    HostNext s (.read a 4) rest → step s = .next { s.afterPop rest with rdata := BitVec.ofNat 32 v }

/-- R34, R35, R312: a write to STATUS clears DONE where bit 1 is 1 and ERR where bit 2 is 1, and changes no other bit of any register (ECAUSE keeps its value); a write to CTRL with
bit 31 clear sets the two interrupt enables and nothing else. -/
def Obligations.StatusAndCtrlWrites : Prop :=
  ∀ (s : State) (v : Word) (rest : List HostOp),
    (HostNext s (.write 0x00C#24 4 v) rest → step s = .next { s.afterPop rest with
      done := if v.getLsbD 1 then false else s.done, err := if v.getLsbD 2 then false else s.err }) ∧
    (HostNext s (.write 0x008#24 4 v) rest → v.getLsbD 31 = false →
      step s = .next { s.afterPop rest with ieDone := v.getLsbD 0, ieErr := v.getLsbD 1 })

/-- R35, R304, R307: a step that changes ECAUSE is a host transaction, and is either a reset, which clears it and ERR, or no reset but a bus read or write that reports an error: ERR becomes 1, ECAUSE the
cause, which is never `NONE`, and nothing else changes (a failed read returns a value). So ECAUSE is cleared only by a reset: acknowledging ERR in STATUS keeps it. -/
def Obligations.EcauseChangesOnlyByReportOrReset : Prop :=
  ∀ s t : State, step s = .next t → t.ecause ≠ s.ecause → ∃ op rest, HostNext s op rest ∧
    ((isReset op = true ∧ t.err = false ∧ t.ecause = .noCause) ∨
      (isReset op = false ∧ (∃ a z, op = .read a z ∨ ∃ v, op = .write a z v) ∧ t.ecause ≠ .noCause ∧
        t = { s.afterPop rest with err := true, ecause := t.ecause, rdata := t.rdata }))

/-! ## Host accesses (spec/20_memory.md, spec/45_control.md) -/

/-- R84, R86, R303, R304: an access of another size than four bytes, misaligned, or outside the CSR page and the windows of R83 reports BUS_ERROR and does nothing else (it is
never split); a read returns 0. -/
def Obligations.BusErrorIsPrecise : Prop :=
  ∀ (s : State) (a : BitVec 24) (z : Nat) (v : Word) (rest : List HostOp), z ≠ 4 ∨ a.toNat % 4 ≠ 0 ∨ ¬ Mapped a.toNat →
    (HostNext s (.read a z) rest → step s = .next { s.afterPop rest with err := true, ecause := .busError, rdata := 0#32 }) ∧
    (HostNext s (.write a z v) rest → step s = .next { s.afterPop rest with err := true, ecause := .busError })

/-- R88, R347: while a command runs, an access to an array window (a ROM window too) and a write to an RW-idle register report ACC_BUSY and do nothing else; a read returns 0. A read
of a register gives its value, as when idle. -/
def Obligations.BusyAccessRejected : Prop :=
  ∀ (s : State) (a : BitVec 24) (v : Word) (rest : List HostOp), s.busy = true → a.toNat % 4 = 0 → Mapped a.toNat →
    (0x100 ≤ a.toNat → HostNext s (.read a 4) rest →
      step s = .next { s.afterPop rest with err := true, ecause := .accBusy, rdata := 0#32 }) ∧
    (0x100 ≤ a.toNat ∨ a.toNat ∈ [0x014, 0x018, 0x01C, 0x020, 0x040, 0x044, 0x048, 0x04C, 0x050, 0x054, 0x058, 0x05C] →
      HostNext s (.write a 4 v) rest → step s = .next { s.afterPop rest with err := true, ecause := .accBusy }) ∧
    (a.toNat < 0x100 → HostNext s (.read a 4) rest → step s = .next { s.afterPop rest with rdata := readRegister a.toNat s })

/-- R46, R83, R283, R343: while idle, a host write stores a word of an array window, and a host read returns it cut to the element width and sign-extended; every other byte is unchanged. -/
def Obligations.ArrayWriteThenRead : Prop :=
  ∀ (s : State) (w : Window) (j : Nat) (v : Word) (rest : List HostOp), s.eng = .idle → j < w.words →
    s.pending = .write (BitVec.ofNat 24 (w.addr j)) 4 v :: .read (BitVec.ofNat 24 (w.addr j)) 4 :: rest →
    ∃ t, step s = .next t ∧ t = { s with mem := t.mem, pending := .read (BitVec.ofNat 24 (w.addr j)) 4 :: rest } ∧
      (∀ a, ¬ StoredAt w j 1 a → t.mem.readByte a = s.mem.readByte a) ∧
      step t = .next { t with rdata := (v.setWidth w.width).signExtend 32, pending := rest }

/-- R43, R83, R87, R88, R283: a write to a read-only register or a reserved CSR offset changes nothing and reports no error, idle or while a command runs; so does a write to a ROM window while idle. Reserved CSR
offsets read 0. While idle, reading a ROM word gives {0, param, offset} of PRT and {0, value} of BGMC_MAX, and is never a fault (R343). -/
def Obligations.ReadOnlyWritesIgnored : Prop :=
  (∀ (s : State) (a : BitVec 24) (v : Word) (rest : List HostOp), a.toNat % 4 = 0 →
    a.toNat ∈ [0x000, 0x004, 0x024, 0x028, 0x02C, 0x030, 0x034, 0x038, 0x03C] ∨ (0x060 ≤ a.toNat ∧ a.toNat < 0x100) →
    HostNext s (.write a 4 v) rest → step s = .next (s.afterPop rest)) ∧
  (∀ (s : State) (a : BitVec 24) (v : Word) (rest : List HostOp), s.eng = .idle → a.toNat % 4 = 0 →
    (0x017000 ≤ a.toNat ∧ a.toNat < 0x0170F0) ∨ (0x017100 ≤ a.toNat ∧ a.toNat < 0x017140) →
    s.pending = .write a 4 v :: rest → step s = .next { s with pending := rest }) ∧
  (∀ (s : State) (a : BitVec 24) (rest : List HostOp), a.toNat % 4 = 0 → 0x060 ≤ a.toNat → a.toNat < 0x100 →
    HostNext s (.read a 4) rest → step s = .next { s.afterPop rest with rdata := 0#32 }) ∧
  ∀ (s : State) (rest : List HostOp), s.eng = .idle →
    (∀ ct i : Nat, ct < 3 → i < 20 → s.pending = .read (BitVec.ofNat 24 (0x017000 + 4 * (20 * ct + i))) 4 :: rest →
      step s = .next { s with pending := rest, rdata := 0#16 ++ Config.params.prtParam ct i ++ Config.params.prtOffset ct i }) ∧
    ∀ sx : Nat, sx < 16 → s.pending = .read (BitVec.ofNat 24 (0x017100 + 4 * sx)) 4 :: rest →
      step s = .next { s with pending := rest, rdata := 0#16 ++ Config.params.bgmcMax sx }

/-- R37–R41, R283: while idle, a write to CONFIG, LEN, BITS_MISC, SUBBLOCKS or SPARb stores exactly the register's defined bits, and reading the register back gives them with the reserved
bits 0; every other parameter register, and everything else, is as before. -/
def Obligations.ParameterWriteThenRead : Prop :=
  ∀ (s : State) (a : BitVec 24) (v mask : Word) (rest : List HostOp), s.eng = .idle → s.pending = .write a 4 v :: .read a 4 :: rest →
    (a.toNat, mask) ∈ [(0x014, 0x1FF#32), (0x018, 0x1FFFF#32), (0x01C, 0xFFFFFFFF#32), (0x020, 0xF#32)] ∨
      (mask = 0xFF#32 ∧ a.toNat ∈ [0x040, 0x044, 0x048, 0x04C, 0x050, 0x054, 0x058, 0x05C]) →
    ∃ t, step s = .next t ∧ t = { s with par := t.par, pending := .read a 4 :: rest } ∧
      (a.toNat ≠ 0x014 → t.par.rescode = s.par.rescode ∧ t.par.sbpart = s.par.sbpart ∧ t.par.bps = s.par.bps) ∧
      (a.toNat ≠ 0x018 → t.par.len = s.par.len) ∧ (a.toNat ≠ 0x01C → t.par.bitsMisc = s.par.bitsMisc) ∧
      (a.toNat ≠ 0x020 → t.par.subblocks = s.par.subblocks) ∧
      (∀ b : Fin 8, a.toNat ≠ 0x040 + 4 * b → t.par.spar[b] = s.par.spar[b]) ∧
      step t = .next { t with rdata := v &&& mask, pending := rest }

/-- R88, R91: while a command runs, a host transaction that is no reset (a power-on reset, or a word written to CTRL with bit 31 set) changes no input of the command and no result register, and
leaves it running. -/
def Obligations.RunningCommandInputsFrozen : Prop :=
  ∀ (s t : State) (w : Word) (snap : ParamRegs) (op : HostOp) (rest : List HostOp), s.eng = .run w snap → HostNext s op rest → step s = .next t →
    isReset op = true ∨
    (t.eng = s.eng ∧ t.par = s.par ∧ t.mem = s.mem ∧ t.cmd = s.cmd ∧ t.optOrder = s.optOrder ∧ t.coefBits = s.coefBits ∧ t.parBits = s.parBits ∧
      t.resBits = s.resBits ∧ t.totBits = s.totBits ∧ t.fbk = s.fbk ∧ t.rovf = s.rovf)

/-- R42, R44: no host transaction but a reset (a power-on reset, or a word written to CTRL with bit 31 set) writes a result register or sets FBK or ROVF (an accepted command clears the two flags). A reset gives
every register its reset value. -/
def Obligations.HostNeverWritesResults : Prop :=
  ∀ (s t : State) (op : HostOp) (rest : List HostOp), HostNext s op rest → step s = .next t →
    (isReset op = true ∧ t = { State.reset with mem := t.mem, draws := t.draws, rdata := t.rdata, pending := t.pending }) ∨
    (isReset op = false ∧ t.optOrder = s.optOrder ∧ t.coefBits = s.coefBits ∧ t.parBits = s.parBits ∧ t.resBits = s.resBits ∧
      t.totBits = s.totBits ∧ (t.fbk = true → s.fbk = true) ∧ (t.rovf = true → s.rovf = true))

/-- R341: a written array word stays written over every step but a power-on reset: no command, host transaction or soft reset makes a word unwritten. -/
def Obligations.WrittenWordsStayWritten : Prop :=
  ∀ (s t : State) (w : Window) (j : Nat), step s = .next t → (s.mem.readWord (w.addr j)).isSome = true →
    (∃ rest, HostNext s .powerOn rest) ∨ (t.mem.readWord (w.addr j)).isSome = true

/-! ## Reset (spec/10_state.md R50, spec/70_reset_and_hazards.md) -/

/-- R50 (and R32, R33): what every register of the CSR page reads as after a reset, and every array word is unwritten after a power-on reset (R341). -/
def Obligations.ResetRegisterValues : Prop :=
  (∀ a : Nat, a % 4 = 0 → a < 0x100 → readRegister a State.reset =
    if a = 0x000 then 0x51534C41#32 else if a = 0x004 then 0x00010000#32 else if a = 0x014 then 0x00000081#32 else if a = 0x020 then 1#32 else 0#32) ∧
  State.reset.eng = .idle ∧ State.reset.irq = false ∧ ∀ (w : Window) (j : Nat), State.reset.mem.readWord (w.addr j) = none

/-- R284, R50, R342: a `CTRL` write with bit 31 set is taken at any time: every register takes its reset value and the engine is idle; when a command ran, only the elements of its
write set change, and all of them are written; when none ran, no array byte changes. -/
def Obligations.SoftResetEffects : Prop :=
  ∀ (s : State) (v : Word) (rest : List HostOp), HostNext s (.write 0x008#24 4 v) rest → v.getLsbD 31 = true →
    ∃ t, step s = .next t ∧
      t = { State.reset with mem := t.mem, draws := t.draws, rdata := s.rdata, pending := rest } ∧
      (s.eng = .idle → t.mem = s.mem) ∧
      ∀ (w : Word) (snap : ParamRegs) (i : Instr), s.eng = .run w snap → decode w = .ok i →
        (∀ a, (∀ q ∈ abandonedSet snap.len.toNat i, ¬ StoredAt q.1 q.2.1 q.2.2 a) → t.mem.readByte a = s.mem.readByte a) ∧
        ∀ q ∈ abandonedSet snap.len.toNat i, t.mem.Written q.1 q.2.1 q.2.2

/-- R340, R341, R344: a power-on reset gives the reset state whatever came before (the host's own program and data, and the model's count of free values, are not ALSQ's). -/
def Obligations.PowerOnResetForgetsAll : Prop :=
  ∀ (s : State) (rest : List HostOp), HostNext s .powerOn rest →
    step s = .next { State.reset with draws := s.draws, rdata := s.rdata, pending := rest }

/-- R118: `wait` reads STATUS, and is repeated while the value read has BUSY set. -/
def Obligations.WaitPollsStatus : Prop :=
  ∀ (s : State) (rest : List HostOp), HostNext s .wait rest →
    step s = .next { s.afterPop rest with rdata := statusWord s, pending := if s.busy then .wait :: rest else rest }
end

