-- ==== Sys2Proof/Laws/Arith.lean ====
section
/-! SUPPORT. The arithmetic primitives meet their definitions in spec/00_scope.md R9–R11 and R13. -/
namespace Sys2Proof.Machine

/-! ## Shifts, clips and widths -/

theorem asr_le_iff (v m : Int) (n : Nat) : m ≤ asr v n ↔ m * 2 ^ n ≤ v := by
  unfold asr
  rw [Int.le_ediv_iff_mul_le (by positivity)]
  push_cast
  rfl

theorem asr_lt_iff (v m : Int) (n : Nat) : asr v n < m ↔ v < m * 2 ^ n := by
  have := asr_le_iff v m n
  omega

theorem clip_mem {v lo hi : Int} (h : lo ≤ hi) : lo ≤ clip v lo hi ∧ clip v lo hi ≤ hi := by
  unfold clip
  split
  · omega
  · split <;> omega

theorem fits32_iff (v : Int) : fits32 v = true ↔ -2147483648 ≤ v ∧ v ≤ 2147483647 := by
  simp [fits32]

/-- A value that fits 32 bits is its own 32-bit word. -/
theorem toInt_ofInt32 {v : Int} (h : fits32 v = true) : (BitVec.ofInt 32 v).toInt = v := by
  rw [fits32_iff] at h
  rw [BitVec.toInt_ofInt]
  exact Int.bmod_eq_of_le (by norm_num; omega) (by norm_num; omega)

/-- Wrapping to 32 bits does not change the 32-bit word. -/
@[simp] theorem ofInt_wrap32 (v : Int) : BitVec.ofInt 32 (wrap32 v) = BitVec.ofInt 32 v := by
  rw [wrap32, sext, BitVec.ofInt_toInt]

theorem wrap32_of_fits {v : Int} (h : fits32 v = true) : wrap32 v = v := toInt_ofInt32 h

/-! ## Logarithms and the square root -/

theorem floorLog2_spec {v : Nat} (h : 1 ≤ v) : 2 ^ floorLog2 v ≤ v ∧ v < 2 ^ (floorLog2 v + 1) :=
  ⟨Nat.log2_self_le (Nat.one_le_iff_ne_zero.mp h), Nat.lt_log2_self⟩

theorem ceilLog2_spec (v : Nat) : v ≤ 2 ^ ceilLog2 v ∧ ∀ m, v ≤ 2 ^ m → ceilLog2 v ≤ m := by
  unfold ceilLog2
  split
  · exact ⟨by simpa using by omega, fun m _ => by omega⟩
  · obtain ⟨h1, h2⟩ := floorLog2_spec (v := v - 1) (by omega)
    simp only [floorLog2] at h1 h2
    refine ⟨by omega, fun m hm => ?_⟩
    by_contra hlt
    have : 2 ^ m ≤ 2 ^ (v - 1).log2 := Nat.pow_le_pow_right (by omega) (by omega)
    omega

theorem isqrtDigits_spec {fuel v : Nat} (h : v < 4 ^ fuel) :
    isqrtDigits fuel v * isqrtDigits fuel v ≤ v ∧ v < (isqrtDigits fuel v + 1) * (isqrtDigits fuel v + 1) := by
  induction fuel generalizing v with
  | zero => simp at h; subst h; simp [isqrtDigits]
  | succ fuel ih =>
    unfold isqrtDigits
    split
    · subst v; simp
    · obtain ⟨h1, h2⟩ := ih (v := v / 4) (by omega)
      generalize isqrtDigits fuel (v / 4) = r at *
      dsimp only
      split
      · refine ⟨by assumption, ?_⟩
        have : v / 4 + 1 ≤ (r + 1) * (r + 1) := h2
        nlinarith [Nat.div_add_mod v 4, Nat.mod_lt v (show 0 < 4 by omega)]
      · refine ⟨?_, by omega⟩
        have : r * r * 4 ≤ v := by omega
        nlinarith

/-- `isqrt(v)` is the largest m with m² ≤ v (R10). -/
theorem isqrt_spec (v : Nat) : isqrt v * isqrt v ≤ v ∧ v < (isqrt v + 1) * (isqrt v + 1) := by
  apply isqrtDigits_spec
  rcases Nat.eq_zero_or_pos v with rfl | hv
  · simp
  · calc v < 2 ^ (v.log2 + 1) := Nat.lt_log2_self
      _ ≤ 4 ^ (v.log2 + 1) := Nat.pow_le_pow_left (by omega) _

/-! ## Code lengths and costs -/

theorem zz_le {v : Int} {b : Nat} (h : v.natAbs ≤ b) : zz v ≤ 2 * b := by
  unfold zz
  split <;> omega

theorem lenSr_le (v : Int) (k : Nat) : lenSr v k ≤ zz v + k + 1 := by
  unfold lenSr
  have := Nat.div_le_self (zz v) (2 ^ k)
  omega

@[simp] theorem Cost.lt_some (a b : Nat) : Cost.lt (some a) (some b) = decide (a < b) := rfl
@[simp] theorem Cost.lt_some_none (a : Nat) : Cost.lt (some a) none = true := rfl
@[simp] theorem Cost.lt_none (b : Cost) : Cost.lt none b = false := rfl

theorem Cost.lt_irrefl (a : Cost) : Cost.lt a a = false := by cases a <;> simp

theorem Cost.lt_trans {a b c : Cost} (h : Cost.lt a b = true) (h' : Cost.lt b c = true) : Cost.lt a c = true := by
  cases a <;> cases b <;> cases c <;> (simp at *; try omega)

/-- Costs are totally ordered: what is not below is above or equal. -/
theorem Cost.not_lt_trans {a b c : Cost} (h : Cost.lt b a = false) (h' : Cost.lt c b = false) : Cost.lt c a = false := by
  cases a <;> cases b <;> cases c <;> (simp at *; try omega)

theorem Cost.lt_of_lt_of_not_lt {a b c : Cost} (h : Cost.lt a b = true) (h' : Cost.lt c b = false) : Cost.lt a c = true := by
  cases a <;> cases b <;> cases c <;> (simp at *; try omega)

end Sys2Proof.Machine
end

