-- ==== Sys2Proof/Laws/Encoding.lean ====
section
/-! SUPPORT. The match and mask table: a matching row decides the decoder's answer; what the encoder lays out, field by field (spec/30_encoding.md R111–R114). -/
namespace Sys2Proof

theorem Mnemonic.matchesWord_iff (k : Mnemonic) (w : Word) : k.matchesWord w = true ↔ w &&& k.mask = k.pattern := by
  simp [Mnemonic.matchesWord]

/-- A matching word has the row's opcode in `OP`. -/
theorem Mnemonic.fieldOP_of_match {k : Mnemonic} {w : Word} (h : w &&& k.mask = k.pattern) : fieldOP w = fieldOP k.pattern := by
  have hm : k.mask &&& 0xFF#32 = 0xFF#32 := by cases k <;> decide
  have h2 : w &&& 0xFF#32 = k.pattern &&& 0xFF#32 := by rw [← h, BitVec.and_assoc, hm]
  have h3 : ∀ x : Word, fieldOP x = fieldOP (x &&& 0xFF#32) := by
    intro x
    unfold fieldOP
    ext i hi
    simp only [BitVec.getElem_extractLsb', BitVec.getLsbD_and]
    have : (0xFF#32).getLsbD (0 + i) = true := by interval_cases i <;> decide
    rw [this, Bool.and_true]
  rw [h3 w, h2, ← h3]

theorem Mnemonic.fieldOP_pattern_inj {k k' : Mnemonic} (h : fieldOP k.pattern = fieldOP k'.pattern) : k = k' := by
  revert h; cases k <;> cases k' <;> decide

theorem Mnemonic.mem_opcodeTable (k : Mnemonic) : k ∈ opcodeTable := by cases k <;> decide

/-- A word that matches a row decodes to that row's command with the row's fields. -/
theorem decode_of_match {k : Mnemonic} {w : Word} (h : w &&& k.mask = k.pattern) : decode w = .ok (k.instr w) := by
  have hf : opcodeTable.find? (fun k => k.matchesWord w) = some k := by
    cases hfind : opcodeTable.find? (fun k => k.matchesWord w) with
    | none =>
      have := List.find?_eq_none.mp hfind k k.mem_opcodeTable
      simp [Mnemonic.matchesWord, h] at this
    | some k' =>
      have hk' := (Mnemonic.matchesWord_iff k' w).mp (List.find?_some (p := fun k : Mnemonic => k.matchesWord w) hfind)
      rw [Mnemonic.fieldOP_pattern_inj ((Mnemonic.fieldOP_of_match hk').symm.trans (Mnemonic.fieldOP_of_match h))]
  simp only [decode, hf]

/-- A word that decodes matches a row, and is read by that row. -/
theorem match_of_decode {w : Word} {i : Instr} (h : decode w = .ok i) : ∃ k : Mnemonic, w &&& k.mask = k.pattern ∧ i = k.instr w := by
  unfold decode at h
  split at h
  · rename_i k hf
    cases h
    exact ⟨k, (Mnemonic.matchesWord_iff k w).mp (List.find?_some (p := fun k : Mnemonic => k.matchesWord w) hf), rfl⟩
  · cases h

/-- A word that matches no row is illegal. -/
theorem decode_of_no_match {w : Word} (h : ∀ k : Mnemonic, w &&& k.mask ≠ k.pattern) :
    decode w = .error (if 0x0B#8 ≤ fieldOP w then .reservedOpcode (fieldOP w) else .unusedBitSet (fieldOP w)) := by
  have hf : opcodeTable.find? (fun k => k.matchesWord w) = none := by
    rw [List.find?_eq_none]
    intro k _
    simpa [Mnemonic.matchesWord] using h k
  simp only [decode, hf]

theorem fieldN_lt (w : Word) : fieldN w < 1024 := (w.extractLsb' 8 10).isLt

theorem fieldCT_lt (w : Word) : fieldCT w < 4 := (w.extractLsb' 18 2).isLt

/-- Every decoded command is well formed. -/
theorem wellFormed_of_decode {w : Word} {i : Instr} (h : decode w = .ok i) : i.WellFormed := by
  obtain ⟨k, -, rfl⟩ := match_of_decode h
  cases k <;> simp [Mnemonic.instr, Instr.WellFormed, Instr.wellFormed, fieldN_lt, fieldCT_lt]

end Sys2Proof
end

