-- ==== Sys2Proof/Laws/Memory.lean ====
section
/-! SUPPORT. What the memory operations do: read after write for bytes, words, elements and ranges; the canonical form, the windows and whole words are kept. -/
namespace Sys2Proof.Machine

open Sys2Proof

/-! ## Bytes -/

@[simp] theorem Memory.readByte_nil (a : Nat) : Memory.readByte [] a = none := rfl

theorem Memory.readByte_cons (b : Nat) (v : Byte) (m : Memory) (a : Nat) :
    Memory.readByte ((b, v) :: m) a = if a = b then some v else m.readByte a := rfl

/-- Read after write, one byte: the address written reads the value, every other address reads as before. -/
theorem Memory.readByte_writeByte (m : Memory) (a : Nat) (v : Byte) (x : Nat) :
    (m.writeByte a v).readByte x = if x = a then some v else m.readByte x := by
  induction m with
  | nil => simp [Memory.writeByte, Memory.readByte]
  | cons c m ih =>
    obtain ⟨b, u⟩ := c
    simp only [Memory.writeByte]
    split
    · simp only [Memory.readByte]
    · split
      · rename_i h1 h2
        subst h2
        simp only [Memory.readByte]
        split <;> rfl
      · simp only [Memory.readByte, ih]
        grind

/-- Membership and reading: every listed byte is readable at its address. -/
theorem Memory.readByte_isSome_of_mem {m : Memory} {c : Host.Cell} (h : c ∈ m) : (m.readByte c.1).isSome = true := by
  induction m with
  | nil => cases h
  | cons d m ih =>
    simp only [Memory.readByte]
    split
    · rfl
    · rename_i hne
      rcases List.mem_cons.mp h with rfl | h
      · exact absurd rfl hne
      · exact ih h

/-- A readable address is listed. -/
theorem Memory.exists_mem_of_readByte {m : Memory} {a : Nat} {v : Byte} (h : m.readByte a = some v) : (a, v) ∈ m := by
  induction m with
  | nil => cases h
  | cons d m ih =>
    simp only [Memory.readByte] at h
    split at h
    · cases h; subst a; exact List.mem_cons_self
    · exact List.mem_cons_of_mem _ (ih h)

/-- A write lists the address it writes, and no other new one. -/
theorem Memory.mem_writeByte {m : Memory} {a : Nat} {v : Byte} {c : Host.Cell} (h : c ∈ m.writeByte a v) : c = (a, v) ∨ c ∈ m := by
  induction m with
  | nil => simpa [Memory.writeByte] using h
  | cons d m ih =>
    simp only [Memory.writeByte] at h
    split at h
    · rcases List.mem_cons.mp h with h | h
      · exact .inl h
      · exact .inr h
    · split at h
      · rcases List.mem_cons.mp h with h | h
        · exact .inl h
        · exact .inr (List.mem_cons_of_mem _ h)
      · rcases List.mem_cons.mp h with h | h
        · exact .inr (h ▸ List.mem_cons_self)
        · exact (ih h).imp id (List.mem_cons_of_mem _)

/-! ## The canonical form -/

theorem Memory.wf_cons (a : Nat) (v : Byte) (m : Memory) :
    Memory.wf ((a, v) :: m) = true ↔ (∀ b u l, m = (b, u) :: l → a < b) ∧ m.wf = true := by
  cases m with
  | nil => simp [Memory.wf]
  | cons c l =>
    obtain ⟨b, u⟩ := c
    simp [Memory.wf]

/-- A byte write keeps the canonical form. -/
theorem Memory.wf_writeByte {m : Memory} (h : m.wf = true) (a : Nat) (v : Byte) : (m.writeByte a v).wf = true := by
  induction m with
  | nil => rfl
  | cons c m ih =>
    obtain ⟨b, u⟩ := c
    obtain ⟨hb, hm⟩ := (Memory.wf_cons b u m).mp h
    simp only [Memory.writeByte]
    split
    · rename_i hab
      rw [Memory.wf_cons]
      exact ⟨fun b' u' l' e => by cases e; exact hab, h⟩
    · split
      · rename_i _ hab
        subst hab
        exact (Memory.wf_cons a v m).mpr ⟨hb, hm⟩
      · rename_i h1 h2
        rw [Memory.wf_cons]
        refine ⟨fun b' u' l' e => ?_, ih hm⟩
        cases m with
        | nil => simp only [Memory.writeByte] at e; cases e; omega
        | cons d l =>
          obtain ⟨d1, d2⟩ := d
          have hbd := hb d1 d2 l rfl
          simp only [Memory.writeByte] at e
          split at e
          · cases e; omega
          · split at e <;> (cases e; omega)

/-! ## Words -/

/-- A word is readable exactly when its four bytes are. -/
theorem Memory.readWord_isSome (m : Memory) (a : Nat) :
    (m.readWord a).isSome = true ↔ ∀ k, k < 4 → (m.readByte (a + k)).isSome = true := by
  constructor
  · intro h k hk
    unfold Memory.readWord at h
    split at h
    · rename_i h0 h1 h2 h3
      rcases k with _ | _ | _ | _ | k
      · simp [h0]
      · simp [h1]
      · simp [h2]
      · simp [h3]
      · omega
    · simp at h
  · intro h
    obtain ⟨b0, h0⟩ := Option.isSome_iff_exists.mp (h 0 (by omega))
    obtain ⟨b1, h1⟩ := Option.isSome_iff_exists.mp (h 1 (by omega))
    obtain ⟨b2, h2⟩ := Option.isSome_iff_exists.mp (h 2 (by omega))
    obtain ⟨b3, h3⟩ := Option.isSome_iff_exists.mp (h 3 (by omega))
    simp only [Nat.add_zero] at h0
    simp [Memory.readWord, h0, h1, h2, h3]

/-- The bytes of a memory after a word write. -/
theorem Memory.readByte_writeWord (m : Memory) (a : Nat) (w : Word) (x : Nat) :
    (m.writeWord a w).readByte x =
      if x = a then some (w.extractLsb' 0 8) else if x = a + 1 then some (w.extractLsb' 8 8)
      else if x = a + 2 then some (w.extractLsb' 16 8) else if x = a + 3 then some (w.extractLsb' 24 8) else m.readByte x := by
  simp only [Memory.writeWord, Memory.readByte_writeByte]
  grind

/-- A byte outside the word written reads as before. -/
theorem Memory.readByte_writeWord_other (m : Memory) (a : Nat) (w : Word) {x : Nat} (h : x < a ∨ a + 4 ≤ x) :
    (m.writeWord a w).readByte x = m.readByte x := by
  rw [Memory.readByte_writeWord]
  grind

/-- The four bytes of a word, put together, are the word (R85). -/
theorem word_bytes (w : Word) :
    (w.extractLsb' 24 8 ++ w.extractLsb' 16 8 ++ w.extractLsb' 8 8 ++ w.extractLsb' 0 8 : Word) = w := by
  ext i hi
  simp only [BitVec.getElem_append, BitVec.getElem_extractLsb']
  grind

@[simp] theorem Memory.readWord_writeWord_same (m : Memory) (a : Nat) (w : Word) : (m.writeWord a w).readWord a = some w := by
  simp [Memory.readWord, Memory.readByte_writeWord, word_bytes]

/-- A word that does not overlap the word written reads as before. -/
theorem Memory.readWord_writeWord_other (m : Memory) (a : Nat) (w : Word) {x : Nat} (h : x + 4 ≤ a ∨ a + 4 ≤ x) :
    (m.writeWord a w).readWord x = m.readWord x := by
  have hb : ∀ k, k < 4 → (m.writeWord a w).readByte (x + k) = m.readByte (x + k) := fun k hk =>
    m.readByte_writeWord_other a w (by omega)
  have h0 := hb 0 (by omega)
  simp only [Nat.add_zero] at h0
  simp only [Memory.readWord, h0, hb 1 (by omega), hb 2 (by omega), hb 3 (by omega)]

theorem Memory.wf_writeWord {m : Memory} (h : m.wf = true) (a : Nat) (w : Word) : (m.writeWord a w).wf = true :=
  Memory.wf_writeByte (Memory.wf_writeByte (Memory.wf_writeByte (Memory.wf_writeByte h _ _) _ _) _ _) _ _

/-- A cell of a memory after a word write is a byte of the word or an old cell. -/
theorem Memory.mem_writeWord {m : Memory} {a : Nat} {w : Word} {c : Host.Cell} (h : c ∈ m.writeWord a w) :
    (a ≤ c.1 ∧ c.1 < a + 4) ∨ c ∈ m := by
  unfold Memory.writeWord at h
  rcases Memory.mem_writeByte h with rfl | h
  · left; constructor <;> dsimp <;> omega
  rcases Memory.mem_writeByte h with rfl | h
  · left; constructor <;> dsimp <;> omega
  rcases Memory.mem_writeByte h with rfl | h
  · left; constructor <;> dsimp <;> omega
  rcases Memory.mem_writeByte h with rfl | h
  · left; constructor <;> dsimp <;> omega
  exact .inr h

/-! ## Elements -/

/-- Windows are word-aligned. -/
theorem Window.addr_mod (w : Window) (j : Nat) : w.addr j % 4 = 0 := by
  cases w <;> simp only [Window.addr, Window.base] <;> omega

/-- Two words of windows at different offsets do not overlap. -/
theorem Window.addr_disjoint {w w' : Window} {j j' : Nat} (h : w.addr j ≠ w'.addr j') :
    w.addr j + 4 ≤ w'.addr j' ∨ w'.addr j' + 4 ≤ w.addr j := by
  have := w.addr_mod j
  have := w'.addr_mod j'
  omega

theorem Window.addr_inj (w : Window) {j j' : Nat} : w.addr j = w.addr j' ↔ j = j' := by
  simp only [Window.addr]
  omega

/-- Words of different windows, each inside its window, are at different offsets (R83). -/
theorem Window.addr_ne {w w' : Window} (hw : w ≠ w') {j j' : Nat} (h : j < w.words) (h' : j' < w'.words) : w.addr j ≠ w'.addr j' := by
  cases w <;> cases w' <;> first | exact absurd rfl hw | (simp only [Window.addr, Window.base, Window.words] at *; omega)

/-- What is read back from a stored word: the value cut to the element width and sign-extended (R46). -/
theorem Memory.readElem_writeElem_same (m : Memory) (w : Window) {j : Nat} (hj : j < w.words) (v : Word) :
    (m.writeElem w j v).readElem w j = .ok (w.view (w.store v)) := by
  simp [Memory.readElem, Memory.writeElem, hj]

/-- An element at another offset reads as before. -/
theorem Memory.readElem_writeElem_other (m : Memory) {w w' : Window} {j j' : Nat} (v : Word) (h : w.addr j ≠ w'.addr j') :
    (m.writeElem w j v).readElem w' j' = m.readElem w' j' := by
  have := Window.addr_disjoint h
  simp only [Memory.readElem, Memory.writeElem]
  rw [Memory.readWord_writeWord_other]
  omega

/-- Storing cuts to the width, so viewing sees the cut word. -/
theorem Window.view_store (w : Window) (v : Word) : w.view (w.store v) = (v.setWidth w.width).signExtend 32 := by
  have : w.width ≤ 32 := by cases w <;> decide
  simp only [Window.view, Window.store]
  congr 1
  rw [BitVec.setWidth_setWidth_of_le _ this, BitVec.setWidth_eq]

/-- A 32-bit window gives back what was stored. -/
theorem Window.view_store_full {w : Window} (hw : w.width = 32) (v : Word) : w.view (w.store v) = v := by
  rw [Window.view_store]
  cases w <;> first | (simp [Window.width] at hw; done) | simp [Window.width]

/-- A value that fits the element width is read back as it was written (R46). -/
theorem Window.view_store_ofInt {w : Window} {v : Int} (hlo : -(2 ^ (w.width - 1) : Int) ≤ v) (hhi : v < 2 ^ (w.width - 1)) :
    w.view (w.store (BitVec.ofInt 32 v)) = BitVec.ofInt 32 v := by
  rw [Window.view_store]
  apply BitVec.eq_of_toInt_eq
  have h1 : ((BitVec.ofInt 32 v).setWidth w.width) = BitVec.ofInt w.width v := by
    have : w.width ≤ 32 := by cases w <;> decide
    apply BitVec.eq_of_toNat_eq
    simp only [BitVec.toNat_setWidth, BitVec.toNat_ofInt]
    cases w <;> simp only [Window.width] <;> omega
  rw [h1, BitVec.toInt_signExtend_of_le (by cases w <;> decide)]
  simp only [BitVec.toInt_ofInt]
  cases w <;> simp only [Window.width] at hlo hhi ⊢ <;>
    (rw [Int.bmod_eq_of_le (by omega) (by omega), Int.bmod_eq_of_le (by omega) (by omega)])

/-! ## Ranges -/

/-- Reading a range succeeds exactly when every element of it does, and gives their signed values in order. -/
theorem Memory.readRange_ok_iff {m : Memory} {w : Window} {j n : Nat} {vs : List Int} :
    m.readRange w j n = .ok vs ↔
      vs.length = n ∧ ∀ i, i < n → ∃ v, m.readElem w (j + i) = .ok v ∧ vs.getD i 0 = v.toInt := by
  induction n generalizing j vs with
  | zero =>
    simp only [Memory.readRange, Except.ok.injEq]
    constructor
    · rintro rfl; exact ⟨rfl, fun i hi => absurd hi (by omega)⟩
    · rintro ⟨h, -⟩; exact (List.length_eq_zero_iff.mp h).symm
  | succ n ih =>
    simp only [Memory.readRange]
    constructor
    · intro h
      split at h
      · cases h
      · rename_i v hv
        split at h
        · cases h
        · rename_i us hus
          cases h
          obtain ⟨hl, hr⟩ := ih.mp hus
          refine ⟨by simp [hl], fun i hi => ?_⟩
          rcases i with _ | i
          · exact ⟨v, by simpa using hv, rfl⟩
          · obtain ⟨u, hu, hg⟩ := hr i (by omega)
            exact ⟨u, by rw [← hu]; congr 1; omega, by simpa using hg⟩
    · rintro ⟨hl, hr⟩
      obtain ⟨v, hv, hg⟩ := hr 0 (by omega)
      simp only [Nat.add_zero] at hv
      cases vs with
      | nil => simp at hl
      | cons u us =>
        have hus : m.readRange w (j + 1) n = .ok us := by
          refine ih.mpr ⟨by simpa using hl, fun i hi => ?_⟩
          obtain ⟨v', hv', hg'⟩ := hr (i + 1) (by omega)
          exact ⟨v', by rw [← hv']; congr 1; omega, by simpa using hg'⟩
        simp only [List.getD_cons_zero] at hg
        simp [hv, hus, hg]

/-- Two memories that read alike over a range give the same range. -/
theorem Memory.readRange_congr {m m' : Memory} {w : Window} {j n : Nat}
    (h : ∀ i, i < n → m.readElem w (j + i) = m'.readElem w (j + i)) : m.readRange w j n = m'.readRange w j n := by
  induction n generalizing j with
  | zero => rfl
  | succ n ih =>
    have h0 := h 0 (by omega)
    simp only [Nat.add_zero] at h0
    simp only [Memory.readRange, h0]
    rw [ih (fun i hi => by
      have h2 := h (i + 1) (by omega)
      rw [show j + 1 + i = j + (i + 1) by omega]
      exact h2)]

/-- A readable range inside its window: written words (R341) are read. -/
theorem Memory.readRange_of_written {m : Memory} {w : Window} {j n : Nat} (hw : m.Written w j n) (hn : j + n ≤ w.words) :
    ∃ vs, m.readRange w j n = .ok vs := by
  refine ⟨(List.range n).map (fun i => (w.view ((m.readWord (w.addr (j + i))).getD 0#32)).toInt), Memory.readRange_ok_iff.mpr ⟨by simp, ?_⟩⟩
  intro i hi
  obtain ⟨v, hv⟩ := Option.isSome_iff_exists.mp (hw i hi)
  refine ⟨w.view v, ?_, ?_⟩
  · simp [Memory.readElem, hv, show j + i < w.words by omega]
  · simp [List.getD_eq_getElem?_getD, hi, hv]

/-- Why a range read fails: its first element that does not read. -/
theorem Memory.readRange_error {m : Memory} {w : Window} {j n : Nat} {f : Fault} (h : m.readRange w j n = .error f) :
    ∃ i, i < n ∧ m.readElem w (j + i) = .error f ∧ ∀ k, k < i → ∃ v, m.readElem w (j + k) = .ok v := by
  induction n generalizing j with
  | zero => cases h
  | succ n ih =>
    simp only [Memory.readRange] at h
    split at h
    · rename_i e he
      cases h
      exact ⟨0, by omega, he, fun k hk => absurd hk (by omega)⟩
    · rename_i v hv
      split at h
      · rename_i e he
        cases h
        obtain ⟨i, hi, hf, hk⟩ := ih he
        refine ⟨i + 1, by omega, by rw [← hf]; congr 1; omega, fun k hk' => ?_⟩
        rcases k with _ | k
        · exact ⟨v, hv⟩
        · obtain ⟨u, hu⟩ := hk k (by omega)
          exact ⟨u, by rw [← hu]; congr 1; omega⟩
      · cases h

/-- Inside its window an element read fails only because the word is unwritten. -/
theorem Memory.readElem_error {m : Memory} {w : Window} {j : Nat} (hj : j < w.words) {f : Fault} (h : m.readElem w j = .error f) :
    f = .unwrittenRead (w.addr j) := by
  simp only [Memory.readElem, hj, if_true] at h
  split at h
  · cases h
  · cases h; rfl

/-- A byte outside the words a range write covers reads as before. -/
theorem Memory.readByte_writeRange_other {m : Memory} {w : Window} {j : Nat} {vs : List Int} {x : Nat} (h : ¬ StoredAt w j vs.length x) :
    (m.writeRange w j vs).readByte x = m.readByte x := by
  induction vs generalizing m j with
  | nil => rfl
  | cons v vs ih =>
    simp only [Memory.writeRange]
    rw [ih, Memory.writeElem, Memory.readByte_writeWord_other]
    · have h0 : ¬ (w.addr j ≤ x ∧ x < w.addr j + 4) := fun hh => h ⟨0, by simp, hh⟩
      omega
    · rintro ⟨i, hi, hx⟩
      exact h ⟨i + 1, by simpa using hi, by rwa [show j + (i + 1) = j + 1 + i by omega]⟩

/-- An element at an offset that a range write does not cover reads as before. -/
theorem Memory.readElem_writeRange_other {m : Memory} {w w' : Window} {j j' : Nat} {vs : List Int}
    (h : ∀ i, i < vs.length → w.addr (j + i) ≠ w'.addr j') : (m.writeRange w j vs).readElem w' j' = m.readElem w' j' := by
  induction vs generalizing m j with
  | nil => rfl
  | cons v vs ih =>
    simp only [Memory.writeRange]
    rw [ih, Memory.readElem_writeElem_other]
    · have := h 0 (by simp)
      simpa using this
    · intro i hi
      have := h (i + 1) (by simpa using hi)
      rwa [show j + (i + 1) = j + 1 + i by omega] at this

/-- An element that a range write covers reads as the value written there, cut to the element width. -/
theorem Memory.readElem_writeRange_same {m : Memory} {w : Window} {j : Nat} {vs : List Int} {i : Nat} (hi : i < vs.length)
    (hw : j + i < w.words) :
    (m.writeRange w j vs).readElem w (j + i) = .ok (w.view (w.store (BitVec.ofInt 32 (vs.getD i 0)))) := by
  induction vs generalizing m j i with
  | nil => simp at hi
  | cons v vs ih =>
    simp only [Memory.writeRange]
    rcases i with _ | i
    · simp only [Nat.add_zero] at hw ⊢
      rw [Memory.readElem_writeRange_other, Memory.readElem_writeElem_same _ _ hw]
      · simp
      · intro k _
        rw [Ne, Window.addr_inj]
        omega
    · have h2 := @ih (m.writeElem w j (BitVec.ofInt 32 v)) (j + 1) i (by simpa using hi) (by omega)
      rw [show j + (i + 1) = j + 1 + i by omega]
      simpa using h2

theorem Memory.readByte_havocRange_other {m : Memory} {d : Nat} {w : Window} {j n x : Nat} (h : ¬ StoredAt w j n x) :
    (m.havocRange d w j n).readByte x = m.readByte x := by
  induction n generalizing m j with
  | zero => rfl
  | succ n ih =>
    simp only [Memory.havocRange]
    rw [ih, Memory.writeElem, Memory.readByte_writeWord_other]
    · have h0 : ¬ (w.addr j ≤ x ∧ x < w.addr j + 4) := fun hh => h ⟨0, by omega, hh⟩
      omega
    · rintro ⟨i, hi, hx⟩
      exact h ⟨i + 1, by omega, by rwa [show j + (i + 1) = j + 1 + i by omega]⟩

/-- What an arbitrary fill leaves in the words it covers: the free value of the draw and the offset, cut to the element width. -/
theorem Memory.readElem_havocRange_same {m : Memory} {d : Nat} {w : Window} {j n i : Nat} (hi : i < n) (hw : j + i < w.words) :
    (m.havocRange d w j n).readElem w (j + i) = .ok (w.view (w.store (Config.freeWord d (w.addr (j + i))))) := by
  have hother : ∀ (m : Memory) (n j j' : Nat), (∀ k, k < n → j + k ≠ j') →
      (m.havocRange d w j n).readElem w j' = m.readElem w j' := by
    intro m n
    induction n generalizing m with
    | zero => intros; rfl
    | succ n ih =>
      intro j j' h
      simp only [Memory.havocRange]
      rw [ih, Memory.readElem_writeElem_other]
      · rw [Ne, Window.addr_inj]; have := h 0 (by omega); simpa using this
      · intro k hk; have := h (k + 1) (by omega); omega
  induction n generalizing m j i with
  | zero => omega
  | succ n ih =>
    simp only [Memory.havocRange]
    rcases i with _ | i
    · simp only [Nat.add_zero] at hw ⊢
      rw [hother _ _ _ _ (fun k _ => by omega), Memory.readElem_writeElem_same _ _ hw]
    · rw [show j + (i + 1) = j + 1 + i by omega]
      exact ih (by omega) (by omega)

/-! ## What every memory operation keeps -/

theorem Memory.wf_writeElem {m : Memory} (h : m.wf = true) (w : Window) (j : Nat) (v : Word) : (m.writeElem w j v).wf = true :=
  Memory.wf_writeWord h _ _

theorem Memory.wf_writeRange {m : Memory} (h : m.wf = true) (w : Window) (j : Nat) (vs : List Int) : (m.writeRange w j vs).wf = true := by
  induction vs generalizing m j with
  | nil => exact h
  | cons v vs ih => exact ih (Memory.wf_writeElem h _ _ _) _

theorem Memory.wf_havocRange {m : Memory} (h : m.wf = true) (d : Nat) (w : Window) (j n : Nat) : (m.havocRange d w j n).wf = true := by
  induction n generalizing m j with
  | zero => exact h
  | succ n ih => exact ih (Memory.wf_writeElem h _ _ _) _

theorem Memory.wf_havocAll {m : Memory} (h : m.wf = true) (d : Nat) (l : List (Window × Nat × Nat)) : (m.havocAll d l).wf = true := by
  induction l generalizing m with
  | nil => exact h
  | cons r l ih => exact ih (Memory.wf_havocRange h _ _ _ _)

/-- An element write inside its window keeps every byte in a window. -/
theorem Memory.inWindows_writeElem {m : Memory} (h : m.inWindows = true) {w : Window} {j : Nat} (hj : j < w.words) (v : Word) :
    (m.writeElem w j v).inWindows = true := by
  simp only [Memory.inWindows, List.all_eq_true] at h ⊢
  intro c hc
  rcases Memory.mem_writeWord hc with hc | hc
  · rw [List.any_eq_true]
    refine ⟨w, by cases w <;> decide, ?_⟩
    simp only [Window.holds, Bool.and_eq_true, decide_eq_true_eq]
    simp only [Window.addr] at hc
    omega
  · exact h c hc

theorem Memory.inWindows_writeRange {m : Memory} (h : m.inWindows = true) {w : Window} {j : Nat} {vs : List Int}
    (hj : j + vs.length ≤ w.words) : (m.writeRange w j vs).inWindows = true := by
  induction vs generalizing m j with
  | nil => exact h
  | cons v vs ih =>
    simp only [List.length_cons] at hj
    exact ih (Memory.inWindows_writeElem h (by omega) _) (by omega)

theorem Memory.inWindows_havocRange {m : Memory} (h : m.inWindows = true) (d : Nat) {w : Window} {j n : Nat} (hj : j + n ≤ w.words) :
    (m.havocRange d w j n).inWindows = true := by
  induction n generalizing m j with
  | zero => exact h
  | succ n ih => exact ih (Memory.inWindows_writeElem h (by omega) _) (by omega)

theorem Memory.inWindows_havocAll {m : Memory} (h : m.inWindows = true) (d : Nat) {l : List (Window × Nat × Nat)}
    (hl : ∀ r ∈ l, r.2.1 + r.2.2 ≤ r.1.words) : (m.havocAll d l).inWindows = true := by
  induction l generalizing m with
  | nil => exact h
  | cons r l ih =>
    exact ih (Memory.inWindows_havocRange h _ (hl r List.mem_cons_self)) (fun q hq => hl q (List.mem_cons_of_mem _ hq))

/-- An element write keeps words whole. -/
theorem Memory.wholeWords_writeElem {m : Memory} (h : m.wholeWords = true) (w : Window) (j : Nat) (v : Word) :
    (m.writeElem w j v).wholeWords = true := by
  simp only [Memory.wholeWords, List.all_eq_true] at h ⊢
  intro c hc
  have ha := w.addr_mod j
  by_cases hin : w.addr j ≤ c.1 ∧ c.1 < w.addr j + 4
  · have : c.1 / 4 * 4 = w.addr j := by omega
    rw [this, Memory.writeElem, Memory.readWord_writeWord_same]
    rfl
  · rcases Memory.mem_writeWord hc with hc | hc
    · exact absurd hc hin
    · rw [Memory.writeElem, Memory.readWord_writeWord_other _ _ _ (by omega)]
      exact h c hc

theorem Memory.wholeWords_writeRange {m : Memory} (h : m.wholeWords = true) (w : Window) (j : Nat) (vs : List Int) :
    (m.writeRange w j vs).wholeWords = true := by
  induction vs generalizing m j with
  | nil => exact h
  | cons v vs ih => exact ih (Memory.wholeWords_writeElem h _ _ _) _

theorem Memory.wholeWords_havocRange {m : Memory} (h : m.wholeWords = true) (d : Nat) (w : Window) (j n : Nat) :
    (m.havocRange d w j n).wholeWords = true := by
  induction n generalizing m j with
  | zero => exact h
  | succ n ih => exact ih (Memory.wholeWords_writeElem h _ _ _) _

theorem Memory.wholeWords_havocAll {m : Memory} (h : m.wholeWords = true) (d : Nat) (l : List (Window × Nat × Nat)) :
    (m.havocAll d l).wholeWords = true := by
  induction l generalizing m with
  | nil => exact h
  | cons r l ih => exact ih (Memory.wholeWords_havocRange h _ _ _ _)

/-! ## Regions (R82, R83) -/

/-- A window's word lies in that window and in no other (R83). -/
theorem Window.holds_addr (w w' : Window) {j : Nat} (hj : j < w.words) : w'.holds (w.addr j) = decide (w' = w) := by
  rw [Window.holds, ← Bool.decide_and, decide_eq_decide]
  cases w <;> cases w' <;> simp only [Window.words] at hj <;>
    simp only [Window.addr, Window.base, Window.words, reduceCtorEq, iff_false, iff_true] <;> omega

/-- The offset of a window's word names that word (R83). -/
theorem regionOf_addr (w : Window) {j : Nat} (hj : j < w.words) : regionOf (w.addr j) = .ram w j := by
  have hsmall : ¬ w.addr j < 0x100 := by cases w <;> simp only [Window.addr, Window.base] <;> omega
  have hfind : allWindows.find? (fun w' => w'.holds (w.addr j)) = some w := by
    rw [show (fun w' : Window => w'.holds (w.addr j)) = fun w' => decide (w' = w) from funext fun w' => Window.holds_addr w w' hj]
    cases w <;> rfl
  have hword : (w.addr j - w.base) / 4 = j := by simp only [Window.addr]; omega
  simp only [regionOf, hsmall, if_false, hfind, hword]

/-- Where an aligned offset names a window's word, it is that word's offset and the word is inside its window. -/
theorem regionOf_ram {a : Nat} {w : Window} {j : Nat} (h : regionOf a = .ram w j) (ha : a % 4 = 0) : w.addr j = a ∧ j < w.words := by
  unfold regionOf at h
  split at h
  · cases h
  · split at h
    · rename_i w' hf
      cases h
      have hh := List.find?_some hf
      simp only [Window.holds, Bool.and_eq_true, decide_eq_true_eq] at hh
      have hb : w.base % 4 = 0 := by cases w <;> decide
      simp only [Window.addr]
      omega
    · split at h
      · cases h
      · split at h <;> cases h

end Sys2Proof.Machine
end

