-- ==== Sys2Proof/Laws/Quantizer.lean ====
section
/-! SUPPORT. The quantizer and reconstructor: ranges, and what reading their stored results gives (spec/40_quantizer.md). -/
namespace Sys2Proof.Machine

open Sys2Proof

theorem compand_mem (X : Int) : -64 ≤ compand X ∧ compand X ≤ 63 := by
  unfold compand
  split
  · omega
  · exact clip_mem (by omega)

theorem quant_mem (i : Nat) (P : Int) : -64 ≤ quant i P ∧ quant i P ≤ 63 := by
  unfold quant
  split
  · exact compand_mem _
  · exact compand_mem _
  · exact clip_mem (by omega)

theorem gamma_mem {q : Int} (h : -64 ≤ q) (h' : q ≤ 63) : -1048544 ≤ gamma q ∧ gamma q ≤ 1032224 := by
  unfold gamma
  constructor <;> nlinarith

theorem recon_mem (i : Nat) {q : Int} (h : -64 ≤ q) (h' : q ≤ 63) : -1048576 ≤ recon i q ∧ recon i q < 1048576 := by
  have := gamma_mem h h'
  unfold recon
  split <;> omega

/-- What reading an element of a signed array gives lies in the range of its width. -/
theorem Memory.readElem_mem {m : Memory} {w : Window} {j : Nat} {v : Word} (h : m.readElem w j = .ok v) :
    -(2 ^ (w.width - 1) : Int) ≤ v.toInt ∧ v.toInt < 2 ^ (w.width - 1) := by
  unfold Memory.readElem at h
  split at h
  · split at h
    · cases h
      rename_i raw _
      rw [Window.view, BitVec.toInt_signExtend_of_le (by cases w <;> decide)]
      have h1 := BitVec.toInt_lt (x := raw.setWidth w.width)
      have h2 := BitVec.le_toInt (x := raw.setWidth w.width)
      exact ⟨h2, h1⟩
    · cases h
  · cases h

/-- The elements of a range lie in the range of the element width. -/
theorem Memory.readRange_mem {m : Memory} {w : Window} {j n : Nat} {vs : List Int} (h : m.readRange w j n = .ok vs) {i : Nat} (hi : i < n) :
    -(2 ^ (w.width - 1) : Int) ≤ vs.getD i 0 ∧ vs.getD i 0 < 2 ^ (w.width - 1) := by
  obtain ⟨v, hv, hg⟩ := (Memory.readRange_ok_iff.mp h).2 i hi
  rw [hg]
  exact Memory.readElem_mem hv

theorem Memory.readRange_length {m : Memory} {w : Window} {j n : Nat} {vs : List Int} (h : m.readRange w j n = .ok vs) : vs.length = n :=
  (Memory.readRange_ok_iff.mp h).1

/-- Reading back a range just written gives the values, when each fits the element width. -/
theorem Memory.readRange_writeRange_same {m : Memory} {w : Window} {j : Nat} {vs : List Int} (hw : j + vs.length ≤ w.words)
    (hv : ∀ i, i < vs.length → -(2 ^ (w.width - 1) : Int) ≤ vs.getD i 0 ∧ vs.getD i 0 < 2 ^ (w.width - 1)) :
    (m.writeRange w j vs).readRange w j vs.length = .ok vs := by
  refine Memory.readRange_ok_iff.mpr ⟨rfl, fun i hi => ⟨BitVec.ofInt 32 (vs.getD i 0), ?_, ?_⟩⟩
  · rw [Memory.readElem_writeRange_same hi (by omega), Window.view_store_ofInt (hv i hi).1 (hv i hi).2]
  · have hle : (2 : Int) ^ (w.width - 1) ≤ 2147483648 := by cases w <;> decide
    have := hv i hi
    rw [toInt_ofInt32]
    rw [fits32_iff]
    omega

/-- A range write to one window does not change what a range of another window reads. -/
theorem Memory.readRange_writeRange_other {m : Memory} {w w' : Window} (hne : w ≠ w') {j j' n : Nat} {vs : List Int}
    (h : j + vs.length ≤ w.words) (h' : j' + n ≤ w'.words) : (m.writeRange w j vs).readRange w' j' n = m.readRange w' j' n :=
  Memory.readRange_congr fun i hi =>
    Memory.readElem_writeRange_other fun k hk => Window.addr_ne hne (by omega) (by omega)

theorem getD_mapIdx (f : Nat → Int → Int) (vs : List Int) {i : Nat} (hi : i < vs.length) : (vs.mapIdx f).getD i 0 = f i (vs.getD i 0) := by
  simp [List.getD_eq_getElem?_getD, hi]

/-! ## The coefficient bit count (R147, R149, R150) -/

theorem params_lawful : LawfulParams Config.params where
  prtParam ct i := by
    have := (Config.prtParam ct i).isLt
    simp only [Config.params, BitVec.toNat_setWidth]
    omega
  acBits _ _ _ _ := by simp [Config.params]
  bgmcEst _ := by simp [Config.params]
  logTerm _ := by simp [Config.params]

theorem cbits_le {P : Params} (hP : LawfulParams P) (i ct : Nat) {q : Int} (h : -64 ≤ q) (h' : q ≤ 63) : cbits P i q ct ≤ 383 := by
  have hlen : ∀ (v : Int) (k : Nat), v.natAbs ≤ 191 → k ≤ 7 → lenSr v k ≤ 383 := by
    intro v k hv hk
    have hz := zz_le hv
    unfold lenSr
    interval_cases k <;> omega
  unfold cbits
  split
  · omega
  · split
    · have h1 := BitVec.toInt_lt (x := P.prtOffset ct i)
      have h2 := BitVec.le_toInt (x := P.prtOffset ct i)
      exact hlen _ _ (by omega) (hP.prtParam ct i)
    · split
      · exact hlen _ _ (by omega) (by omega)
      · exact hlen _ _ (by omega) (by omega)

theorem cbits_raw (P : Params) (i : Nat) (q : Int) : cbits P i q 3 = 7 := rfl

end Sys2Proof.Machine
end

