-- ==== Sys2Proof/Laws/Lattice.lean ====
section
/-! SUPPORT. The lattice and the residual filter: lengths, the sequence of vectors, the range of the coefficients in effect (spec/42_lattice_residual.md). -/
namespace Sys2Proof.Machine

open Sys2Proof

@[simp] theorem latticeStep_length (c : List Int) (a : Int) : (latticeStep c a).length = c.length + 1 := by
  simp [latticeStep]

theorem foldl_latticeStep_length (rc : List Int) (c : List Int) : (rc.foldl latticeStep c).length = c.length + rc.length := by
  induction rc generalizing c with
  | nil => simp
  | cons a rc ih => simp [ih]; omega

@[simp] theorem lattice_length (rc : List Int) : (lattice rc).length = rc.length := by
  simp [lattice, foldl_latticeStep_length]

@[simp] theorem predictorOf_length (ra : Bool) (rc : List Int) (n : Nat) :
    (predictorOf ra rc n).length = if ra then min n rc.length else rc.length := by
  cases ra <;> simp [predictorOf]

/-- The m-th vector of the sequence is the lattice of the first m coefficients. -/
theorem latticeSeq_getD (rc c : List Int) {m : Nat} (hm : m ≤ rc.length) :
    (latticeSeq c rc).getD m [] = (rc.take m).foldl latticeStep c := by
  induction rc generalizing c m with
  | nil =>
    have : m = 0 := by simpa using hm
    subst this
    rfl
  | cons a rc ih =>
    rcases m with _ | m
    · rfl
    · have h2 := ih (latticeStep c a) (m := m) (by simpa using hm)
      simpa [latticeSeq] using h2

@[simp] theorem latticeSeq_length (rc c : List Int) : (latticeSeq c rc).length = rc.length + 1 := by
  induction rc generalizing c with
  | nil => rfl
  | cons a rc ih => simp [latticeSeq, ih]

theorem mem_latticeSeq {rc c d : List Int} (h : d ∈ latticeSeq c rc) : ∃ m, m ≤ rc.length ∧ d = (rc.take m).foldl latticeStep c := by
  obtain ⟨m, hm, rfl⟩ := List.getElem_of_mem h
  have hm' : m ≤ rc.length := by simp at hm; omega
  refine ⟨m, hm', ?_⟩
  rw [← latticeSeq_getD rc c hm', List.getD_eq_getElem?_getD, List.getElem?_eq_getElem hm]
  rfl

theorem lattice_mem_latticeSeq (rc : List Int) {m : Nat} (hm : m ≤ rc.length) : lattice (rc.take m) ∈ latticeSeq [] rc := by
  have h := latticeSeq_getD rc [] hm
  rw [lattice, ← h, List.getD_eq_getElem?_getD, List.getElem?_eq_getElem (by simp; omega)]
  exact List.getElem_mem _

@[simp] theorem residuals_length (ra : Bool) (rc : List Int) (x : Int → Int) (len : Nat) : (residuals ra rc x len).length = len := by
  simp [residuals]

/-- Sample k of the block is predicted by the vector R198 names. -/
theorem residuals_getD (ra : Bool) (rc : List Int) (x : Int → Int) {len k : Nat} (hk : k < len) :
    (residuals ra rc x len).getD k 0 = residual (predictorOf ra rc k) x k := by
  have hle : (if ra = true then min k rc.length else rc.length) ≤ rc.length := by split <;> omega
  simp only [residuals, predictorOf, lattice, List.getD_eq_getElem?_getD, List.getElem?_map, List.getElem?_range hk, Option.map_some,
    Option.getD_some]
  rw [← latticeSeq_getD rc [] hle, List.getD_eq_getElem?_getD]

theorem mem_residuals {ra : Bool} {rc : List Int} {x : Int → Int} {len : Nat} {e : Int} :
    e ∈ residuals ra rc x len ↔ ∃ k : Nat, k < len ∧ e = residual (predictorOf ra rc k) x k := by
  constructor
  · intro h
    obtain ⟨k, hk, rfl⟩ := List.getElem_of_mem h
    have hk' : k < len := by simpa using hk
    exact ⟨k, hk', by rw [← residuals_getD ra rc x hk', List.getD_eq_getElem?_getD, List.getElem?_eq_getElem hk]; rfl⟩
  · rintro ⟨k, hk, rfl⟩
    rw [← residuals_getD ra rc x hk, List.getD_eq_getElem?_getD, List.getElem?_eq_getElem (by simpa using hk)]
    exact List.getElem_mem _

/-! ## The fallback's constants (R193) -/

theorem qFb_eq : qFb = -36 := by decide

theorem rFb_eq : rFb = -944608 := by decide

@[simp] theorem lattice_singleton (a : Int) : lattice [a] = [a] := rfl

/-- A one-coefficient lattice never overflows (R192). -/
theorem latticeOverflows_singleton (a : Int) : latticeOverflows [a] = false := rfl

/-- The coefficients in effect never overflow (R194). -/
theorem latticeOverflows_effectiveRc (rc : List Int) : latticeOverflows (effectiveRc rc) = false := by
  unfold effectiveRc
  split
  · exact latticeOverflows_singleton _
  · rename_i h
    simpa using h

theorem effectiveRc_length_lt {rc : List Int} (h : rc.length < 1024) : (effectiveRc rc).length < 1024 := by
  unfold effectiveRc
  split
  · simp
  · exact h

/-- The fallback happens only from orders above 0, so it does not raise the order. -/
theorem effectiveRc_length_le (rc : List Int) : (effectiveRc rc).length ≤ rc.length := by
  unfold effectiveRc
  split
  · rename_i h
    cases rc with
    | nil => simp [latticeOverflows, latticeSeq] at h
    | cons a rc => simp
  · exact le_refl _

/-- The coefficients in effect are 21-bit values when the operands are (R144, R193). -/
theorem effectiveRc_mem {rc : List Int} (h : ∀ a ∈ rc, -1048576 ≤ a ∧ a < 1048576) : ∀ a ∈ effectiveRc rc, -1048576 ≤ a ∧ a < 1048576 := by
  unfold effectiveRc
  split
  · intro a ha
    rw [List.mem_singleton.mp ha, rFb_eq]
    omega
  · exact h

/-- The last entry of a lattice vector is the last coefficient (R190). -/
theorem lattice_append (rc : List Int) (a : Int) : lattice (rc ++ [a]) = latticeStep (lattice rc) a := by
  simp [lattice]

theorem latticeStep_eq (c : List Int) (a : Int) : latticeStep c a = (latticeStep c a).dropLast ++ [a] := by
  simp [latticeStep]

/-- When the conversion does not overflow, every entry of the vectors of all orders fits 32 bits (R191). -/
theorem lattice_fits {rc : List Int} (ho : latticeOverflows rc = false) (h : ∀ a ∈ rc, -1048576 ≤ a ∧ a < 1048576) {m : Nat} (hm : m ≤ rc.length) :
    ∀ x ∈ lattice (rc.take m), fits32 x = true := by
  intro x hx
  rcases m with _ | m
  · simp [lattice] at hx
  · have hm' : m < rc.length := by omega
    have htake : rc.take (m + 1) = rc.take m ++ [rc[m]] := (List.take_concat_get' rc m hm').symm
    have hmem := lattice_mem_latticeSeq rc hm
    rw [htake, lattice_append, latticeStep_eq, List.mem_append] at hx
    rcases hx with hx | hx
    · simp only [latticeOverflows, List.any_eq_false] at ho
      have h2 := ho _ hmem
      simp only [Bool.not_eq_true, List.any_eq_false, Bool.not_eq_true'] at h2
      rw [htake, lattice_append] at h2
      simpa using h2 x hx
    · rw [List.mem_singleton.mp hx, fits32_iff]
      have := h rc[m] (List.getElem_mem _)
      omega

end Sys2Proof.Machine
end

