-- ==== Sys2Proof/Laws/State.lean ====
section
/-! SUPPORT. One lemma per field per named state update, so that no proof unfolds a record update. -/
namespace Sys2Proof.Machine

open Sys2Proof

/-! ## raiseError -/

@[simp] theorem raiseError_ieDone (c : Cause) (s : State) : (raiseError c s).ieDone = s.ieDone := rfl
@[simp] theorem raiseError_ieErr (c : Cause) (s : State) : (raiseError c s).ieErr = s.ieErr := rfl
@[simp] theorem raiseError_done (c : Cause) (s : State) : (raiseError c s).done = s.done := rfl
@[simp] theorem raiseError_err (c : Cause) (s : State) : (raiseError c s).err = true := rfl
@[simp] theorem raiseError_fbk (c : Cause) (s : State) : (raiseError c s).fbk = s.fbk := rfl
@[simp] theorem raiseError_rovf (c : Cause) (s : State) : (raiseError c s).rovf = s.rovf := rfl
@[simp] theorem raiseError_ecause (c : Cause) (s : State) : (raiseError c s).ecause = c := rfl
@[simp] theorem raiseError_cmd (c : Cause) (s : State) : (raiseError c s).cmd = s.cmd := rfl
@[simp] theorem raiseError_par (c : Cause) (s : State) : (raiseError c s).par = s.par := rfl
@[simp] theorem raiseError_optOrder (c : Cause) (s : State) : (raiseError c s).optOrder = s.optOrder := rfl
@[simp] theorem raiseError_coefBits (c : Cause) (s : State) : (raiseError c s).coefBits = s.coefBits := rfl
@[simp] theorem raiseError_parBits (c : Cause) (s : State) : (raiseError c s).parBits = s.parBits := rfl
@[simp] theorem raiseError_resBits (c : Cause) (s : State) : (raiseError c s).resBits = s.resBits := rfl
@[simp] theorem raiseError_totBits (c : Cause) (s : State) : (raiseError c s).totBits = s.totBits := rfl
@[simp] theorem raiseError_mem (c : Cause) (s : State) : (raiseError c s).mem = s.mem := rfl
@[simp] theorem raiseError_eng (c : Cause) (s : State) : (raiseError c s).eng = s.eng := rfl
@[simp] theorem raiseError_due (c : Cause) (s : State) : (raiseError c s).due = s.due := rfl
@[simp] theorem raiseError_draws (c : Cause) (s : State) : (raiseError c s).draws = s.draws := rfl
@[simp] theorem raiseError_rdata (c : Cause) (s : State) : (raiseError c s).rdata = s.rdata := rfl
@[simp] theorem raiseError_pending (c : Cause) (s : State) : (raiseError c s).pending = s.pending := rfl

@[simp] theorem raiseError_busy (c : Cause) (s : State) : (raiseError c s).busy = s.busy := rfl

/-! ## ackStatus -/

@[simp] theorem ackStatus_ieDone (v : Word) (s : State) : (ackStatus v s).ieDone = s.ieDone := rfl
@[simp] theorem ackStatus_ieErr (v : Word) (s : State) : (ackStatus v s).ieErr = s.ieErr := rfl
@[simp] theorem ackStatus_done (v : Word) (s : State) : (ackStatus v s).done = (s.done && !v.getLsbD 1) := rfl
@[simp] theorem ackStatus_err (v : Word) (s : State) : (ackStatus v s).err = (s.err && !v.getLsbD 2) := rfl
@[simp] theorem ackStatus_fbk (v : Word) (s : State) : (ackStatus v s).fbk = s.fbk := rfl
@[simp] theorem ackStatus_rovf (v : Word) (s : State) : (ackStatus v s).rovf = s.rovf := rfl
@[simp] theorem ackStatus_ecause (v : Word) (s : State) : (ackStatus v s).ecause = s.ecause := rfl
@[simp] theorem ackStatus_cmd (v : Word) (s : State) : (ackStatus v s).cmd = s.cmd := rfl
@[simp] theorem ackStatus_par (v : Word) (s : State) : (ackStatus v s).par = s.par := rfl
@[simp] theorem ackStatus_optOrder (v : Word) (s : State) : (ackStatus v s).optOrder = s.optOrder := rfl
@[simp] theorem ackStatus_coefBits (v : Word) (s : State) : (ackStatus v s).coefBits = s.coefBits := rfl
@[simp] theorem ackStatus_parBits (v : Word) (s : State) : (ackStatus v s).parBits = s.parBits := rfl
@[simp] theorem ackStatus_resBits (v : Word) (s : State) : (ackStatus v s).resBits = s.resBits := rfl
@[simp] theorem ackStatus_totBits (v : Word) (s : State) : (ackStatus v s).totBits = s.totBits := rfl
@[simp] theorem ackStatus_mem (v : Word) (s : State) : (ackStatus v s).mem = s.mem := rfl
@[simp] theorem ackStatus_eng (v : Word) (s : State) : (ackStatus v s).eng = s.eng := rfl
@[simp] theorem ackStatus_due (v : Word) (s : State) : (ackStatus v s).due = s.due := rfl
@[simp] theorem ackStatus_draws (v : Word) (s : State) : (ackStatus v s).draws = s.draws := rfl
@[simp] theorem ackStatus_rdata (v : Word) (s : State) : (ackStatus v s).rdata = s.rdata := rfl
@[simp] theorem ackStatus_pending (v : Word) (s : State) : (ackStatus v s).pending = s.pending := rfl

@[simp] theorem ackStatus_busy (v : Word) (s : State) : (ackStatus v s).busy = s.busy := rfl

/-! ## latch -/

@[simp] theorem latch_ieDone (w : Word) (s : State) : (latch w s).ieDone = s.ieDone := rfl
@[simp] theorem latch_ieErr (w : Word) (s : State) : (latch w s).ieErr = s.ieErr := rfl
@[simp] theorem latch_done (w : Word) (s : State) : (latch w s).done = s.done := rfl
@[simp] theorem latch_err (w : Word) (s : State) : (latch w s).err = s.err := rfl
@[simp] theorem latch_fbk (w : Word) (s : State) : (latch w s).fbk = false := rfl
@[simp] theorem latch_rovf (w : Word) (s : State) : (latch w s).rovf = false := rfl
@[simp] theorem latch_ecause (w : Word) (s : State) : (latch w s).ecause = s.ecause := rfl
@[simp] theorem latch_cmd (w : Word) (s : State) : (latch w s).cmd = w := rfl
@[simp] theorem latch_par (w : Word) (s : State) : (latch w s).par = s.par := rfl
@[simp] theorem latch_optOrder (w : Word) (s : State) : (latch w s).optOrder = s.optOrder := rfl
@[simp] theorem latch_coefBits (w : Word) (s : State) : (latch w s).coefBits = s.coefBits := rfl
@[simp] theorem latch_parBits (w : Word) (s : State) : (latch w s).parBits = s.parBits := rfl
@[simp] theorem latch_resBits (w : Word) (s : State) : (latch w s).resBits = s.resBits := rfl
@[simp] theorem latch_totBits (w : Word) (s : State) : (latch w s).totBits = s.totBits := rfl
@[simp] theorem latch_mem (w : Word) (s : State) : (latch w s).mem = s.mem := rfl
@[simp] theorem latch_eng (w : Word) (s : State) : (latch w s).eng = .run w s.par := rfl
@[simp] theorem latch_due (w : Word) (s : State) : (latch w s).due = s.due := rfl
@[simp] theorem latch_draws (w : Word) (s : State) : (latch w s).draws = s.draws := rfl
@[simp] theorem latch_rdata (w : Word) (s : State) : (latch w s).rdata = s.rdata := rfl
@[simp] theorem latch_pending (w : Word) (s : State) : (latch w s).pending = s.pending := rfl

/-! ## latched -/

@[simp] theorem latched_ieDone (w : Word) (s : State) : (latched w s).ieDone = s.ieDone := rfl
@[simp] theorem latched_ieErr (w : Word) (s : State) : (latched w s).ieErr = s.ieErr := rfl
@[simp] theorem latched_done (w : Word) (s : State) : (latched w s).done = s.done := rfl
@[simp] theorem latched_err (w : Word) (s : State) : (latched w s).err = s.err := rfl
@[simp] theorem latched_fbk (w : Word) (s : State) : (latched w s).fbk = false := rfl
@[simp] theorem latched_rovf (w : Word) (s : State) : (latched w s).rovf = false := rfl
@[simp] theorem latched_ecause (w : Word) (s : State) : (latched w s).ecause = s.ecause := rfl
@[simp] theorem latched_cmd (w : Word) (s : State) : (latched w s).cmd = w := rfl
@[simp] theorem latched_par (w : Word) (s : State) : (latched w s).par = s.par := rfl
@[simp] theorem latched_optOrder (w : Word) (s : State) : (latched w s).optOrder = s.optOrder := rfl
@[simp] theorem latched_coefBits (w : Word) (s : State) : (latched w s).coefBits = s.coefBits := rfl
@[simp] theorem latched_parBits (w : Word) (s : State) : (latched w s).parBits = s.parBits := rfl
@[simp] theorem latched_resBits (w : Word) (s : State) : (latched w s).resBits = s.resBits := rfl
@[simp] theorem latched_totBits (w : Word) (s : State) : (latched w s).totBits = s.totBits := rfl
@[simp] theorem latched_mem (w : Word) (s : State) : (latched w s).mem = s.mem := rfl
@[simp] theorem latched_eng (w : Word) (s : State) : (latched w s).eng = .run w s.par := rfl
@[simp] theorem latched_due (w : Word) (s : State) : (latched w s).due = 0 := rfl
@[simp] theorem latched_draws (w : Word) (s : State) : (latched w s).draws = s.draws := rfl
@[simp] theorem latched_rdata (w : Word) (s : State) : (latched w s).rdata = s.rdata := rfl
@[simp] theorem latched_pending (w : Word) (s : State) : (latched w s).pending = s.pending := rfl

/-! ## complete -/

@[simp] theorem complete_ieDone (s : State) : (complete s).ieDone = s.ieDone := rfl
@[simp] theorem complete_ieErr (s : State) : (complete s).ieErr = s.ieErr := rfl
@[simp] theorem complete_done (s : State) : (complete s).done = true := rfl
@[simp] theorem complete_err (s : State) : (complete s).err = s.err := rfl
@[simp] theorem complete_fbk (s : State) : (complete s).fbk = s.fbk := rfl
@[simp] theorem complete_rovf (s : State) : (complete s).rovf = s.rovf := rfl
@[simp] theorem complete_ecause (s : State) : (complete s).ecause = s.ecause := rfl
@[simp] theorem complete_cmd (s : State) : (complete s).cmd = s.cmd := rfl
@[simp] theorem complete_par (s : State) : (complete s).par = s.par := rfl
@[simp] theorem complete_optOrder (s : State) : (complete s).optOrder = s.optOrder := rfl
@[simp] theorem complete_coefBits (s : State) : (complete s).coefBits = s.coefBits := rfl
@[simp] theorem complete_parBits (s : State) : (complete s).parBits = s.parBits := rfl
@[simp] theorem complete_resBits (s : State) : (complete s).resBits = s.resBits := rfl
@[simp] theorem complete_totBits (s : State) : (complete s).totBits = s.totBits := rfl
@[simp] theorem complete_mem (s : State) : (complete s).mem = s.mem := rfl
@[simp] theorem complete_eng (s : State) : (complete s).eng = .idle := rfl
@[simp] theorem complete_due (s : State) : (complete s).due = 0 := rfl
@[simp] theorem complete_draws (s : State) : (complete s).draws = s.draws := rfl
@[simp] theorem complete_rdata (s : State) : (complete s).rdata = s.rdata := rfl
@[simp] theorem complete_pending (s : State) : (complete s).pending = s.pending := rfl

/-! ## setRovf -/

@[simp] theorem setRovf_ieDone (es : List Int) (s : State) : (setRovf es s).ieDone = s.ieDone := rfl
@[simp] theorem setRovf_ieErr (es : List Int) (s : State) : (setRovf es s).ieErr = s.ieErr := rfl
@[simp] theorem setRovf_done (es : List Int) (s : State) : (setRovf es s).done = s.done := rfl
@[simp] theorem setRovf_err (es : List Int) (s : State) : (setRovf es s).err = s.err := rfl
@[simp] theorem setRovf_fbk (es : List Int) (s : State) : (setRovf es s).fbk = s.fbk := rfl
@[simp] theorem setRovf_rovf (es : List Int) (s : State) : (setRovf es s).rovf = (s.rovf || es.any (fun e => !fits32 e)) := rfl
@[simp] theorem setRovf_ecause (es : List Int) (s : State) : (setRovf es s).ecause = s.ecause := rfl
@[simp] theorem setRovf_cmd (es : List Int) (s : State) : (setRovf es s).cmd = s.cmd := rfl
@[simp] theorem setRovf_par (es : List Int) (s : State) : (setRovf es s).par = s.par := rfl
@[simp] theorem setRovf_optOrder (es : List Int) (s : State) : (setRovf es s).optOrder = s.optOrder := rfl
@[simp] theorem setRovf_coefBits (es : List Int) (s : State) : (setRovf es s).coefBits = s.coefBits := rfl
@[simp] theorem setRovf_parBits (es : List Int) (s : State) : (setRovf es s).parBits = s.parBits := rfl
@[simp] theorem setRovf_resBits (es : List Int) (s : State) : (setRovf es s).resBits = s.resBits := rfl
@[simp] theorem setRovf_totBits (es : List Int) (s : State) : (setRovf es s).totBits = s.totBits := rfl
@[simp] theorem setRovf_mem (es : List Int) (s : State) : (setRovf es s).mem = s.mem := rfl
@[simp] theorem setRovf_eng (es : List Int) (s : State) : (setRovf es s).eng = s.eng := rfl
@[simp] theorem setRovf_due (es : List Int) (s : State) : (setRovf es s).due = s.due := rfl
@[simp] theorem setRovf_draws (es : List Int) (s : State) : (setRovf es s).draws = s.draws := rfl
@[simp] theorem setRovf_rdata (es : List Int) (s : State) : (setRovf es s).rdata = s.rdata := rfl
@[simp] theorem setRovf_pending (es : List Int) (s : State) : (setRovf es s).pending = s.pending := rfl

@[simp] theorem setRovf_busy (es : List Int) (s : State) : (setRovf es s).busy = s.busy := rfl

/-! ## fallback -/

@[simp] theorem fallback_ieDone (s : State) : (fallback s).ieDone = s.ieDone := rfl
@[simp] theorem fallback_ieErr (s : State) : (fallback s).ieErr = s.ieErr := rfl
@[simp] theorem fallback_done (s : State) : (fallback s).done = s.done := rfl
@[simp] theorem fallback_err (s : State) : (fallback s).err = s.err := rfl
@[simp] theorem fallback_fbk (s : State) : (fallback s).fbk = true := rfl
@[simp] theorem fallback_rovf (s : State) : (fallback s).rovf = s.rovf := rfl
@[simp] theorem fallback_ecause (s : State) : (fallback s).ecause = s.ecause := rfl
@[simp] theorem fallback_cmd (s : State) : (fallback s).cmd = s.cmd := rfl
@[simp] theorem fallback_par (s : State) : (fallback s).par = s.par := rfl
@[simp] theorem fallback_optOrder (s : State) : (fallback s).optOrder = s.optOrder := rfl
@[simp] theorem fallback_coefBits (s : State) : (fallback s).coefBits = s.coefBits := rfl
@[simp] theorem fallback_parBits (s : State) : (fallback s).parBits = s.parBits := rfl
@[simp] theorem fallback_resBits (s : State) : (fallback s).resBits = s.resBits := rfl
@[simp] theorem fallback_totBits (s : State) : (fallback s).totBits = s.totBits := rfl
@[simp] theorem fallback_mem (s : State) : (fallback s).mem = (s.mem.writeElem .qcof 0 (BitVec.ofInt 32 qFb)).writeElem .rcof 0 (BitVec.ofInt 32 rFb) := rfl
@[simp] theorem fallback_eng (s : State) : (fallback s).eng = s.eng := rfl
@[simp] theorem fallback_due (s : State) : (fallback s).due = s.due := rfl
@[simp] theorem fallback_draws (s : State) : (fallback s).draws = s.draws := rfl
@[simp] theorem fallback_rdata (s : State) : (fallback s).rdata = s.rdata := rfl
@[simp] theorem fallback_pending (s : State) : (fallback s).pending = s.pending := rfl

@[simp] theorem fallback_busy (s : State) : (fallback s).busy = s.busy := rfl

/-! ## setCounts -/

@[simp] theorem setCounts_ieDone (R Q : Nat) (s : State) : (setCounts R Q s).ieDone = s.ieDone := rfl
@[simp] theorem setCounts_ieErr (R Q : Nat) (s : State) : (setCounts R Q s).ieErr = s.ieErr := rfl
@[simp] theorem setCounts_done (R Q : Nat) (s : State) : (setCounts R Q s).done = s.done := rfl
@[simp] theorem setCounts_err (R Q : Nat) (s : State) : (setCounts R Q s).err = s.err := rfl
@[simp] theorem setCounts_fbk (R Q : Nat) (s : State) : (setCounts R Q s).fbk = s.fbk := rfl
@[simp] theorem setCounts_rovf (R Q : Nat) (s : State) : (setCounts R Q s).rovf = s.rovf := rfl
@[simp] theorem setCounts_ecause (R Q : Nat) (s : State) : (setCounts R Q s).ecause = s.ecause := rfl
@[simp] theorem setCounts_cmd (R Q : Nat) (s : State) : (setCounts R Q s).cmd = s.cmd := rfl
@[simp] theorem setCounts_par (R Q : Nat) (s : State) : (setCounts R Q s).par = s.par := rfl
@[simp] theorem setCounts_optOrder (R Q : Nat) (s : State) : (setCounts R Q s).optOrder = s.optOrder := rfl
@[simp] theorem setCounts_coefBits (R Q : Nat) (s : State) : (setCounts R Q s).coefBits = s.coefBits := rfl
@[simp] theorem setCounts_parBits (R Q : Nat) (s : State) : (setCounts R Q s).parBits = BitVec.ofNat 32 Q := rfl
@[simp] theorem setCounts_resBits (R Q : Nat) (s : State) : (setCounts R Q s).resBits = BitVec.ofNat 64 R := rfl
@[simp] theorem setCounts_totBits (R Q : Nat) (s : State) : (setCounts R Q s).totBits = BitVec.ofNat 64 (R + Q) := rfl
@[simp] theorem setCounts_mem (R Q : Nat) (s : State) : (setCounts R Q s).mem = s.mem := rfl
@[simp] theorem setCounts_eng (R Q : Nat) (s : State) : (setCounts R Q s).eng = s.eng := rfl
@[simp] theorem setCounts_due (R Q : Nat) (s : State) : (setCounts R Q s).due = s.due := rfl
@[simp] theorem setCounts_draws (R Q : Nat) (s : State) : (setCounts R Q s).draws = s.draws := rfl
@[simp] theorem setCounts_rdata (R Q : Nat) (s : State) : (setCounts R Q s).rdata = s.rdata := rfl
@[simp] theorem setCounts_pending (R Q : Nat) (s : State) : (setCounts R Q s).pending = s.pending := rfl

@[simp] theorem setCounts_busy (R Q : Nat) (s : State) : (setCounts R Q s).busy = s.busy := rfl

/-! ## setChoice -/

@[simp] theorem setChoice_ieDone (c : Choice) (s : State) : (setChoice c s).ieDone = s.ieDone := rfl
@[simp] theorem setChoice_ieErr (c : Choice) (s : State) : (setChoice c s).ieErr = s.ieErr := rfl
@[simp] theorem setChoice_done (c : Choice) (s : State) : (setChoice c s).done = s.done := rfl
@[simp] theorem setChoice_err (c : Choice) (s : State) : (setChoice c s).err = s.err := rfl
@[simp] theorem setChoice_fbk (c : Choice) (s : State) : (setChoice c s).fbk = s.fbk := rfl
@[simp] theorem setChoice_rovf (c : Choice) (s : State) : (setChoice c s).rovf = s.rovf := rfl
@[simp] theorem setChoice_ecause (c : Choice) (s : State) : (setChoice c s).ecause = s.ecause := rfl
@[simp] theorem setChoice_cmd (c : Choice) (s : State) : (setChoice c s).cmd = s.cmd := rfl
@[simp] theorem setChoice_par (c : Choice) (s : State) : (setChoice c s).par = { s.par with subblocks := BitVec.ofNat 4 c.blocks, spar := sparOf c.params } := rfl
@[simp] theorem setChoice_optOrder (c : Choice) (s : State) : (setChoice c s).optOrder = s.optOrder := rfl
@[simp] theorem setChoice_coefBits (c : Choice) (s : State) : (setChoice c s).coefBits = s.coefBits := rfl
@[simp] theorem setChoice_parBits (c : Choice) (s : State) : (setChoice c s).parBits = BitVec.ofNat 32 c.parBits := rfl
@[simp] theorem setChoice_resBits (c : Choice) (s : State) : (setChoice c s).resBits = BitVec.ofNat 64 c.resBits := rfl
@[simp] theorem setChoice_totBits (c : Choice) (s : State) : (setChoice c s).totBits = BitVec.ofNat 64 (c.resBits + c.parBits) := rfl
@[simp] theorem setChoice_mem (c : Choice) (s : State) : (setChoice c s).mem = s.mem := rfl
@[simp] theorem setChoice_eng (c : Choice) (s : State) : (setChoice c s).eng = s.eng := rfl
@[simp] theorem setChoice_due (c : Choice) (s : State) : (setChoice c s).due = s.due := rfl
@[simp] theorem setChoice_draws (c : Choice) (s : State) : (setChoice c s).draws = s.draws := rfl
@[simp] theorem setChoice_rdata (c : Choice) (s : State) : (setChoice c s).rdata = s.rdata := rfl
@[simp] theorem setChoice_pending (c : Choice) (s : State) : (setChoice c s).pending = s.pending := rfl

@[simp] theorem setChoice_busy (c : Choice) (s : State) : (setChoice c s).busy = s.busy := rfl

/-! ## failRead -/

@[simp] theorem failRead_ieDone (c : Cause) (s : State) : (failRead c s).ieDone = s.ieDone := rfl
@[simp] theorem failRead_ieErr (c : Cause) (s : State) : (failRead c s).ieErr = s.ieErr := rfl
@[simp] theorem failRead_done (c : Cause) (s : State) : (failRead c s).done = s.done := rfl
@[simp] theorem failRead_err (c : Cause) (s : State) : (failRead c s).err = true := rfl
@[simp] theorem failRead_fbk (c : Cause) (s : State) : (failRead c s).fbk = s.fbk := rfl
@[simp] theorem failRead_rovf (c : Cause) (s : State) : (failRead c s).rovf = s.rovf := rfl
@[simp] theorem failRead_ecause (c : Cause) (s : State) : (failRead c s).ecause = c := rfl
@[simp] theorem failRead_cmd (c : Cause) (s : State) : (failRead c s).cmd = s.cmd := rfl
@[simp] theorem failRead_par (c : Cause) (s : State) : (failRead c s).par = s.par := rfl
@[simp] theorem failRead_optOrder (c : Cause) (s : State) : (failRead c s).optOrder = s.optOrder := rfl
@[simp] theorem failRead_coefBits (c : Cause) (s : State) : (failRead c s).coefBits = s.coefBits := rfl
@[simp] theorem failRead_parBits (c : Cause) (s : State) : (failRead c s).parBits = s.parBits := rfl
@[simp] theorem failRead_resBits (c : Cause) (s : State) : (failRead c s).resBits = s.resBits := rfl
@[simp] theorem failRead_totBits (c : Cause) (s : State) : (failRead c s).totBits = s.totBits := rfl
@[simp] theorem failRead_mem (c : Cause) (s : State) : (failRead c s).mem = s.mem := rfl
@[simp] theorem failRead_eng (c : Cause) (s : State) : (failRead c s).eng = s.eng := rfl
@[simp] theorem failRead_due (c : Cause) (s : State) : (failRead c s).due = s.due := rfl
@[simp] theorem failRead_draws (c : Cause) (s : State) : (failRead c s).draws = s.draws := rfl
@[simp] theorem failRead_rdata (c : Cause) (s : State) : (failRead c s).rdata = 0#32 := rfl
@[simp] theorem failRead_pending (c : Cause) (s : State) : (failRead c s).pending = s.pending := rfl

@[simp] theorem failRead_busy (c : Cause) (s : State) : (failRead c s).busy = s.busy := rfl

/-! ## afterPop -/

@[simp] theorem afterPop_ieDone (s : State) (rest : List HostOp) : (s.afterPop rest).ieDone = s.ieDone := rfl
@[simp] theorem afterPop_ieErr (s : State) (rest : List HostOp) : (s.afterPop rest).ieErr = s.ieErr := rfl
@[simp] theorem afterPop_done (s : State) (rest : List HostOp) : (s.afterPop rest).done = s.done := rfl
@[simp] theorem afterPop_err (s : State) (rest : List HostOp) : (s.afterPop rest).err = s.err := rfl
@[simp] theorem afterPop_fbk (s : State) (rest : List HostOp) : (s.afterPop rest).fbk = s.fbk := rfl
@[simp] theorem afterPop_rovf (s : State) (rest : List HostOp) : (s.afterPop rest).rovf = s.rovf := rfl
@[simp] theorem afterPop_ecause (s : State) (rest : List HostOp) : (s.afterPop rest).ecause = s.ecause := rfl
@[simp] theorem afterPop_cmd (s : State) (rest : List HostOp) : (s.afterPop rest).cmd = s.cmd := rfl
@[simp] theorem afterPop_par (s : State) (rest : List HostOp) : (s.afterPop rest).par = s.par := rfl
@[simp] theorem afterPop_optOrder (s : State) (rest : List HostOp) : (s.afterPop rest).optOrder = s.optOrder := rfl
@[simp] theorem afterPop_coefBits (s : State) (rest : List HostOp) : (s.afterPop rest).coefBits = s.coefBits := rfl
@[simp] theorem afterPop_parBits (s : State) (rest : List HostOp) : (s.afterPop rest).parBits = s.parBits := rfl
@[simp] theorem afterPop_resBits (s : State) (rest : List HostOp) : (s.afterPop rest).resBits = s.resBits := rfl
@[simp] theorem afterPop_totBits (s : State) (rest : List HostOp) : (s.afterPop rest).totBits = s.totBits := rfl
@[simp] theorem afterPop_mem (s : State) (rest : List HostOp) : (s.afterPop rest).mem = s.mem := rfl
@[simp] theorem afterPop_eng (s : State) (rest : List HostOp) : (s.afterPop rest).eng = s.eng := rfl
@[simp] theorem afterPop_due (s : State) (rest : List HostOp) : (s.afterPop rest).due = if s.busy then s.due - 1 else s.due := rfl
@[simp] theorem afterPop_draws (s : State) (rest : List HostOp) : (s.afterPop rest).draws = s.draws := rfl
@[simp] theorem afterPop_rdata (s : State) (rest : List HostOp) : (s.afterPop rest).rdata = s.rdata := rfl
@[simp] theorem afterPop_pending (s : State) (rest : List HostOp) : (s.afterPop rest).pending = rest := rfl

@[simp] theorem afterPop_busy (s : State) (rest : List HostOp) : (s.afterPop rest).busy = s.busy := rfl

@[simp] theorem latch_busy (w : Word) (s : State) : (latch w s).busy = true := rfl

@[simp] theorem complete_busy (s : State) : (complete s).busy = false := rfl

/-! ## The two states of the engine -/

@[simp] theorem busy_of_idle {s : State} (h : s.eng = .idle) : s.busy = false := by simp [State.busy, h]

@[simp] theorem busy_of_run {s : State} {w : Word} {snap : ParamRegs} (h : s.eng = .run w snap) : s.busy = true := by simp [State.busy, h]

theorem idle_of_not_busy {s : State} (h : s.busy = false) : s.eng = .idle := by
  unfold State.busy at h
  split at h
  · assumption
  · cases h

theorem run_of_busy {s : State} (h : s.busy = true) : ∃ w snap, s.eng = .run w snap := by
  unfold State.busy at h
  split at h
  · cases h
  · exact ⟨_, _, by assumption⟩

/-! ## loadLpc -/

theorem loadLpc_mem (rc : List Int) (s : State) : (loadLpc rc s).mem =
    (if latticeOverflows rc then (s.mem.writeElem .qcof 0 (BitVec.ofInt 32 qFb)).writeElem .rcof 0 (BitVec.ofInt 32 rFb) else s.mem).writeRange
      .lpc 0 (lattice (effectiveRc rc)) := by
  unfold loadLpc; split <;> rfl

@[simp] theorem loadLpc_optOrder (rc : List Int) (s : State) :
    (loadLpc rc s).optOrder = BitVec.ofNat 10 (effectiveRc rc).length := by
  unfold loadLpc; split <;> rfl

theorem loadLpc_fbk (rc : List Int) (s : State) : (loadLpc rc s).fbk = (s.fbk || latticeOverflows rc) := by
  unfold loadLpc
  cases h : latticeOverflows rc <;> simp

/-- Loading LPC changes only the arrays, OPT_ORDER and FBK. -/
theorem loadLpc_eq (rc : List Int) (s : State) :
    loadLpc rc s = { s with mem := (loadLpc rc s).mem, optOrder := (loadLpc rc s).optOrder, fbk := (loadLpc rc s).fbk } := by
  unfold loadLpc; split <;> rfl

/-! ## What ORDSEL leaves unspecified -/

/-- Scratch changes only the arrays, SUBBLOCKS, SPAR, RESBITS, PARBITS and the count of free values. -/
theorem ordselScratch_eq (P : Nat) (s : State) :
    ordselScratch P s = { s with
      mem := (s.mem.havocRange s.draws .res 0 s.blockLen).havocRange s.draws .lpc 0 (max (P - 1) 0 + 1)
      par := { s.par with subblocks := (ordselScratch P s).par.subblocks, spar := (ordselScratch P s).par.spar }
      resBits := (ordselScratch P s).resBits
      parBits := (ordselScratch P s).parBits
      draws := s.draws + 1 } := rfl

end Sys2Proof.Machine
end

