-- ==== Sys2Proof/Laws/Exec.lean ====
section
/-! SUPPORT. One inversion lemma per command: what its completion answers, and when. -/
namespace Sys2Proof.Machine

open Sys2Proof

/-! ## finish -/

@[simp] theorem finish_ok (u : State) : finish (.ok u) = .next (complete u) := rfl
@[simp] theorem finish_error (f : Fault) : finish (.error f) = .fault f := rfl

theorem finish_next {r : Except Fault State} {t : State} : finish r = .next t ↔ ∃ u, r = .ok u ∧ t = complete u := by
  cases r <;> simp [finish, eq_comm]

theorem finish_fault {r : Except Fault State} {f : Fault} : finish r = .fault f ↔ r = .error f := by
  cases r <;> simp [finish]

theorem finish_ne_refused (r : Except Fault State) (q : Refusal) : finish r ≠ .refused q := by
  cases r <;> simp [finish]

/-! ## The commands -/

theorem exec_nop (s : State) : exec .nop s = .next (complete s) := rfl

theorem exec_quant_next {n : Nat} {s t : State} : exec (.quant n) s = .next t ↔ ∃ ps, s.mem.readRange .parcor 0 n = .ok ps ∧
    t = complete { s with mem := (s.mem.writeRange .qcof 0 (ps.mapIdx quant)).writeRange .rcof 0 ((ps.mapIdx quant).mapIdx recon) } := by
  simp only [exec, execQuant, finish_next, quantOp]
  constructor
  · rintro ⟨u, h, rfl⟩
    split at h
    · cases h
    · cases h; exact ⟨_, by assumption, rfl⟩
  · rintro ⟨ps, h, rfl⟩
    exact ⟨_, by rw [h], rfl⟩

theorem exec_recon_next {n : Nat} {s t : State} : exec (.recon n) s = .next t ↔ ∃ qs, s.mem.readRange .qcof 0 n = .ok qs ∧
    t = complete { s with mem := s.mem.writeRange .rcof 0 (qs.mapIdx recon) } := by
  simp only [exec, execRecon, finish_next, reconOp]
  constructor
  · rintro ⟨u, h, rfl⟩
    split at h
    · cases h
    · cases h; exact ⟨_, by assumption, rfl⟩
  · rintro ⟨qs, h, rfl⟩
    exact ⟨_, by rw [h], rfl⟩

theorem exec_coefbits_next {n ct : Nat} {s t : State} : exec (.coefbits n ct) s = .next t ↔ ∃ qs, s.mem.readRange .qcof 0 n = .ok qs ∧
    t = complete { s with
      coefBits := BitVec.ofNat 32 (coefTotal Config.params ct qs), totBits := BitVec.ofNat 64 (coefTotal Config.params ct qs) } := by
  simp only [exec, execCoefbits, finish_next, coefbitsOp]
  constructor
  · rintro ⟨u, h, rfl⟩
    split at h
    · cases h
    · cases h; exact ⟨_, by assumption, rfl⟩
  · rintro ⟨qs, h, rfl⟩
    exact ⟨_, by rw [h], rfl⟩

theorem exec_p2l_next {r : Nat} {s t : State} :
    exec (.p2l r) s = .next t ↔ ∃ rc, s.mem.readRange .rcof 0 r = .ok rc ∧ t = complete (loadLpc rc s) := by
  simp only [exec, execP2l, finish_next, p2lOp]
  constructor
  · rintro ⟨u, h, rfl⟩
    split at h
    · cases h
    · cases h; exact ⟨_, by assumption, rfl⟩
  · rintro ⟨rc, h, rfl⟩
    exact ⟨_, by rw [h], rfl⟩

/-- The block's residuals are computed exactly when its samples are read (R196, R199). -/
theorem blockResiduals_ok {ra : Bool} {rc : List Int} {s : State} {es : List Int} : blockResiduals ra rc s = .ok es ↔
    ∃ xs, s.mem.readRange .smp (1024 - historyLen ra rc.length) (historyLen ra rc.length + s.blockLen) = .ok xs ∧
      es = residuals ra rc (sampleAt xs (historyLen ra rc.length)) s.blockLen := by
  have hword : smpWord (-(historyLen ra rc.length : Int)) = 1024 - historyLen ra rc.length := by
    simp only [smpWord]
    omega
  simp only [blockResiduals, readSamples, hword]
  constructor
  · intro h
    split at h
    · cases h
    · cases h; exact ⟨_, by assumption, rfl⟩
  · rintro ⟨xs, h, rfl⟩
    rw [h]

theorem exec_resid_next {r : Nat} {ra : Bool} {s t : State} : exec (.resid r ra) s = .next t ↔
    ∃ rc es, s.mem.readRange .rcof 0 r = .ok rc ∧ blockResiduals ra (effectiveRc rc) s = .ok es ∧
      t = complete (setRovf es { loadLpc rc s with mem := (loadLpc rc s).mem.writeRange .res 0 (es.map wrap32) }) := by
  simp only [exec, execResid, finish_next, residOp]
  constructor
  · rintro ⟨u, h, rfl⟩
    split at h
    · cases h
    · split at h
      · cases h
      · cases h; exact ⟨_, _, by assumption, by assumption, rfl⟩
  · rintro ⟨rc, es, h, h', rfl⟩
    exact ⟨_, by rw [h]; simp only [h'], rfl⟩

theorem readBlock_ok {s : State} {r : Nat} {ra : Bool} {blk : Block} :
    readBlock s r ra = .ok blk ↔ ∃ es, s.mem.readRange .res 0 s.blockLen = .ok es ∧ blk = ⟨s.par, r, ra, es⟩ := by
  simp only [readBlock]
  constructor
  · intro h
    split at h
    · cases h
    · cases h; exact ⟨_, by assumption, rfl⟩
  · rintro ⟨es, h, rfl⟩
    rw [h]

theorem exec_ricebits_next {r : Nat} {ra : Bool} {s t : State} : exec (.ricebits r ra) s = .next t ↔
    ∃ es, s.mem.readRange .res 0 s.blockLen = .ok es ∧
      t = complete (setCounts (riceResBits ⟨s.par, r, ra, es⟩ s.par.subblocks.toNat (s.par.sparList s.par.subblocks.toNat))
        (riceParBits s.par (s.par.sparList s.par.subblocks.toNat)) s) := by
  simp only [exec, execRicebits, finish_next, ricebitsOp]
  constructor
  · rintro ⟨u, h, rfl⟩
    split at h
    · cases h
    · rename_i blk hb
      obtain ⟨es, he, rfl⟩ := readBlock_ok.mp hb
      cases h
      exact ⟨es, he, rfl⟩
  · rintro ⟨es, he, rfl⟩
    exact ⟨_, by rw [readBlock_ok.mpr ⟨es, he, rfl⟩], rfl⟩

theorem exec_bgmcbits_next {r : Nat} {ra : Bool} {s t : State} : exec (.bgmcbits r ra) s = .next t ↔
    ∃ es, s.mem.readRange .res 0 s.blockLen = .ok es ∧
      t = complete (setCounts
        (bgmcResBits Config.params ⟨s.par, r, ra, es⟩ s.par.subblocks.toNat (s.par.sparList s.par.subblocks.toNat))
        (bgmcParBits s.par (s.par.sparList s.par.subblocks.toNat)) s) := by
  simp only [exec, execBgmcbits, finish_next, bgmcbitsOp]
  constructor
  · rintro ⟨u, h, rfl⟩
    split at h
    · cases h
    · rename_i blk hb
      obtain ⟨es, he, rfl⟩ := readBlock_ok.mp hb
      cases h
      exact ⟨es, he, rfl⟩
  · rintro ⟨es, he, rfl⟩
    exact ⟨_, by rw [readBlock_ok.mpr ⟨es, he, rfl⟩], rfl⟩

theorem exec_ricesrch_next {r : Nat} {ra xe : Bool} {s t : State} : exec (.ricesrch r ra xe) s = .next t ↔
    ∃ es, s.mem.readRange .res 0 s.blockLen = .ok es ∧ t = complete (setChoice (riceBest ⟨s.par, r, ra, es⟩ xe) s) := by
  simp only [exec, execRicesrch, finish_next, ricesrchOp]
  constructor
  · rintro ⟨u, h, rfl⟩
    split at h
    · cases h
    · rename_i blk hb
      obtain ⟨es, he, rfl⟩ := readBlock_ok.mp hb
      cases h
      exact ⟨es, he, rfl⟩
  · rintro ⟨es, he, rfl⟩
    exact ⟨_, by rw [readBlock_ok.mpr ⟨es, he, rfl⟩], rfl⟩

theorem exec_bgmcsrch_next {r : Nat} {ra xe : Bool} {s t : State} : exec (.bgmcsrch r ra xe) s = .next t ↔
    ∃ es, s.mem.readRange .res 0 s.blockLen = .ok es ∧
      t = complete (setChoice (bgmcBest Config.params ⟨s.par, r, ra, es⟩ xe) s) := by
  simp only [exec, execBgmcsrch, finish_next, bgmcsrchOp]
  constructor
  · rintro ⟨u, h, rfl⟩
    split at h
    · cases h
    · rename_i blk hb
      obtain ⟨es, he, rfl⟩ := readBlock_ok.mp hb
      cases h
      exact ⟨es, he, rfl⟩
  · rintro ⟨es, he, rfl⟩
    exact ⟨_, by rw [readBlock_ok.mpr ⟨es, he, rfl⟩], rfl⟩

theorem exec_ordsel_next {n ct : Nat} {xo xe ra vd bg : Bool} {s t : State} : exec (.ordsel n ct xo xe ra vd bg) s = .next t ↔
    ∃ a, orderScan (orderCost Config.params s n ⟨ct, xo, xe, ra, vd, bg⟩) vd (valleyT n) ⟨none, 0, 0⟩ 0 (n + 1) = .ok a ∧
      t = complete { ordselScratch n s with optOrder := BitVec.ofNat 10 a.kbest, totBits := BitVec.ofNat 64 (a.best.getD 0) } := by
  simp only [exec, execOrdsel, finish_next, ordselOp]
  constructor
  · rintro ⟨u, h, rfl⟩
    split at h
    · cases h
    · cases h; exact ⟨_, by assumption, rfl⟩
  · rintro ⟨a, h, rfl⟩
    exact ⟨_, by rw [h], rfl⟩

/-! ## No command refuses -/

theorem exec_ne_refused (i : Instr) (s : State) (q : Refusal) : exec i s ≠ .refused q := by
  cases i <;>
    simp only [exec, execNop, execQuant, execRecon, execCoefbits, execP2l, execResid, execRicebits, execRicesrch, execBgmcbits, execBgmcsrch,
      execOrdsel] <;> exact finish_ne_refused _ q

/-! ## What makes a command stop -/

/-- A range that does not read makes the commands that read it stop with the same fault. -/
theorem exec_quant_fault {n : Nat} {s : State} {f : Fault} (h : s.mem.readRange .parcor 0 n = .error f) : exec (.quant n) s = .fault f := by
  simp [exec, execQuant, quantOp, h]

theorem exec_recon_fault {n : Nat} {s : State} {f : Fault} (h : s.mem.readRange .qcof 0 n = .error f) : exec (.recon n) s = .fault f := by
  simp [exec, execRecon, reconOp, h]

theorem exec_coefbits_fault {n ct : Nat} {s : State} {f : Fault} (h : s.mem.readRange .qcof 0 n = .error f) :
    exec (.coefbits n ct) s = .fault f := by
  simp [exec, execCoefbits, coefbitsOp, h]

theorem exec_p2l_fault {n : Nat} {s : State} {f : Fault} (h : s.mem.readRange .rcof 0 n = .error f) : exec (.p2l n) s = .fault f := by
  simp [exec, execP2l, p2lOp, h]

theorem exec_resid_fault {n : Nat} {ra : Bool} {s : State} {f : Fault} (h : s.mem.readRange .rcof 0 n = .error f) :
    exec (.resid n ra) s = .fault f := by
  simp [exec, execResid, residOp, h]

theorem exec_entropy_fault {s : State} {f : Fault} (h : s.mem.readRange .res 0 s.blockLen = .error f) (r : Nat) (ra xe : Bool) :
    exec (.ricebits r ra) s = .fault f ∧ exec (.ricesrch r ra xe) s = .fault f ∧ exec (.bgmcbits r ra) s = .fault f ∧
      exec (.bgmcsrch r ra xe) s = .fault f := by
  have hb : readBlock s r ra = .error f := by simp [readBlock, h]
  refine ⟨?_, ?_, ?_, ?_⟩
  · simp [exec, execRicebits, ricebitsOp, hb]
  · simp [exec, execRicesrch, ricesrchOp, hb]
  · simp [exec, execBgmcbits, bgmcbitsOp, hb]
  · simp [exec, execBgmcsrch, bgmcsrchOp, hb]

end Sys2Proof.Machine
end

