-- ==== Sys2Proof/Laws/Written.lean ====
section
/-! SUPPORT. Written words (spec/70_reset_and_hazards.md R341–R343): what stays written, what becomes written, and which read faults. -/
namespace Sys2Proof.Machine

open Sys2Proof

/-- A written word stays written when any word is stored (spec/70_reset_and_hazards.md R341). -/
theorem Memory.written_writeWord (m : Memory) (a : Nat) (v : Word) (x : Nat) (h : (m.readWord x).isSome = true) : ((m.writeWord a v).readWord x).isSome = true := by
  rw [Memory.readWord_isSome] at h ⊢
  simp only [Memory.readByte_writeWord]
  intro k hk
  have := h k hk
  (repeat' split) <;> simp_all

theorem Memory.written_writeRange (w : Window) : ∀ (vs : List Int) (j : Nat) (m : Memory) (x : Nat), (m.readWord x).isSome = true →
    ((m.writeRange w j vs).readWord x).isSome = true
  | [], _, _, _, h => h
  | _ :: vs, j, _, x, h => Memory.written_writeRange w vs (j + 1) _ x (Memory.written_writeWord _ _ _ _ h)

theorem Memory.written_havocRange (d : Nat) (w : Window) : ∀ n j (m : Memory) x, (m.readWord x).isSome = true → ((m.havocRange d w j n).readWord x).isSome = true
  | 0, _, _, _, h => h
  | n+1, j, _, x, h => Memory.written_havocRange d w n (j+1) _ x (Memory.written_writeWord _ _ _ _ h)

/-- A range that has got free values is written (R342). -/
theorem Memory.havocRange_written (d : Nat) (w : Window) : ∀ n j (m : Memory), (m.havocRange d w j n).Written w j n
  | 0, j, m => fun i hi => by omega
  | n+1, j, m => fun i hi => by
    rcases i with _ | i
    · exact Memory.written_havocRange d w n (j+1) _ _ (by simp [Memory.writeElem])
    · have := Memory.havocRange_written d w n (j+1) (m.writeElem w j (Config.freeWord d (w.addr j))) i (by omega)
      rw [show j + (i+1) = j+1+i by omega]; exact this

theorem Memory.written_havocAll (d : Nat) : ∀ (l : List (Window × Nat × Nat)) (m : Memory) x, (m.readWord x).isSome = true → ((m.havocAll d l).readWord x).isSome = true
  | [], _, _, h => h
  | (w,j,n) :: l, m, x, h => Memory.written_havocAll d l _ x (Memory.written_havocRange d w n j m x h)

/-- Every range of an abandoned write set is written afterwards (R342). -/
theorem Memory.havocAll_written (d : Nat) : ∀ (l : List (Window × Nat × Nat)) (m : Memory), ∀ q ∈ l, (m.havocAll d l).Written q.1 q.2.1 q.2.2
  | [], m => by simp
  | (w,j,n) :: l, m => by
    intro q hq
    rcases List.mem_cons.mp hq with rfl | hq
    · intro i hi; exact Memory.written_havocAll d l _ _ (Memory.havocRange_written d w n j m i hi)
    · exact Memory.havocAll_written d l _ q hq

/-- Free values change no byte outside their ranges. -/
theorem Memory.readByte_havocAll_other (d : Nat) : ∀ (l : List (Window × Nat × Nat)) (m : Memory) a, (∀ q ∈ l, ¬ StoredAt q.1 q.2.1 q.2.2 a) → (m.havocAll d l).readByte a = m.readByte a
  | [], m, a, h => rfl
  | (w,j,n) :: l, m, a, h => by
    simp only [Memory.havocAll]
    rw [Memory.readByte_havocAll_other d l _ a fun q hq => h q (List.mem_cons_of_mem _ hq), Memory.readByte_havocRange_other (h (w,j,n) (by simp))]

/-- The first unwritten word of a range is the fault of reading it (R343). -/
theorem Memory.readRange_unwritten {m : Memory} {w : Window} : ∀ n j0 j, j < n → j0 + j < w.words → (∀ k, k < j → (m.readWord (w.addr (j0+k))).isSome = true) → m.readWord (w.addr (j0+j)) = none → m.readRange w j0 n = .error (.unwrittenRead (w.addr (j0+j)))
  | 0, j0, j, h, hw, h1, h2 => by omega
  | n+1, j0, j, h, hw, h1, h2 => by
    rcases j with _ | j
    · simp only [Nat.add_zero] at h2
      have : j0 < w.words := by omega
      simp [Memory.readRange, Memory.readElem, this, h2]
    · obtain ⟨v, hv⟩ := Option.isSome_iff_exists.mp (h1 0 (by omega))
      have hlt : j0 < w.words := by omega
      have this : m.readRange w (j0+1) n = .error (.unwrittenRead (w.addr (j0+1+j))) :=
        Memory.readRange_unwritten n (j0+1) j (by omega) (by omega) (fun k hk => by have := h1 (k+1) (by omega); rwa [show j0+(k+1) = j0+1+k by omega] at this) (by rwa [show j0+(j+1) = j0+1+j by omega] at h2)
      simp only [Nat.add_zero] at hv
      rw [Memory.readRange]
      simp only [Memory.readElem, hlt, hv, this, if_true]
      rw [show j0+(j+1) = j0+1+j by omega]

theorem Window.addr_toNat (w : Window) {j : Nat} (hj : j < w.words) : (BitVec.ofNat 24 (w.addr j)).toNat = w.addr j := by
  have : w.addr j < 2^24 := by cases w <;> simp only [Window.words] at hj <;> simp only [Window.addr, Window.base] <;> omega
  simp; omega

/-- An offset is unmapped exactly when it is outside the CSR page and the windows (R82–R84). -/
theorem regionOf_unmapped_iff (a : Nat) : regionOf a = .unmapped ↔ ¬ Mapped a := by
  unfold regionOf
  have hf : ∀ w : Window, (allWindows.find? (fun w => w.holds a)) = some w → Mapped a := by
    intro w h
    have := List.find?_some h
    simp only [Window.holds, Bool.and_eq_true, decide_eq_true_eq] at this
    cases w <;> simp only [Window.base, Window.words] at this <;> unfold Mapped <;> omega
  split
  · simp only [reduceCtorEq, false_iff, not_not]
    exact .inl (by assumption)
  · split
    · rename_i w h
      simp only [reduceCtorEq, false_iff, not_not]
      exact hf w h
    · rename_i h
      rw [List.find?_eq_none] at h
      have h2 : ∀ w ∈ allWindows, ¬ (w.base ≤ a ∧ a < w.base + 4 * w.words) := by
        intro w hw; have := h w hw; simpa [Window.holds] using this
      simp only [allWindows, List.forall_mem_cons, Window.base, Window.words] at h2
      split
      · simp only [reduceCtorEq, false_iff, not_not]; unfold Mapped; omega
      · split
        · simp only [reduceCtorEq, false_iff, not_not]; unfold Mapped; omega
        · simp only [true_iff]; unfold Mapped; omega

end Sys2Proof.Machine
end

