-- ==== Sys2Proof/Laws/OrderSelect.lean ====
section
/-! SUPPORT. The order selection (spec/41_order_select.md): when a cost is computed, when it stops, and what the loop returns. -/
namespace Sys2Proof.Machine

open Sys2Proof

/-- The loop's result: its start, or an order it evaluated, whose cost is below the start's best (R176). -/
theorem orderScan_spec (cost : Nat → Except Fault Cost) (vd : Bool) (T N : Nat) : ∀ count k a b,
   k + count ≤ N → orderScan cost vd T a k count = .ok b →
   ((b.best = a.best ∧ b.kbest = a.kbest) ∨ (k ≤ b.kbest ∧ b.kbest < k + count ∧ cost b.kbest = .ok b.best ∧ Cost.lt b.best a.best = true))
  | 0, k, a, b, hN, h => by simp [orderScan] at h; subst h; simp
  | count+1, k, a, b, hN, h => by
    simp only [orderScan] at h
    cases hc : cost k with
    | error f => rw [hc] at h; cases h
    | ok c =>
      rw [hc] at h
      simp only at h
      have hsee : (Cost.lt c a.best = true ∧ (a.see k c).best = c ∧ (a.see k c).kbest = k) ∨ ((a.see k c).best = a.best ∧ (a.see k c).kbest = a.kbest) := by
        unfold OrderScan.see
        by_cases hl : Cost.lt c a.best = true
        · left; simp [hl]
        · right; simp [hl]
      have hrest : ((b.best = (a.see k c).best ∧ b.kbest = (a.see k c).kbest) ∨ (k+1 ≤ b.kbest ∧ b.kbest < k + 1 + count ∧ cost b.kbest = .ok b.best ∧ Cost.lt b.best (a.see k c).best = true)) := by
        split at h
        · cases h; simp
        · exact (orderScan_spec cost vd T N count (k+1) _ b (by omega) h)
      rcases hsee with ⟨l, e1, e2⟩ | ⟨e1, e2⟩ <;> rcases hrest with ⟨r1, r2⟩ | ⟨r1, r2, r3, r4⟩
      · right; rw [e1] at r1; rw [e2] at r2; rw [r1, r2]; exact ⟨le_refl _, by omega, hc, l⟩
      · right; rw [e1] at r4; exact ⟨by omega, by omega, r3, Cost.lt_trans r4 l⟩
      · left; exact ⟨r1.trans e1, r2.trans e2⟩
      · right; rw [e1] at r4; exact ⟨by omega, by omega, r3, r4⟩

theorem orderScan_total (cost : Nat → Except Fault Cost) (vd : Bool) (T : Nat) : ∀ count k a, (∀ i, k ≤ i → i < k + count → ∃ c, cost i = .ok c) → ∃ b, orderScan cost vd T a k count = .ok b
  | 0, k, a, h => ⟨a, rfl⟩
  | count+1, k, a, h => by
    obtain ⟨c, hc⟩ := h k le_rfl (by omega)
    simp only [orderScan, hc]
    split
    · exact ⟨_, rfl⟩
    · exact orderScan_total cost vd T count (k+1) _ fun i h1 h2 => h i (by omega) (by omega)

theorem orderScan_error {cost : Nat → Except Fault Cost} {vd : Bool} {T : Nat} : ∀ count k a f, orderScan cost vd T a k count = .error f → ∃ i, k ≤ i ∧ i < k + count ∧ cost i = .error f
  | 0, k, a, f, h => by simp [orderScan] at h
  | count+1, k, a, f, h => by
    simp only [orderScan] at h
    split at h
    · cases h; exact ⟨k, le_rfl, by omega, by assumption⟩
    · split at h
      · cases h
      · obtain ⟨i, a, b, c⟩ := orderScan_error count (k+1) _ f h
        exact ⟨i, by omega, by omega, c⟩

/-- What the loop has found after orders 0..k−1, their costs being `c` (R176, R177): the lowest order of smallest cost, the misses since it, and no stop before order k − 1. -/
structure ScanAt (c : Nat → Cost) (T k : Nat) (a : OrderScan) : Prop where
  seen : a.kbest < k
  best : a.best = c a.kbest
  smallest : ∀ j, j < k → Cost.lt (c j) a.best = false
  lowest : ∀ j, j < a.kbest → Cost.lt a.best (c j) = true
  misses : a.miss + a.kbest + 1 = k
  noStop : ∀ m, T ≤ m → m + 1 < k → ∃ i, m ≤ i + T ∧ i ≤ m ∧ ∀ j, j < i → Cost.lt (c i) (c j) = true

theorem Cost.not_lt_of_lt {a b d : Cost} (h : Cost.lt a b = true) (h2 : Cost.lt d b = false) : Cost.lt d a = false := by
  cases a <;> cases b <;> cases d <;> simp_all [Cost.lt]
  omega

/-- One more order keeps what the loop has found, when it did not have to stop. -/
theorem ScanAt.see {c : Nat → Cost} {T k : Nat} {a : OrderScan} (h : ScanAt c T k a) (hm : a.miss ≤ T) : ScanAt c T (k + 1) (a.see k (c k)) := by
  obtain ⟨h1, h2, h3, h4, h5, h6⟩ := h
  have hns : ∀ m, T ≤ m → m + 1 < k + 1 → ∃ i, m ≤ i + T ∧ i ≤ m ∧ ∀ j, j < i → Cost.lt (c i) (c j) = true := by
    intro m hTm hmk
    by_cases hmk' : m + 1 < k
    · exact h6 m hTm hmk'
    · exact ⟨a.kbest, by omega, by omega, fun j hj => by rw [← h2]; exact h4 j hj⟩
  unfold OrderScan.see
  split
  · rename_i hl
    refine ⟨by simp, rfl, fun j hj => ?_, fun j hj => Cost.lt_of_lt_of_not_lt hl (h3 j hj), by simp, hns⟩
    by_cases hjk : j = k
    · subst hjk; exact Cost.lt_irrefl _
    · exact Cost.not_lt_of_lt hl (h3 j (by omega))
  · rename_i hl
    refine ⟨by simp only; omega, h2, fun j hj => ?_, h4, by simp only; omega, hns⟩
    by_cases hjk : j = k
    · subst hjk; simpa using hl
    · exact h3 j (by omega)

/-- The valley loop (R176, R177): it evaluates orders up to some L, and stops there because no order is left or because T + 1 orders in a row were no better. -/
theorem orderScan_valley (cost : Nat → Except Fault Cost) (c : Nat → Cost) (hc : ∀ i x, cost i = .ok x → c i = x) (T : Nat) : ∀ count k a b, ScanAt c T k a → a.miss ≤ T →
    orderScan cost true T a k count = .ok b →
    ∃ L, k ≤ L ∧ L ≤ k + count ∧ (∀ i, k ≤ i → i < L → cost i = .ok (c i)) ∧ ScanAt c T L b ∧ (L = k + count ∨ b.miss = T + 1)
  | 0, k, a, b, h, hm, hb => by
    cases hb
    exact ⟨k, le_refl _, le_refl _, fun i h1 h2 => by omega, h, .inl rfl⟩
  | count + 1, k, a, b, h, hm, hb => by
    simp only [orderScan] at hb
    cases hk : cost k with
    | error f => rw [hk] at hb; cases hb
    | ok x =>
      rw [hk] at hb
      have hx := hc k x hk
      subst hx
      simp only [Bool.true_and, decide_eq_true_eq] at hb
      have hs := h.see hm
      split at hb
      · rename_i hT
        cases hb
        refine ⟨k + 1, by omega, by omega, fun i h1 h2 => by rw [show i = k by omega]; exact hk, hs, .inr ?_⟩
        have : (a.see k (c k)).miss ≤ a.miss + 1 := by unfold OrderScan.see; split <;> simp
        omega
      · obtain ⟨L, h1, h2, h3, h4, h5⟩ := orderScan_valley cost c hc T count (k + 1) _ b hs (by omega) hb
        refine ⟨L, by omega, by omega, fun i hi1 hi2 => ?_, h4, by omega⟩
        by_cases hik : i = k
        · subst hik; exact hk
        · exact h3 i (by omega) hi2

/-- The loop over `k + count` orders that reaches order k goes on from what it has found. -/
theorem orderScan_append (cost : Nat → Except Fault Cost) (vd : Bool) (T : Nat) : ∀ k k0 count a b, orderScan cost vd T a k0 k = .ok b → (vd = true → b.miss ≤ T) →
    orderScan cost vd T a k0 (k + count) = orderScan cost vd T b (k0 + k) count
  | 0, k0, count, a, b, h, _ => by cases h; rw [Nat.zero_add, Nat.add_zero]
  | k + 1, k0, count, a, b, h, hm => by
    rw [show k + 1 + count = (k + count) + 1 by omega]
    simp only [orderScan] at h ⊢
    cases hk : cost k0 with
    | error f => rw [hk] at h; cases h
    | ok x =>
      rw [hk] at h
      simp only at h ⊢
      split at h
      · rename_i hs
        cases h
        simp only [Bool.and_eq_true, decide_eq_true_eq] at hs
        have := hm hs.1
        omega
      · rename_i hs
        rw [if_neg hs, orderScan_append cost vd T k (k0 + 1) count _ b h hm]
        rw [show k0 + 1 + k = k0 + (k + 1) by omega]

/-- The cost of order 0 is never INF (R175, R192). -/
theorem orderCost_zero {P : Params} {s : State} {n : Nat} {o : OrdselOpts} {c : Cost} (h : orderCost P s n o 0 = .ok c) : c ≠ none := by
  have he : ∀ c, orderExact P s n 0 o = .ok c → c ≠ none := by
    intro c h
    have e : s.mem.readRange .rcof 0 0 = .ok [] := rfl
    have e2 : latticeOverflows [] = false := rfl
    simp only [orderExact, e, e2, Bool.false_eq_true, if_false] at h
    split at h
    · cases h
    · split at h
      · cases h
      · cases h; simp
  unfold orderCost at h
  split at h
  · exact he c h
  · split at h
    · cases h
    · split at h
      · unfold orderEstimate at h
        split at h
        · cases h
        · cases h; simp
      · exact he c h

theorem orderReached_true {s : State} {n k : Nat} {o : OrdselOpts} (h : orderReached s n o k = true) :
    ∃ a, orderScan (orderCost Config.params s n o) o.vd (valleyT n) ⟨none, 0, 0⟩ 0 k = .ok a ∧ (o.vd = true → a.miss ≤ valleyT n) := by
  unfold orderReached at h
  split at h
  · rename_i a ha
    exact ⟨a, ha, fun hv => by simpa [hv] using h⟩
  · cases h

/-- The fault of the cost of an order that ORDSEL reaches is the fault of the command (R343). -/
theorem exec_ordsel_reached {n ct k : Nat} {xo xe ra vd bg : Bool} {s : State} {f : Fault} (hk : k ≤ n)
    (h : orderReached s n ⟨ct, xo, xe, ra, vd, bg⟩ k = true) (hf : orderCost Config.params s n ⟨ct, xo, xe, ra, vd, bg⟩ k = .error f) :
    exec (.ordsel n ct xo xe ra vd bg) s = .fault f := by
  obtain ⟨a, ha, hm⟩ := orderReached_true h
  have := orderScan_append _ vd _ k 0 (n - k + 1) _ a ha hm
  rw [show k + (n - k + 1) = n + 1 by omega, Nat.zero_add] at this
  have hscan : orderScan (orderCost Config.params s n ⟨ct, xo, xe, ra, vd, bg⟩) vd (valleyT n) ⟨none, 0, 0⟩ 0 (n + 1) = .error f := by
    rw [this]; simp only [orderScan, hf]
  simp only [exec, execOrdsel, ordselOp, hscan, finish]

theorem Memory.Written.sub {m : Memory} {w : Window} {j n k : Nat} (h : m.Written w j n) (hk : k ≤ n) : m.Written w j k := fun i hi => h i (by omega)

theorem Memory.readEerr_ok {m : Memory} {k n : Nat} (h : m.Written .eerr 0 (2*(n+1))) (hk : k ≤ n) (hn : n < 1024) : ∃ E, m.readEerr k = .ok E := by
  have h0 := h (2*k) (by omega)
  have h1 := h (2*k+1) (by omega)
  obtain ⟨a, ha⟩ := Option.isSome_iff_exists.mp h0
  obtain ⟨b, hb⟩ := Option.isSome_iff_exists.mp h1
  rw [Nat.zero_add] at ha hb
  have l0 : 2*k < Window.eerr.words := by simp [Window.words]; omega
  have l1 : 2*k+1 < Window.eerr.words := by simp [Window.words]; omega
  refine ⟨Window.eerr.view b ++ Window.eerr.view a, ?_⟩
  simp [Memory.readEerr, Memory.readElem, l0, l1, ha, hb]

/-- The exact count is computed when its operands are written, and is finite for order 0 (R175, R192). -/
theorem orderExact_ok {P : Params} {s : State} {n : Nat} {o : OrdselOpts} (hn : n < 1024) (hL : s.blockLen ≤ 65536)
   (hq : s.mem.Written .qcof 0 n) (hr : s.mem.Written .rcof 0 n) (hs : s.mem.Written .smp (1024 - historyLen o.ra n) (historyLen o.ra n + s.blockLen)) {k : Nat} (hk : k ≤ n) :
   ∃ c, orderExact P s n k o = .ok c ∧ (k = 0 → c ≠ none) := by
  obtain ⟨rc, hrc⟩ := Memory.readRange_of_written (Memory.Written.sub hr hk) (by simp [Window.words]; omega)
  obtain ⟨qs, hqs⟩ := Memory.readRange_of_written (Memory.Written.sub hq hk) (by simp [Window.words]; omega)
  have hl := Memory.readRange_length hrc
  have hh : historyLen o.ra k ≤ historyLen o.ra n := by unfold historyLen; split <;> omega
  have hh2 : historyLen o.ra n < 1024 := by unfold historyLen; split <;> omega
  have hs' : s.mem.Written .smp (1024 - historyLen o.ra k) (historyLen o.ra k + s.blockLen) := by
    intro i hi
    have := hs (historyLen o.ra n - historyLen o.ra k + i) (by omega)
    rwa [show 1024 - historyLen o.ra n + (historyLen o.ra n - historyLen o.ra k + i) = 1024 - historyLen o.ra k + i by omega] at this
  obtain ⟨xs, hxs⟩ := Memory.readRange_of_written hs' (by simp [Window.words]; omega)
  unfold orderExact
  rw [hrc]
  simp only
  split
  · refine ⟨_, rfl, ?_⟩
    rintro rfl
    have : rc = [] := by simpa using hl
    subst this
    rename_i h; simp [latticeOverflows, latticeSeq] at h
  · rw [blockResiduals_ok.mpr ⟨xs, by rw [hl]; exact hxs, rfl⟩, hqs]
    exact ⟨_, rfl, by simp⟩

theorem orderCost_ok {P : Params} {s : State} {n : Nat} {o : OrdselOpts} (hn : n < 1024) (hL : s.blockLen ≤ 65536)
   (hq : s.mem.Written .qcof 0 n) (hr : s.mem.Written .rcof 0 n) (he : o.xo = false → s.mem.Written .eerr 0 (2*(n+1))) (hs : s.mem.Written .smp (1024 - historyLen o.ra n) (historyLen o.ra n + s.blockLen)) {k : Nat} (hk : k ≤ n) :
   ∃ c, orderCost P s n o k = .ok c ∧ (k = 0 → c ≠ none) := by
  unfold orderCost
  split
  · exact orderExact_ok hn hL hq hr hs hk
  · rename_i hx
    obtain ⟨E, hE⟩ := Memory.readEerr_ok (he (by simpa using hx)) hk hn
    rw [hE]
    simp only
    split
    · obtain ⟨qs, hqs⟩ := Memory.readRange_of_written (Memory.Written.sub hq hk) (by simp [Window.words]; omega)
      unfold orderEstimate
      rw [hqs]
      exact ⟨_, rfl, by simp⟩
    · exact orderExact_ok hn hL hq hr hs hk

theorem Memory.readRange_error_unwritten {m : Memory} {w : Window} {j n : Nat} {f : Fault} (h : m.readRange w j n = .error f) (hw : j + n ≤ w.words) : ∃ a, f = .unwrittenRead a ∧ m.readWord a = none := by
  obtain ⟨i, hi, he, -⟩ := Memory.readRange_error h
  have := Memory.readElem_error (by omega) he
  refine ⟨_, this, ?_⟩
  unfold Memory.readElem at he
  rw [if_pos (by omega)] at he
  split at he
  · cases he
  · assumption

theorem Memory.readEerr_error {m : Memory} {k : Nat} {f : Fault} (h : m.readEerr k = .error f) (hw : k < 1024) : ∃ a, f = .unwrittenRead a ∧ m.readWord a = none := by
  unfold Memory.readEerr at h
  have key : ∀ j, j < 2048 → ∀ f, m.readElem .eerr j = .error f → ∃ a, f = .unwrittenRead a ∧ m.readWord a = none := by
    intro j hj f he
    have := Memory.readElem_error (by simpa [Window.words] using hj) he
    refine ⟨_, this, ?_⟩
    unfold Memory.readElem at he
    rw [if_pos (by simpa [Window.words] using hj)] at he
    split at he
    · cases he
    · assumption
  split at h
  · cases h; exact key (2*k) (by omega) _ (by assumption)
  · split at h
    · cases h; exact key (2*k+1) (by omega) _ (by assumption)
    · cases h

theorem blockResiduals_error {ra : Bool} {rc : List Int} {s : State} {f : Fault} (h : blockResiduals ra rc s = .error f) (hr : rc.length < 1024) (hL : s.blockLen ≤ 65536) :  ∃ a, f = .unwrittenRead a ∧ s.mem.readWord a = none := by
  unfold blockResiduals at h
  split at h
  · cases h
    rename_i h
    unfold readSamples at h
    have hh : historyLen ra rc.length ≤ rc.length := by unfold historyLen; split <;> omega
    refine Memory.readRange_error_unwritten h ?_
    simp only [smpWord, Window.words]
    omega
  · cases h

theorem orderExact_error {P : Params} {s : State} {n k : Nat} {o : OrdselOpts} {f : Fault} (h : orderExact P s n k o = .error f) (hk : k < 1024) (hL : s.blockLen ≤ 65536) : ∃ a, f = .unwrittenRead a ∧ s.mem.readWord a = none := by
  unfold orderExact at h
  split at h
  · cases h; exact Memory.readRange_error_unwritten (by assumption) (by simp [Window.words]; omega)
  · rename_i rc hrc
    have hl := Memory.readRange_length hrc
    split at h
    · cases h
    · split at h
      · cases h; exact blockResiduals_error (by assumption) (by omega) hL
      · split at h
        · cases h; exact Memory.readRange_error_unwritten (by assumption) (by simp [Window.words]; omega)
        · cases h

/-- The cost of an order within the arrays stops only on an unwritten word (R343). -/
theorem orderCost_error {P : Params} {s : State} {n k : Nat} {o : OrdselOpts} {f : Fault} (h : orderCost P s n o k = .error f) (hk : k < 1024) (hL : s.blockLen ≤ 65536) : ∃ a, f = .unwrittenRead a ∧ s.mem.readWord a = none := by
  unfold orderCost at h
  split at h
  · exact orderExact_error h hk hL
  · split at h
    · cases h; exact Memory.readEerr_error (by assumption) hk
    · split at h
      · unfold orderEstimate at h
        split at h
        · cases h; exact Memory.readRange_error_unwritten (by assumption) (by simp [Window.words]; omega)
        · cases h
      · exact orderExact_error h hk hL

end Sys2Proof.Machine
end

