-- ==== Sys2Proof/Laws/PerInstr.lean ====
section
/-! SUPPORT. Statements for all commands, one lemma per constructor of Instr. -/
namespace Sys2Proof.Laws

open Sys2Proof

/-- The encoded word lies in the command's own row of the table of spec/30_encoding.md R113. -/
def EncodeMatches.Statement (i : Instr) : Prop := encode i &&& i.mnemonic.mask = i.mnemonic.pattern

theorem EncodeMatches.nop : EncodeMatches.Statement (.nop) := by
  unfold Statement
  decide

theorem EncodeMatches.quant (n : Nat) : EncodeMatches.Statement (.quant n) := by
  unfold Statement
  ext i hi
  simp only [encode, Instr.mnemonic, Mnemonic.mask, Mnemonic.pattern, BitVec.getElem_and, BitVec.getElem_append]
  interval_cases i <;> simp

theorem EncodeMatches.recon (n : Nat) : EncodeMatches.Statement (.recon n) := by
  unfold Statement
  ext i hi
  simp only [encode, Instr.mnemonic, Mnemonic.mask, Mnemonic.pattern, BitVec.getElem_and, BitVec.getElem_append]
  interval_cases i <;> simp

theorem EncodeMatches.coefbits (n ct : Nat) : EncodeMatches.Statement (.coefbits n ct) := by
  unfold Statement
  ext i hi
  simp only [encode, Instr.mnemonic, Mnemonic.mask, Mnemonic.pattern, BitVec.getElem_and, BitVec.getElem_append]
  interval_cases i <;> simp

theorem EncodeMatches.p2l (n : Nat) : EncodeMatches.Statement (.p2l n) := by
  unfold Statement
  ext i hi
  simp only [encode, Instr.mnemonic, Mnemonic.mask, Mnemonic.pattern, BitVec.getElem_and, BitVec.getElem_append]
  interval_cases i <;> simp

theorem EncodeMatches.resid (n : Nat) (ra : Bool) : EncodeMatches.Statement (.resid n ra) := by
  unfold Statement
  ext i hi
  simp only [encode, Instr.mnemonic, Mnemonic.mask, Mnemonic.pattern, BitVec.getElem_and, BitVec.getElem_append]
  interval_cases i <;> simp

theorem EncodeMatches.ricebits (n : Nat) (ra : Bool) : EncodeMatches.Statement (.ricebits n ra) := by
  unfold Statement
  ext i hi
  simp only [encode, Instr.mnemonic, Mnemonic.mask, Mnemonic.pattern, BitVec.getElem_and, BitVec.getElem_append]
  interval_cases i <;> simp

theorem EncodeMatches.ricesrch (n : Nat) (ra xe : Bool) : EncodeMatches.Statement (.ricesrch n ra xe) := by
  unfold Statement
  ext i hi
  simp only [encode, Instr.mnemonic, Mnemonic.mask, Mnemonic.pattern, BitVec.getElem_and, BitVec.getElem_append]
  interval_cases i <;> simp

theorem EncodeMatches.bgmcbits (n : Nat) (ra : Bool) : EncodeMatches.Statement (.bgmcbits n ra) := by
  unfold Statement
  ext i hi
  simp only [encode, Instr.mnemonic, Mnemonic.mask, Mnemonic.pattern, BitVec.getElem_and, BitVec.getElem_append]
  interval_cases i <;> simp

theorem EncodeMatches.bgmcsrch (n : Nat) (ra xe : Bool) : EncodeMatches.Statement (.bgmcsrch n ra xe) := by
  unfold Statement
  ext i hi
  simp only [encode, Instr.mnemonic, Mnemonic.mask, Mnemonic.pattern, BitVec.getElem_and, BitVec.getElem_append]
  interval_cases i <;> simp

theorem EncodeMatches.ordsel (n ct : Nat) (xo xe ra vd bg : Bool) : EncodeMatches.Statement (.ordsel n ct xo xe ra vd bg) := by
  unfold Statement
  ext i hi
  simp only [encode, Instr.mnemonic, Mnemonic.mask, Mnemonic.pattern, BitVec.getElem_and, BitVec.getElem_append]
  interval_cases i <;> simp

/-- The fields of the encoded word, read where R111 puts them, are the operands of a well-formed command. -/
def EncodeFields.Statement (i : Instr) : Prop := i.WellFormed → i.mnemonic.instr (encode i) = i

theorem EncodeFields.nop : EncodeFields.Statement .nop := fun _ => rfl

theorem EncodeFields.quant (n : Nat) : EncodeFields.Statement (.quant n) := by
  intro h
  simp only [Instr.WellFormed, Instr.wellFormed, decide_eq_true_eq] at h
  have hn : fieldN (encode (.quant n)) = n := by
    simp only [fieldN, encode]
    rw [show BitVec.extractLsb' 8 10 _ = BitVec.ofNat 10 n from by ext i hi; simp only [BitVec.getElem_extractLsb', BitVec.getLsbD_append]; interval_cases i <;> simp]
    simp only [BitVec.toNat_ofNat]
    omega
  simp only [Instr.mnemonic, Mnemonic.instr, hn]

theorem EncodeFields.recon (n : Nat) : EncodeFields.Statement (.recon n) := by
  intro h
  simp only [Instr.WellFormed, Instr.wellFormed, decide_eq_true_eq] at h
  have hn : fieldN (encode (.recon n)) = n := by
    simp only [fieldN, encode]
    rw [show BitVec.extractLsb' 8 10 _ = BitVec.ofNat 10 n from by ext i hi; simp only [BitVec.getElem_extractLsb', BitVec.getLsbD_append]; interval_cases i <;> simp]
    simp only [BitVec.toNat_ofNat]
    omega
  simp only [Instr.mnemonic, Mnemonic.instr, hn]

theorem EncodeFields.coefbits (n ct : Nat) : EncodeFields.Statement (.coefbits n ct) := by
  intro h
  simp only [Instr.WellFormed, Instr.wellFormed, Bool.and_eq_true, decide_eq_true_eq] at h
  have hn : fieldN (encode (.coefbits n ct)) = n := by
    simp only [fieldN, encode]
    rw [show BitVec.extractLsb' 8 10 _ = BitVec.ofNat 10 n from by ext i hi; simp only [BitVec.getElem_extractLsb', BitVec.getLsbD_append]; interval_cases i <;> simp]
    simp only [BitVec.toNat_ofNat]
    omega
  have hct : fieldCT (encode (.coefbits n ct)) = ct := by
    simp only [fieldCT, encode]
    rw [show BitVec.extractLsb' 18 2 _ = BitVec.ofNat 2 ct from by ext i hi; simp only [BitVec.getElem_extractLsb', BitVec.getLsbD_append]; interval_cases i <;> simp]
    simp only [BitVec.toNat_ofNat]
    omega
  simp only [Instr.mnemonic, Mnemonic.instr, hn, hct]

theorem EncodeFields.p2l (n : Nat) : EncodeFields.Statement (.p2l n) := by
  intro h
  simp only [Instr.WellFormed, Instr.wellFormed, decide_eq_true_eq] at h
  have hn : fieldN (encode (.p2l n)) = n := by
    simp only [fieldN, encode]
    rw [show BitVec.extractLsb' 8 10 _ = BitVec.ofNat 10 n from by ext i hi; simp only [BitVec.getElem_extractLsb', BitVec.getLsbD_append]; interval_cases i <;> simp]
    simp only [BitVec.toNat_ofNat]
    omega
  simp only [Instr.mnemonic, Mnemonic.instr, hn]

theorem EncodeFields.resid (n : Nat) (ra : Bool) : EncodeFields.Statement (.resid n ra) := by
  intro h
  simp only [Instr.WellFormed, Instr.wellFormed, decide_eq_true_eq] at h
  have hn : fieldN (encode (.resid n ra)) = n := by
    simp only [fieldN, encode]
    rw [show BitVec.extractLsb' 8 10 _ = BitVec.ofNat 10 n from by ext i hi; simp only [BitVec.getElem_extractLsb', BitVec.getLsbD_append]; interval_cases i <;> simp]
    simp only [BitVec.toNat_ofNat]
    omega
  have hra : fieldRA (encode (.resid n ra)) = ra := by
    simp only [fieldRA, encode, BitVec.getLsbD_append]
    simp
  simp only [Instr.mnemonic, Mnemonic.instr, hn, hra]

theorem EncodeFields.ricebits (n : Nat) (ra : Bool) : EncodeFields.Statement (.ricebits n ra) := by
  intro h
  simp only [Instr.WellFormed, Instr.wellFormed, decide_eq_true_eq] at h
  have hn : fieldN (encode (.ricebits n ra)) = n := by
    simp only [fieldN, encode]
    rw [show BitVec.extractLsb' 8 10 _ = BitVec.ofNat 10 n from by ext i hi; simp only [BitVec.getElem_extractLsb', BitVec.getLsbD_append]; interval_cases i <;> simp]
    simp only [BitVec.toNat_ofNat]
    omega
  have hra : fieldRA (encode (.ricebits n ra)) = ra := by
    simp only [fieldRA, encode, BitVec.getLsbD_append]
    simp
  simp only [Instr.mnemonic, Mnemonic.instr, hn, hra]

theorem EncodeFields.ricesrch (n : Nat) (ra xe : Bool) : EncodeFields.Statement (.ricesrch n ra xe) := by
  intro h
  simp only [Instr.WellFormed, Instr.wellFormed, decide_eq_true_eq] at h
  have hn : fieldN (encode (.ricesrch n ra xe)) = n := by
    simp only [fieldN, encode]
    rw [show BitVec.extractLsb' 8 10 _ = BitVec.ofNat 10 n from by ext i hi; simp only [BitVec.getElem_extractLsb', BitVec.getLsbD_append]; interval_cases i <;> simp]
    simp only [BitVec.toNat_ofNat]
    omega
  have hxe : fieldXE (encode (.ricesrch n ra xe)) = xe := by
    simp only [fieldXE, encode, BitVec.getLsbD_append]
    simp
  have hra : fieldRA (encode (.ricesrch n ra xe)) = ra := by
    simp only [fieldRA, encode, BitVec.getLsbD_append]
    simp
  simp only [Instr.mnemonic, Mnemonic.instr, hn, hxe, hra]

theorem EncodeFields.bgmcbits (n : Nat) (ra : Bool) : EncodeFields.Statement (.bgmcbits n ra) := by
  intro h
  simp only [Instr.WellFormed, Instr.wellFormed, decide_eq_true_eq] at h
  have hn : fieldN (encode (.bgmcbits n ra)) = n := by
    simp only [fieldN, encode]
    rw [show BitVec.extractLsb' 8 10 _ = BitVec.ofNat 10 n from by ext i hi; simp only [BitVec.getElem_extractLsb', BitVec.getLsbD_append]; interval_cases i <;> simp]
    simp only [BitVec.toNat_ofNat]
    omega
  have hra : fieldRA (encode (.bgmcbits n ra)) = ra := by
    simp only [fieldRA, encode, BitVec.getLsbD_append]
    simp
  simp only [Instr.mnemonic, Mnemonic.instr, hn, hra]

theorem EncodeFields.bgmcsrch (n : Nat) (ra xe : Bool) : EncodeFields.Statement (.bgmcsrch n ra xe) := by
  intro h
  simp only [Instr.WellFormed, Instr.wellFormed, decide_eq_true_eq] at h
  have hn : fieldN (encode (.bgmcsrch n ra xe)) = n := by
    simp only [fieldN, encode]
    rw [show BitVec.extractLsb' 8 10 _ = BitVec.ofNat 10 n from by ext i hi; simp only [BitVec.getElem_extractLsb', BitVec.getLsbD_append]; interval_cases i <;> simp]
    simp only [BitVec.toNat_ofNat]
    omega
  have hxe : fieldXE (encode (.bgmcsrch n ra xe)) = xe := by
    simp only [fieldXE, encode, BitVec.getLsbD_append]
    simp
  have hra : fieldRA (encode (.bgmcsrch n ra xe)) = ra := by
    simp only [fieldRA, encode, BitVec.getLsbD_append]
    simp
  simp only [Instr.mnemonic, Mnemonic.instr, hn, hxe, hra]

theorem EncodeFields.ordsel (n ct : Nat) (xo xe ra vd bg : Bool) : EncodeFields.Statement (.ordsel n ct xo xe ra vd bg) := by
  intro h
  simp only [Instr.WellFormed, Instr.wellFormed, Bool.and_eq_true, decide_eq_true_eq] at h
  have hn : fieldN (encode (.ordsel n ct xo xe ra vd bg)) = n := by
    simp only [fieldN, encode]
    rw [show BitVec.extractLsb' 8 10 _ = BitVec.ofNat 10 n from by ext i hi; simp only [BitVec.getElem_extractLsb', BitVec.getLsbD_append]; interval_cases i <;> simp]
    simp only [BitVec.toNat_ofNat]
    omega
  have hct : fieldCT (encode (.ordsel n ct xo xe ra vd bg)) = ct := by
    simp only [fieldCT, encode]
    rw [show BitVec.extractLsb' 18 2 _ = BitVec.ofNat 2 ct from by ext i hi; simp only [BitVec.getElem_extractLsb', BitVec.getLsbD_append]; interval_cases i <;> simp]
    simp only [BitVec.toNat_ofNat]
    omega
  have hxo : fieldXO (encode (.ordsel n ct xo xe ra vd bg)) = xo := by
    simp only [fieldXO, encode, BitVec.getLsbD_append]
    simp
  have hxe : fieldXE (encode (.ordsel n ct xo xe ra vd bg)) = xe := by
    simp only [fieldXE, encode, BitVec.getLsbD_append]
    simp
  have hra : fieldRA (encode (.ordsel n ct xo xe ra vd bg)) = ra := by
    simp only [fieldRA, encode, BitVec.getLsbD_append]
    simp
  have hvd : fieldVD (encode (.ordsel n ct xo xe ra vd bg)) = vd := by
    simp only [fieldVD, encode, BitVec.getLsbD_append]
    simp
  have hbg : fieldBG (encode (.ordsel n ct xo xe ra vd bg)) = bg := by
    simp only [fieldBG, encode, BitVec.getLsbD_append]
    simp
  simp only [Instr.mnemonic, Mnemonic.instr, hn, hct, hxo, hxe, hra, hvd, hbg]

end Sys2Proof.Laws
end

