-- ==== Sys2Proof/Laws/Search.lean ====
section
/-! SUPPORT. The parameter searches (spec/43_rice.md R227, spec/44_bgmc.md R263): what their loops return. -/
namespace Sys2Proof.Machine

open Sys2Proof

/-- The walk down of R227 ends at or below its start, no dearer, where the next step down does not improve. -/
theorem walkDown_spec (C : Nat → Nat) : ∀ k, walkDown C k ≤ k ∧ C (walkDown C k) ≤ C k ∧ (0 < walkDown C k → C (walkDown C k) ≤ C (walkDown C k - 1))
  | 0 => ⟨le_refl _, le_refl _, by simp [walkDown]⟩
  | k+1 => by
    simp only [walkDown]
    split
    · obtain ⟨a,b,c⟩ := walkDown_spec C k; exact ⟨by omega, by omega, c⟩
    · exact ⟨le_refl _, le_refl _, fun _ => by simp; omega⟩

/-- The walk up of R227 likewise. -/
theorem walkUp_spec (C : Nat → Nat) (top : Nat) : ∀ room k, k + room = top → k ≤ walkUp C room k ∧ walkUp C room k ≤ top ∧ C (walkUp C room k) ≤ C k ∧ (walkUp C room k < top → C (walkUp C room k) ≤ C (walkUp C room k + 1))
  | 0, k, h => ⟨le_refl _, by simp [walkUp]; omega, le_refl _, by simp only [walkUp]; omega⟩
  | room+1, k, h => by
    simp only [walkUp]
    split
    · obtain ⟨a,b,c,d⟩ := walkUp_spec C top room (k+1) (by omega); exact ⟨by omega, b, by omega, d⟩
    · exact ⟨le_refl _, by omega, le_refl _, by omega⟩

/-- The linear scan of R263 returns its best: no dearer than the start and than every scanned parameter. -/
theorem bgmcScan_spec (C : Nat → Nat) : ∀ l best, (bgmcScan C l best = best ∨ bgmcScan C l best ∈ l) ∧ C (bgmcScan C l best) ≤ C best ∧ ∀ p ∈ l, C (bgmcScan C l best) ≤ C p
  | [], best => by simp [bgmcScan]
  | p :: l, best => by
    simp only [bgmcScan]
    split
    · obtain ⟨a,b,c⟩ := bgmcScan_spec C l p
      refine ⟨.inr ?_, by omega, fun q hq => ?_⟩
      · rcases a with a | a
        · rw [a]; simp
        · exact List.mem_cons_of_mem _ a
      · rcases List.mem_cons.mp hq with rfl | hq
        · exact b
        · exact c q hq
    · obtain ⟨a,b,c⟩ := bgmcScan_spec C l best
      refine ⟨?_, b, fun q hq => ?_⟩
      · rcases a with a | a
        · exact .inl a
        · exact .inr (List.mem_cons_of_mem _ a)
      · rcases List.mem_cons.mp hq with rfl | hq
        · omega
        · exact c q hq

/-- The descent of R263 returns a byte no dearer than its start. -/
theorem bgmcDescend_spec (C : Nat → Nat) (d : Int) : ∀ fuel p best miss, best ≤ 255 → bgmcDescend C d fuel p best miss ≤ 255 ∧ C (bgmcDescend C d fuel p best miss) ≤ C best
  | 0, p, best, miss, h => ⟨h, le_refl _⟩
  | fuel+1, p, best, miss, h => by
    simp only [bgmcDescend]
    split
    · exact ⟨h, le_refl _⟩
    · split
      · obtain ⟨a,b⟩ := bgmcDescend_spec C d fuel (p+d) (p+d).toNat 0 (by omega)
        exact ⟨a, by omega⟩
      · split
        · exact ⟨h, le_refl _⟩
        · exact bgmcDescend_spec C d fuel _ best _ h

/-- The cost falls strictly at every step of the walk down (R227). -/
theorem walkDown_falls (C : Nat → Nat) : ∀ k j, walkDown C k ≤ j → j < k → C j < C (j + 1)
  | 0, j, _, h => by omega
  | k + 1, j, h1, h2 => by
    simp only [walkDown] at h1
    split at h1
    · by_cases hj : j = k
      · subst hj; assumption
      · exact walkDown_falls C k j h1 (by omega)
    · omega

/-- The cost falls strictly at every step of the walk up (R227). -/
theorem walkUp_falls (C : Nat → Nat) : ∀ room k j, k ≤ j → j < walkUp C room k → C (j + 1) < C j
  | 0, k, j, h1, h2 => by simp [walkUp] at h2; omega
  | room + 1, k, j, h1, h2 => by
    simp only [walkUp] at h2
    split at h2
    · by_cases hj : j = k
      · subst hj; assumption
      · exact walkUp_falls C room (k + 1) j (by omega) h2
    · omega

/-- The linear scan of R263 over rising parameters: the start wins a tie, and else the lowest cheapest parameter is returned. -/
theorem bgmcScan_first (C : Nat → Nat) : ∀ l best, l.Pairwise (· < ·) →
    (C (bgmcScan C l best) = C best → bgmcScan C l best = best) ∧
    ∀ p ∈ l, p < bgmcScan C l best → bgmcScan C l best ≠ best → C (bgmcScan C l best) < C p
  | [], best, _ => by simp [bgmcScan]
  | p :: l, best, h => by
    obtain ⟨hp, hl⟩ := List.pairwise_cons.mp h
    obtain ⟨b1, b2⟩ := bgmcScan_first C l best hl
    obtain ⟨q1, q2⟩ := bgmcScan_first C l p hl
    obtain ⟨s1, s2, -⟩ := bgmcScan_spec C l p
    obtain ⟨r1, r2, -⟩ := bgmcScan_spec C l best
    simp only [bgmcScan]
    split
    · rename_i hlt
      refine ⟨fun he => by omega, fun q hq h1 _ => ?_⟩
      have hne : bgmcScan C l p ≠ p ∨ bgmcScan C l p = p := by tauto
      rcases List.mem_cons.mp hq with rfl | hq
      · rcases hne with hne | hne
        · exact lt_of_le_of_ne s2 fun he => hne (q1 he)
        · omega
      · rcases hne with hne | hne
        · exact q2 q hq h1 hne
        · have := hp q hq; omega
    · rename_i hge
      refine ⟨b1, fun q hq h1 h2 => ?_⟩
      rcases List.mem_cons.mp hq with rfl | hq
      · have : C (bgmcScan C l best) ≠ C best := fun he => h2 (b1 he)
        omega
      · exact b2 q hq h1 h2

/-- The descent of R263 along the positions `pos 0`, `pos 1`, … from step `i`, the best being that of step `b`: it returns the parameter of a step j that is cheaper than every earlier step and no dearer than
the next five inside 0..255, and of every five steps in a row before it one is cheaper than all before. -/
theorem bgmcDescend_walk (C : Nat → Nat) (d : Int) (pos : Nat → Int) (hstep : ∀ t, pos (t + 1) = pos t + d)
    (hout : ∀ t, (pos t < 0 ∨ 255 < pos t) → (pos (t + 1) < 0 ∨ 255 < pos (t + 1))) (hend : pos 256 < 0 ∨ 255 < pos 256) :
    ∀ fuel i b, 256 ≤ fuel + i → ¬ (pos i < 0 ∨ 255 < pos i) → b ≤ i → i < b + 5 →
      (∀ t, t < b → C (pos b).toNat < C (pos t).toNat) → (∀ t, b < t → t ≤ i → C (pos b).toNat ≤ C (pos t).toNat) →
      (∀ x, x ≤ b → 5 ≤ x → ∃ q, x < q + 5 ∧ q ≤ x ∧ ∀ t, t < q → C (pos q).toNat < C (pos t).toNat) →
      ∃ j, bgmcDescend C d fuel (pos i) (pos b).toNat (i - b) = (pos j).toNat ∧ b ≤ j ∧ ¬ (pos j < 0 ∨ 255 < pos j) ∧
        (∀ t, t < j → C (pos j).toNat < C (pos t).toNat) ∧
        (∀ t, j < t → t ≤ j + 5 → ¬ (pos t < 0 ∨ 255 < pos t) → C (pos j).toNat ≤ C (pos t).toNat) ∧
        ∀ x, x ≤ j → 5 ≤ x → ∃ q, x < q + 5 ∧ q ≤ x ∧ ∀ t, t < q → C (pos q).toNat < C (pos t).toNat := by
  have hmono : ∀ m t, (pos t < 0 ∨ 255 < pos t) → (pos (t + m) < 0 ∨ 255 < pos (t + m)) := by
    intro m
    induction m with
    | zero => exact fun t h => h
    | succ m ih => exact fun t h => hout _ (ih t h)
  have hin : ∀ t u, t ≤ u → ¬ (pos u < 0 ∨ 255 < pos u) → ¬ (pos t < 0 ∨ 255 < pos t) := fun t u htu h ht =>
    h (by have := hmono (u - t) t ht; rwa [show t + (u - t) = u by omega] at this)
  intro fuel
  induction fuel with
  | zero => intro i b hf hi; exact absurd hend (hin 256 i (by omega) hi)
  | succ fuel ih =>
    intro i b hf hi hb hm hrec hmin hgap
    have hbin := hin b i hb hi
    simp only [bgmcDescend, ← hstep i]
    split
    · rename_i ho
      refine ⟨b, rfl, le_refl _, hbin, hrec, fun t h1 h2 h3 => ?_, hgap⟩
      by_cases ht : t ≤ i
      · exact hmin t h1 ht
      · exact absurd ho (hin (i + 1) t (by omega) h3)
    · rename_i hn
      split
      · rename_i hlt
        have hr : ∀ t, t < i + 1 → C (pos (i + 1)).toNat < C (pos t).toNat := by
          intro t ht
          rcases Nat.lt_trichotomy t b with h | h | h
          · have := hrec t h; omega
          · subst h; exact hlt
          · have := hmin t h (by omega); omega
        obtain ⟨j, e, h1, h2, h3, h4, h5⟩ := ih (i + 1) (i + 1) (by omega) hn (le_refl _) (by omega) hr (fun t h1 h2 => by omega) (fun x hx h5 => by
          by_cases hxb : x ≤ b
          · exact hgap x hxb h5
          · by_cases hxi : x = i + 1
            · exact ⟨i + 1, by omega, by omega, hr⟩
            · exact ⟨b, by omega, by omega, hrec⟩)
        rw [Nat.sub_self] at e
        exact ⟨j, e, by omega, h2, h3, h4, h5⟩
      · rename_i hge
        split
        · rename_i h5
          refine ⟨b, rfl, le_refl _, hbin, hrec, fun t h1 h2 h3 => ?_, hgap⟩
          by_cases ht : t ≤ i
          · exact hmin t h1 ht
          · have : t = i + 1 := by omega
            subst this; omega
        · rename_i h5
          obtain ⟨j, e, h1, h2⟩ := ih (i + 1) b (by omega) hn (by omega) (by omega) hrec (fun t h1 h2 => by
            by_cases ht : t ≤ i
            · exact hmin t h1 ht
            · have : t = i + 1 := by omega
              subst this; omega) hgap
          rw [show i + 1 - b = i - b + 1 by omega] at e
          exact ⟨j, e, h1, h2⟩

/-- The cheapest of a list of choices (R229, R265): one of them, none dearer, and every earlier one dearer. -/
theorem cheapest_spec : ∀ (ds : List Choice) (c : Choice), cheapest c ds ∈ c :: ds ∧ (∀ d ∈ c :: ds, (cheapest c ds).total ≤ d.total) ∧
    ∃ pre post, c :: ds = pre ++ cheapest c ds :: post ∧ ∀ d ∈ pre, (cheapest c ds).total < d.total
  | [], c => ⟨by simp [cheapest], by simp [cheapest], [], [], by simp [cheapest], by simp⟩
  | d :: ds, c => by
    simp only [cheapest]
    split
    · rename_i h
      obtain ⟨h1, h2, pre, post, h3, h4⟩ := cheapest_spec ds d
      have h5 : (cheapest d ds).total < c.total := lt_of_le_of_lt (h2 d (by simp)) h
      refine ⟨List.mem_cons_of_mem _ h1, ?_, c :: pre, post, by rw [h3]; rfl, ?_⟩
      · intro e he
        rcases List.mem_cons.mp he with rfl | he
        · exact h5.le
        · exact h2 e he
      · intro e he
        rcases List.mem_cons.mp he with rfl | he
        · exact h5
        · exact h4 e he
    · rename_i h
      obtain ⟨h1, h2, pre, post, h3, h4⟩ := cheapest_spec ds c
      have hc := h2 c (by simp)
      refine ⟨?_, ?_, ?_⟩
      · rcases List.mem_cons.mp h1 with h1 | h1
        · rw [h1]; simp
        · exact List.mem_cons_of_mem _ (List.mem_cons_of_mem _ h1)
      · intro e he
        rcases List.mem_cons.mp he with rfl | he
        · exact hc
        · rcases List.mem_cons.mp he with rfl | he
          · omega
          · exact h2 e (List.mem_cons_of_mem _ he)
      · cases pre with
        | nil =>
          simp at h3
          exact ⟨[], d :: ds, by rw [← h3.1]; rfl, by simp⟩
        | cons p pre =>
          simp at h3
          obtain ⟨rfl, h3⟩ := h3
          refine ⟨c :: d :: pre, post, congrArg (fun l => c :: d :: l) h3, ?_⟩
          have hcc := h4 c (by simp)
          intro e he
          rcases List.mem_cons.mp he with rfl | he
          · exact hcc
          · rcases List.mem_cons.mp he with rfl | he
            · omega
            · exact h4 e (List.mem_cons_of_mem _ he)

theorem bgmcBb_le (len : Nat) : bgmcBb len ≤ 5 := by
  unfold bgmcBb
  have := clip_mem (v := asr ((ceilLog2 len : Int) - 3) 1) (lo := 0) (hi := 5) (by omega)
  omega

/-- What bb is (R251): at least m, for m in 1..5, exactly when LEN > 2^(2m+2). -/
theorem le_bgmcBb_iff (len m : Nat) : m ≤ bgmcBb len ↔ m = 0 ∨ (m ≤ 5 ∧ 2 ^ (2 * m + 2) < len) := by
  obtain ⟨h1, h2⟩ := ceilLog2_spec len
  have hc : 2 ^ (2 * m + 2) < len ↔ 2 * m + 3 ≤ ceilLog2 len := by
    constructor
    · intro h
      by_contra hlt
      have := Nat.pow_le_pow_right (n := 2) (by omega) (show ceilLog2 len ≤ 2 * m + 2 by omega)
      omega
    · intro h
      by_contra hlt
      have := h2 _ (Nat.le_of_not_lt hlt)
      omega
  rw [hc]
  simp only [bgmcBb, clip, asr]
  split_ifs <;> omega

/-- What the searches store in SPAR when every parameter is a byte (R230, R265). -/
theorem sparOf_get {ps : List Nat} (h : ∀ k ∈ ps, k ≤ 255) (b : Fin 8) : (sparOf ps)[b].toNat = ps.getD b 0 := by
  have hg : ∀ i, ps.getD i 0 ≤ 255 := by
    intro i
    rw [List.getD_eq_getElem?_getD]
    by_cases hi : i < ps.length
    · rw [List.getElem?_eq_getElem hi]; exact h _ (List.getElem_mem _)
    · rw [List.getElem?_eq_none (by omega)]; simp
  have key : ∀ i, (BitVec.ofNat 8 (ps.getD i 0)).toNat = ps.getD i 0 := by
    intro i; have := hg i; simp only [BitVec.toNat_ofNat]; omega
  fin_cases b <;> exact key _

theorem getD_past {l : List Nat} {b : Nat} (h : l.length ≤ b) : l.getD b 0 = 0 := by
  rw [List.getD_eq_getElem?_getD, List.getElem?_eq_none h]; rfl

theorem headD_le {l : List Nat} (h : ∀ k ∈ l, k ≤ 255) : l.headD 0 ≤ 255 := by
  cases l with
  | nil => simp
  | cons a l => exact h a (by simp)

end Sys2Proof.Machine
end

