-- ==== Sys2Proof/Laws/Step.lean ====
section
/-! SUPPORT. What one step can be: the engine's completion, one host transaction, or nothing (spec/20_memory.md R91); and what the host's transactions can do. -/
namespace Sys2Proof.Machine

open Sys2Proof

/-- The completion is the next step when its latency has run out or the host has nothing more to do. -/
theorem State.completes_iff (s : State) : s.completes = true ↔ s.due = 0 ∨ s.pending = [] := by
  simp [State.completes]

theorem step_engine {s : State} {w : Word} {snap : ParamRegs} (h : s.eng = .run w snap) (hc : s.due = 0 ∨ s.pending = []) :
    step s = engineTurn w s := by
  have := (State.completes_iff s).mpr hc
  simp [step, turn, h, this]

theorem engineTurn_ok {w : Word} {i : Instr} (h : decode w = .ok i) (s : State) : engineTurn w s = exec i s := by
  simp [engineTurn, h]

theorem step_host {s : State} {op : HostOp} {rest : List HostOp} (h : HostNext s op rest) :
    step s = match hostTransact op (s.afterPop rest) with
      | .ok t => .next t
      | .error f => .fault f := by
  obtain ⟨hp, hd⟩ := h
  unfold step turn
  split
  · rename_i he
    have : s.afterPop rest = { s with pending := rest } := by simp [State.afterPop, State.busy, he]
    simp only [hostTurn, hp, this] <;> rfl
  · rename_i w snap he
    have hb : s.busy = true := busy_of_run he
    have hc : s.completes = false := by
      have hdue := hd hb
      cases hcs : s.completes with
      | false => rfl
      | true =>
        rcases (State.completes_iff s).mp hcs with h | h
        · omega
        · exact absurd (hp.symm.trans h) (List.cons_ne_nil _ _)
    have : s.afterPop rest = { s with due := s.due - 1, pending := rest } := by simp [State.afterPop, hb]
    simp only [hc, hostTurn, hp, this]
    rfl

theorem step_idle {s : State} (h : s.eng = .idle) (hp : s.pending = []) : step s = .next s := by
  simp [step, turn, h, hostTurn, hp]

/-- The cases of a step: idleness, a host transaction, or the engine's turn. -/
theorem step_cases (s : State) :
    (s.eng = .idle ∧ s.pending = [] ∧ step s = .next s) ∨ (∃ op rest, HostNext s op rest) ∨
      (∃ w snap, s.eng = .run w snap ∧ (s.due = 0 ∨ s.pending = []) ∧ step s = engineTurn w s) := by
  cases he : s.eng with
  | idle =>
    cases hp : s.pending with
    | nil => exact .inl ⟨rfl, rfl, step_idle he hp⟩
    | cons op rest => exact .inr (.inl ⟨op, rest, hp, fun hb => by simp [busy_of_idle he] at hb⟩)
  | run w snap =>
    by_cases hc : s.due = 0 ∨ s.pending = []
    · exact .inr (.inr ⟨w, snap, rfl, hc, step_engine he hc⟩)
    · cases hp : s.pending with
      | nil => exact absurd (.inr hp) hc
      | cons op rest => exact .inr (.inl ⟨op, rest, hp, fun _ => by omega⟩)

/-! ## Acceptance -/

theorem acceptCommand_busy {s : State} (h : s.busy = true) (w : Word) : acceptCommand w s = raiseError .cmdBusy s := by
  simp [acceptCommand, h]

theorem acceptCommand_illegal {s : State} (h : s.busy = false) {w : Word} {r : IllegalWord} (hd : decode w = .error r) :
    acceptCommand w s = raiseError .illegalCmd s := by
  simp [acceptCommand, h, hd]

theorem acceptCommand_rejected {s : State} (h : s.busy = false) {w : Word} {i : Instr} (hd : decode w = .ok i) {c : Cause}
    (hv : valueCheck s.par i = some c) : acceptCommand w s = raiseError c s := by
  simp [acceptCommand, h, hd, hv]

theorem acceptCommand_accepted {s : State} (h : s.busy = false) {w : Word} {i : Instr} (hd : decode w = .ok i)
    (hv : valueCheck s.par i = none) :
    acceptCommand w s = { latch w s with due := Config.freeLatency s.draws, draws := s.draws + 1 } := by
  simp [acceptCommand, h, hd, hv]

/-- A value check never reports `NONE` (R300). -/
theorem valueCheck_ne_noCause {p : ParamRegs} {i : Instr} {c : Cause} (h : valueCheck p i = some c) : c ≠ .noCause := by
  rintro rfl
  revert h
  cases i <;>
    simp only [valueCheck, checkLen, checkBps, checkRiceBlocks, checkBgmcBlocks, checkRiceParams] <;>
    (repeat' split) <;> simp

/-- The outcomes of a `CMD` write: an error report with a proper cause, or the latch. -/
theorem acceptCommand_cases (w : Word) (s : State) :
    (∃ c, c ≠ .noCause ∧ acceptCommand w s = raiseError c s) ∨
      (s.busy = false ∧ ∃ i, decode w = .ok i ∧ valueCheck s.par i = none ∧
        acceptCommand w s = { latch w s with due := Config.freeLatency s.draws, draws := s.draws + 1 }) := by
  cases hb : s.busy with
  | true => exact .inl ⟨.cmdBusy, by decide, acceptCommand_busy hb w⟩
  | false =>
    cases hd : decode w with
    | error r => exact .inl ⟨.illegalCmd, by decide, acceptCommand_illegal hb hd⟩
    | ok i =>
      cases hv : valueCheck s.par i with
      | some c => exact .inl ⟨c, valueCheck_ne_noCause hv, acceptCommand_rejected hb hd hv⟩
      | none => exact .inr ⟨rfl, i, rfl, hv, acceptCommand_accepted hb hd hv⟩

/-! ## Host writes -/

/-- What a register write can do (R283). -/
theorem writeRegister_cases (a : Nat) (v : Word) (s : State) :
    (a = 0x010 ∧ writeRegister a v s = acceptCommand v s) ∨
    (a = 0x008 ∧ v.getLsbD 31 = true ∧ writeRegister a v s = softReset s) ∨
    (a = 0x008 ∧ v.getLsbD 31 = false ∧ writeRegister a v s = { s with ieDone := v.getLsbD 0, ieErr := v.getLsbD 1 }) ∨
    (a = 0x00C ∧ writeRegister a v s = ackStatus v s) ∨
    (s.busy = true ∧ writeRegister a v s = raiseError .accBusy s) ∨
    (s.busy = false ∧ ∃ p, writeParam a v s.par = some p ∧ writeRegister a v s = { s with par := p }) ∨
    writeRegister a v s = s := by
  unfold writeRegister
  split
  · exact .inl ⟨by assumption, rfl⟩
  · split
    · rename_i h
      unfold writeCtrl
      cases hv : v.getLsbD 31 with
      | true => exact .inr (.inl ⟨h, rfl, by simp⟩)
      | false => exact .inr (.inr (.inl ⟨h, rfl, by simp⟩))
    · split
      · exact .inr (.inr (.inr (.inl ⟨by assumption, rfl⟩)))
      · split
        · rename_i p hp
          cases hb : s.busy with
          | true => exact .inr (.inr (.inr (.inr (.inl ⟨rfl, by simp⟩))))
          | false => exact .inr (.inr (.inr (.inr (.inr (.inl ⟨rfl, p, hp, by simp⟩)))))
        · exact .inr (.inr (.inr (.inr (.inr (.inr rfl)))))

/-- What a host write can do (R283). -/
theorem hostWrite_cases (a z : Nat) (v : Word) (s : State) :
    (∃ c, c ≠ .noCause ∧ hostWrite a z v s = raiseError c s) ∨
    (z = 4 ∧ a < 0x100 ∧ hostWrite a z v s = writeRegister a v s) ∨
    (s.busy = false ∧ ∃ w j, w.addr j = a ∧ j < w.words ∧ hostWrite a z v s = { s with mem := s.mem.writeElem w j v }) ∨
    hostWrite a z v s = s := by
  unfold hostWrite
  cases hbad : busBad a z with
  | true => exact .inl ⟨.busError, by decide, by simp⟩
  | false =>
    simp only [busBad, Bool.or_eq_false_iff, decide_eq_false_iff_not, not_not] at hbad
    obtain ⟨⟨hz, ha⟩, -⟩ := hbad
    simp only [Bool.false_eq_true, if_false]
    split
    · rename_i o ho
      have ho' : a < 0x100 ∧ o = a := by
        unfold regionOf at ho
        split at ho
        · cases ho; exact ⟨by assumption, rfl⟩
        · split at ho
          · cases ho
          · split at ho
            · cases ho
            · split at ho <;> cases ho
      exact .inr (.inl ⟨hz, ho'.1, by rw [ho'.2]⟩)
    · rename_i w j hw
      cases hb : s.busy with
      | true => exact .inl ⟨.accBusy, by decide, by simp⟩
      | false =>
        obtain ⟨h1, h2⟩ := regionOf_ram hw ha
        exact .inr (.inr (.inl ⟨rfl, w, j, h1, h2, by simp⟩))
    · cases hb : s.busy with
      | true => exact .inl ⟨.accBusy, by decide, by simp⟩
      | false => exact .inr (.inr (.inr (by simp)))
    · cases hb : s.busy with
      | true => exact .inl ⟨.accBusy, by decide, by simp⟩
      | false => exact .inr (.inr (.inr (by simp)))
    · exact .inl ⟨.busError, by decide, rfl⟩

/-! ## Host reads -/

/-- What a host read can do (R282): it reports an error and returns 0, or it returns a value and changes nothing else; and it stops only on an unwritten word while idle. -/
theorem hostRead_cases (a z : Nat) (s : State) :
    (∃ c, c ≠ .noCause ∧ hostRead a z s = .ok (failRead c s)) ∨ (∃ v, hostRead a z s = .ok { s with rdata := v }) ∨
      (s.busy = false ∧ s.mem.readWord a = none ∧ hostRead a z s = .error (.unwrittenRead a)) := by
  unfold hostRead
  cases hbad : busBad a z with
  | true => exact .inl ⟨.busError, by decide, by simp⟩
  | false =>
    simp only [busBad, Bool.or_eq_false_iff, decide_eq_false_iff_not, not_not] at hbad
    obtain ⟨⟨-, ha⟩, -⟩ := hbad
    simp only [Bool.false_eq_true, if_false]
    split
    · exact .inr (.inl ⟨_, rfl⟩)
    · rename_i w j hw
      cases hb : s.busy with
      | true => exact .inl ⟨.accBusy, by decide, by simp⟩
      | false =>
        obtain ⟨h1, h2⟩ := regionOf_ram hw ha
        simp only [Bool.false_eq_true, if_false, Memory.readElem, h2, if_true, h1]
        cases hr : s.mem.readWord a with
        | none => exact .inr (.inr ⟨trivial, rfl, rfl⟩)
        | some raw => exact .inr (.inl ⟨_, rfl⟩)
    · cases hb : s.busy with
      | true => exact .inl ⟨.accBusy, by decide, by simp⟩
      | false => exact .inr (.inl ⟨_, by simp; rfl⟩)
    · cases hb : s.busy with
      | true => exact .inl ⟨.accBusy, by decide, by simp⟩
      | false => exact .inr (.inl ⟨_, by simp; rfl⟩)
    · exact .inl ⟨.busError, by decide, rfl⟩

/-- A host read of a register's offset gives the register, idle or not, and changes nothing else (R282). -/
theorem step_readRegister {s : State} {a : BitVec 24} {rest : List HostOp} (h : HostNext s (.read a 4) rest) (ha : a.toNat % 4 = 0) (hl : a.toNat < 0x100) :
    step s = .next { s.afterPop rest with rdata := readRegister a.toNat (s.afterPop rest) } := by
  have hreg : regionOf a.toNat = .csr a.toNat := by simp [regionOf, hl]
  have hbad : busBad a.toNat 4 = false := by simp [busBad, ha, hreg]
  rw [step_host h]
  simp only [hostTransact, hostRead, hbad, hreg, Bool.false_eq_true, if_false]

end Sys2Proof.Machine
end

