-- ==== Sys2Proof/Laws/Writes.lean ====
section
/-! SUPPORT. What any command's completion can change: the union of the write sets of spec/10_state.md R49. -/
namespace Sys2Proof.Machine

open Sys2Proof

/-- What a command's stores make of the memory `m`: element and range stores and free values, each inside QCOF, RCOF, LPC or RES (10_state.md R49). -/
inductive Writes (m : Memory) : Memory → Prop where
  | refl : Writes m m
  | range (m' w vs) : Writes m m' → (w = .qcof ∨ w = .rcof ∨ w = .lpc ∨ (w = .res)) → vs.length ≤ w.words → Writes m (m'.writeRange w 0 vs)
  | elem (m' w v) : Writes m m' → (w = .qcof ∨ w = .rcof) → Writes m (m'.writeElem w 0 v)
  | havoc (m' d w n) : Writes m m' → (w = .res ∨ w = .lpc) → n ≤ w.words → Writes m (m'.havocRange d w 0 n)

theorem Memory.readElem_havocRange_other (d : Nat) (w w' : Window) (j' : Nat) : ∀ n j (m : Memory), (∀ i, i < n → w.addr (j+i) ≠ w'.addr j') → (m.havocRange d w j n).readElem w' j' = m.readElem w' j'
  | 0, j, m, h => rfl
  | n+1, j, m, h => by
    simp only [Memory.havocRange]
    rw [Memory.readElem_havocRange_other d w w' j' n (j+1) _ (fun i hi => by have := h (i+1) (by omega); rwa [show j+(i+1) = j+1+i by omega] at this), Memory.readElem_writeElem_other _ _ (by simpa using h 0 (by omega))]

theorem Memory.readElem_past (m : Memory) (w : Window) {j : Nat} (h : ¬ j < w.words) : m.readElem w j = .error (.noSuchElement w j) := by simp [Memory.readElem, h]

/-- The stores touch no word of PARCOR, EERR or SMP. -/
theorem Writes.untouched {m m' : Memory} (h : Writes m m') (w : Window) (j : Nat) (hw : w = .parcor ∨ w = .eerr ∨ w = .smp) : m'.readElem w j = m.readElem w j := by
  by_cases hj : j < w.words
  · induction h with
    | refl => rfl
    | range m' w' vs _ hw' hl ih =>
      rw [Memory.readElem_writeRange_other fun i hi => Window.addr_ne (by rintro rfl; rcases hw with rfl | rfl | rfl <;> simp at hw') (by omega) hj, ih]
    | elem m' w' v _ hw' ih =>
      rw [Memory.readElem_writeElem_other _ _ (Window.addr_ne (by rintro rfl; rcases hw with rfl | rfl | rfl <;> simp at hw') (by rcases hw' with rfl | rfl <;> decide) hj), ih]
    | havoc m' d w' n _ hw' hl ih =>
      rw [Memory.readElem_havocRange_other, ih]
      intro i hi
      exact Window.addr_ne (by rintro rfl; rcases hw with rfl | rfl | rfl <;> simp at hw') (by omega) hj
  · rw [Memory.readElem_past _ _ hj, Memory.readElem_past _ _ hj]

/-- The stores keep the canonical form, the windows and whole words. -/
theorem Writes.inv {m m' : Memory} (h : Writes m m') : (m.wf = true → m'.wf = true) ∧ (m.inWindows = true → m'.inWindows = true) ∧ (m.wholeWords = true → m'.wholeWords = true) := by
  induction h with
  | refl => simp
  | range m' w' vs _ hw' hl ih => exact ⟨fun h => Memory.wf_writeRange (ih.1 h) _ _ _, fun h => Memory.inWindows_writeRange (ih.2.1 h) (by omega), fun h => Memory.wholeWords_writeRange (ih.2.2 h) _ _ _⟩
  | elem m' w' v _ hw' ih => exact ⟨fun h => Memory.wf_writeElem (ih.1 h) _ _ _, fun h => Memory.inWindows_writeElem (ih.2.1 h) (by rcases hw' with rfl | rfl <;> decide) _, fun h => Memory.wholeWords_writeElem (ih.2.2 h) _ _ _⟩
  | havoc m' d w' n _ hw' hl ih => exact ⟨fun h => Memory.wf_havocRange (ih.1 h) _ _ _ _, fun h => Memory.inWindows_havocRange (ih.2.1 h) _ (by omega), fun h => Memory.wholeWords_havocRange (ih.2.2 h) _ _ _ _⟩

/-- The stores leave written words written. -/
theorem Writes.written {m m' : Memory} (h : Writes m m') {x : Nat} (hx : (m.readWord x).isSome = true) : (m'.readWord x).isSome = true := by
  induction h with
  | refl => exact hx
  | range m' w vs _ _ _ ih => exact Memory.written_writeRange w vs 0 _ x ih
  | elem m' w v _ _ ih => exact Memory.written_writeWord _ _ _ _ ih
  | havoc m' d w n _ _ _ ih => exact Memory.written_havocRange d w n 0 _ x ih

theorem loadLpc_writes (rc : List Int) (hr : rc.length < 1024) (s : State) : Writes s.mem (loadLpc rc s).mem := by
  unfold loadLpc
  simp only
  have hl := effectiveRc_length_lt hr
  refine .range _ _ _ ?_ (by simp) (by simp [Window.words]; omega)
  split
  · exact .elem _ _ _ (.elem _ _ _ .refl (by simp)) (by simp)
  · exact .refl

/-- What holds of every completion: the registers no command writes, the bookkeeping, and the stores. -/
structure CompletionFrame (s t : State) : Prop where
  err : t.err = s.err
  ecause : t.ecause = s.ecause
  ieDone : t.ieDone = s.ieDone
  ieErr : t.ieErr = s.ieErr
  cmd : t.cmd = s.cmd
  done : t.done = true
  eng : t.eng = .idle
  due : t.due = 0
  rescode : t.par.rescode = s.par.rescode
  sbpart : t.par.sbpart = s.par.sbpart
  bps : t.par.bps = s.par.bps
  len : t.par.len = s.par.len
  bits : t.par.bitsMisc = s.par.bitsMisc
  mem : Writes s.mem t.mem

/-- Every command's completion has the frame, given its operands' ranges. -/
theorem exec_completionFrame (i : Instr) (s t : State) (hw : i.WellFormed) (hL : (∃ n ra, i = .resid n ra) ∨ (∃ n ct xo xe ra vd bg, i = .ordsel n ct xo xe ra vd bg) → s.blockLen ≤ 65536) (h : exec i s = .next t) : CompletionFrame s t := by
  cases i with
  | nop => cases h; exact ⟨rfl, rfl, rfl, rfl, rfl, rfl, rfl, rfl, rfl, rfl, rfl, rfl, rfl, .refl⟩
  | quant n =>
    obtain ⟨ps, hp, rfl⟩ := exec_quant_next.mp h
    have hl := Memory.readRange_length hp
    simp [Instr.WellFormed, Instr.wellFormed] at hw
    exact ⟨rfl, rfl, rfl, rfl, rfl, rfl, rfl, rfl, rfl, rfl, rfl, rfl, rfl, .range _ _ _ (.range _ _ _ .refl (by simp) (by simp [hl, Window.words]; omega)) (by simp) (by simp [hl, Window.words]; omega)⟩
  | recon n =>
    obtain ⟨ps, hp, rfl⟩ := exec_recon_next.mp h
    have hl := Memory.readRange_length hp
    simp [Instr.WellFormed, Instr.wellFormed] at hw
    exact ⟨rfl, rfl, rfl, rfl, rfl, rfl, rfl, rfl, rfl, rfl, rfl, rfl, rfl, .range _ _ _ .refl (by simp) (by simp [hl, Window.words]; omega)⟩
  | coefbits n ct =>
    obtain ⟨ps, hp, rfl⟩ := exec_coefbits_next.mp h
    exact ⟨rfl, rfl, rfl, rfl, rfl, rfl, rfl, rfl, rfl, rfl, rfl, rfl, rfl, .refl⟩
  | p2l n =>
    obtain ⟨rc, hp, rfl⟩ := exec_p2l_next.mp h
    have hl := Memory.readRange_length hp
    simp [Instr.WellFormed, Instr.wellFormed] at hw
    have hm := loadLpc_writes rc (by omega) s
    refine ⟨?_, ?_, ?_, ?_, ?_, rfl, rfl, rfl, ?_, ?_, ?_, ?_, ?_, hm⟩ <;> (simp only [complete, loadLpc]; split <;> rfl)
  | resid n ra =>
    obtain ⟨rc, es, hp, hb, rfl⟩ := exec_resid_next.mp h
    obtain ⟨xs, hx, rfl⟩ := blockResiduals_ok.mp hb
    have hl := Memory.readRange_length hp
    simp [Instr.WellFormed, Instr.wellFormed] at hw
    have hm := loadLpc_writes rc (by omega) s
    have := hL (.inl ⟨_, _, rfl⟩)
    refine ⟨?_, ?_, ?_, ?_, ?_, rfl, rfl, rfl, ?_, ?_, ?_, ?_, ?_, .range _ _ _ hm (by simp) (by simpa [Window.words] using this)⟩ <;> (simp only [complete, setRovf, loadLpc]; split <;> rfl)
  | ricebits n ra =>
    obtain ⟨es, hp, rfl⟩ := exec_ricebits_next.mp h
    exact ⟨rfl, rfl, rfl, rfl, rfl, rfl, rfl, rfl, rfl, rfl, rfl, rfl, rfl, .refl⟩
  | ricesrch n ra xe =>
    obtain ⟨es, hp, rfl⟩ := exec_ricesrch_next.mp h
    exact ⟨rfl, rfl, rfl, rfl, rfl, rfl, rfl, rfl, rfl, rfl, rfl, rfl, rfl, .refl⟩
  | bgmcbits n ra =>
    obtain ⟨es, hp, rfl⟩ := exec_bgmcbits_next.mp h
    exact ⟨rfl, rfl, rfl, rfl, rfl, rfl, rfl, rfl, rfl, rfl, rfl, rfl, rfl, .refl⟩
  | bgmcsrch n ra xe =>
    obtain ⟨es, hp, rfl⟩ := exec_bgmcsrch_next.mp h
    exact ⟨rfl, rfl, rfl, rfl, rfl, rfl, rfl, rfl, rfl, rfl, rfl, rfl, rfl, .refl⟩
  | ordsel n ct xo xe ra vd bg =>
    obtain ⟨a, -, rfl⟩ := exec_ordsel_next.mp h
    simp [Instr.WellFormed, Instr.wellFormed] at hw
    have := hL (.inr ⟨_, _, _, _, _, _, _, rfl⟩)
    refine ⟨rfl, rfl, rfl, rfl, rfl, rfl, rfl, rfl, rfl, rfl, rfl, rfl, rfl, .havoc _ _ _ _ (.havoc _ _ _ _ .refl (by simp) (by simpa [Window.words] using this)) (by simp) (by simp [Window.words]; omega)⟩

/-- A command that passed its value checks has LEN in range when it uses LEN (R302). -/
theorem valueCheck_len {p : ParamRegs} {i : Instr} (h : valueCheck p i = none) : ((∃ n ra, i = .resid n ra) ∨ (∃ n ct xo xe ra vd bg, i = .ordsel n ct xo xe ra vd bg) ∨ (∃ n ra xe, i = .ricebits n ra ∨ i = .bgmcbits n ra ∨ i = .ricesrch n ra xe ∨ i = .bgmcsrch n ra xe)) → p.len.toNat ≤ 65536 := by
  have key : checkLen p = none → p.len.toNat ≤ 65536 := by
    unfold checkLen; split
    · intro _; omega
    · simp
  rintro (⟨n, ra, rfl⟩ | ⟨n, ct, xo, xe, ra, vd, bg, rfl⟩ | ⟨n, ra, xe, rfl | rfl | rfl | rfl⟩) <;> simp [valueCheck] at h <;> exact key (by tauto)

/-- The write set of an abandoned command lies inside the windows. -/
theorem abandonedSet_words {p : ParamRegs} {i : Instr} (hw : i.WellFormed) (h : valueCheck p i = none) : ∀ r ∈ abandonedSet p.len.toNat i, r.2.1 + r.2.2 ≤ r.1.words := by
  have hl := valueCheck_len h
  intro r hr
  cases i <;> simp [Instr.WellFormed, Instr.wellFormed] at hw <;> simp [abandonedSet] at hr
  · rcases hr with rfl | rfl <;> simp [Window.words] <;> omega
  · subst hr; simp [Window.words]; omega
  · rcases hr with rfl | rfl | rfl <;> simp [Window.words]; omega
  · have := hl (.inl ⟨_, _, rfl⟩)
    rcases hr with rfl | rfl | rfl | rfl <;> simp [Window.words] <;> omega
  · have := hl (.inr (.inl ⟨_, _, _, _, _, _, _, rfl⟩))
    rcases hr with rfl | rfl <;> simp [Window.words] <;> omega

end Sys2Proof.Machine
end

