-- ==== Sys2Proof/Tests/Slice0.lean ====
section
/-! SUPPORT. The model's own tests: ill-formed terms, words written out from spec/30_encoding.md R113, single steps against spec/95_test_vectors.md, and for every
statement with hypotheses a concrete state that meets them. -/
namespace Sys2Proof.Tests

open Sys2Proof Sys2Proof.Machine

set_option Elab.async false

/-! ## Helpers -/

/-- A memory that holds the given values from word `j` of each window on. -/
def memOf (l : List (Window × Nat × List Int)) : Memory := l.foldl (fun m r => m.writeRange r.1 r.2.1 r.2.2) []

/-- Parameter registers with `LEN` = n, the others at their reset values. -/
def parLen (n : Nat) : ParamRegs := { ParamRegs.reset with len := BitVec.ofNat 17 n }

/-- The reset state with parameter registers and a memory. -/
def stateOf (p : ParamRegs) (l : List (Window × Nat × List Int)) : State := { State.reset with par := p, mem := memOf l }

/-- A state whose host still has these transactions to do. -/
def hostState (ops : List HostOp) : State := { State.reset with pending := ops }

/-- A state that runs `quant 1`, with `due` more host transactions before its completion. -/
def runState (due : Nat) (ops : List HostOp) : State :=
  { State.reset with mem := memOf [(.parcor, 0, [0])], cmd := 0x00000101#32, eng := .run 0x00000101#32 ParamRegs.reset, due := due, pending := ops }

/-- The signed elements j.. of a window in the next state. -/
def rangeOf (r : Host.Outcome State Fault Refusal) (w : Window) (j n : Nat) : Option (List Int) :=
  match r with
  | .next t => (t.mem.readRange w j n).toOption
  | _ => none

/-- A function of the next state. -/
def getOf {α : Type} (r : Host.Outcome State Fault Refusal) (f : State → α) : Option α :=
  match r with
  | .next t => some (f t)
  | _ => none

/-- `STATUS` and what the last read returned after `k` steps. -/
def seen (k : Nat) (s : State) : Option (Word × Word) := getOf (runSteps k s) (fun t => (statusWord t, t.rdata))

/-- SUBBLOCKS, SPAR, RESBITS, PARBITS, TOTBITS. -/
def counts (t : State) : Nat × List Nat × Nat × Nat × Nat :=
  (t.par.subblocks.toNat, t.par.spar.toList.map BitVec.toNat, t.resBits.toNat, t.parBits.toNat, t.totBits.toNat)

/-! ## WellFormed refuses ill-formed terms (R111, R112) -/

theorem test_wf_refuses_N : ([Instr.quant 1024, .recon 1024, .coefbits 1024 0, .p2l 1024, .resid 1024 true, .ricebits 1024 true,
    .ricesrch 1024 true true, .bgmcbits 1024 true, .bgmcsrch 1024 true true, .ordsel 1024 0 true true true true true].map Instr.wellFormed)
      = List.replicate 10 false := by decide

theorem test_wf_refuses_CT : ([Instr.coefbits 0 4, .ordsel 0 4 false false false false false].map Instr.wellFormed) = [false, false] := by decide

theorem test_wf_accepts_bounds : ([Instr.nop, .quant 1023, .coefbits 1023 3, .ordsel 1023 3 true true true true true].map Instr.wellFormed)
    = List.replicate 4 true := by decide

/-! ## Words written out from the patterns of R113 -/

theorem test_decode_nop : decode 0b00000000000000000000000000000000#32 = .ok .nop := by decide
theorem test_decode_quant : decode 0b00000000000000000000001100000001#32 = .ok (.quant 3) := by decide
theorem test_decode_recon : decode 0b00000000000000100000000100000010#32 = .ok (.recon 513) := by decide
theorem test_decode_coefbits : decode 0b00000000000010000000010100000011#32 = .ok (.coefbits 5 2) := by decide
theorem test_decode_p2l : decode 0b00000000000000000000001100000100#32 = .ok (.p2l 3) := by decide
theorem test_decode_resid : decode 0b00000000010000000000001000000101#32 = .ok (.resid 2 true) := by decide
theorem test_decode_ricebits : decode 0b00000000010000000000010100000110#32 = .ok (.ricebits 5 true) := by decide
theorem test_decode_ricesrch : decode 0b00000000011000000000001000000111#32 = .ok (.ricesrch 2 true true) := by decide
theorem test_decode_bgmcbits : decode 0b00000000000000000000000000001000#32 = .ok (.bgmcbits 0 false) := by decide
theorem test_decode_bgmcsrch : decode 0b00000000001000000000000100001001#32 = .ok (.bgmcsrch 1 false true) := by decide
theorem test_decode_ordsel : decode 0b00000000000111000000001000001010#32 = .ok (.ordsel 2 3 true false false false false) := by decide
theorem test_decode_ordsel_flags : decode 0b00000001101000000000110000001010#32 = .ok (.ordsel 12 0 false true false true true) := by decide

/-- E1, E2, E3 of spec/95_test_vectors.md: a reserved opcode, an unused field, a reserved bit. -/
theorem test_decode_illegal : (decode 0x0000000B#32).isOk = false ∧ (decode 0x00000100#32).isOk = false ∧ (decode 0x02000001#32).isOk = false := by decide

/-- R117's example and the encodings of P2, P3, V25 and V28. -/
theorem test_encode : encode (.ricesrch 2 true true) = 0x00600207#32 ∧ encode (.quant 3) = 0x00000301#32 ∧
    encode (.ricesrch 1 false true) = 0x00200107#32 ∧ encode (.ordsel 2 3 true false false false false) = 0x001C020A#32 ∧
    encode (.ordsel 12 3 false false false true false) = 0x008C0C0A#32 := by decide

theorem test_table_word : decodeTableWord 32 0x00600207 = some (.ricesrch 2 true true) ∧ decodeTableWord 32 0x0000000B = none := by decide

/-! ## One step of each command (spec/95_test_vectors.md) -/

/-- P1: NOP completes and sets DONE. -/
theorem test_nop : getOf (step (State.reset.withFetchWord 32 0)) statusWord = some 0x00000002#32 := by decide

/-- P2: `quant 3`. -/
def p2State : State := stateOf ParamRegs.reset [(.parcor, 0, [0x20000000, -276299776, 0x08000000])]

theorem test_quant : rangeOf (step (p2State.withFetchWord 32 0x00000301)) .qcof 0 3 = some [46, 37, 8] := by decide +kernel
theorem test_quant_rcof : rangeOf (exec (.quant 3) p2State) .rcof 0 3 = some [514336, -270112, 139264] := by decide +kernel

/-- V1: index 0 and index 1 quantize with opposite signs, and |p| > 1 saturates to −64. -/
theorem test_quant_signs : quant 0 0x40000000 = 63 ∧ quant 1 0x40000000 = -64 ∧ quant 0 (-0x80000000) = -64 ∧ quant 1 (-0x80000000) = 63 ∧
    quant 2 (-1) = -1 ∧ quant 2 (-0x80000000) = -64 := by decide +kernel

/-- V3: `recon 3` on the stored words 0x40, 0x40, 0x7F. -/
theorem test_recon : rangeOf (exec (.recon 3) (stateOf ParamRegs.reset [(.qcof, 0, [0x40, 0x40, 0x7F])])) .rcof 0 3
    = some [-1048544, 1048544, -8192] := by decide +kernel

/-- V4: ct = 3 costs 7 bits a coefficient. -/
theorem test_coefbits : getOf (exec (.coefbits 5 3) (stateOf ParamRegs.reset [(.qcof, 0, [0, 1, -64, 63, 5])])) (fun t => (t.coefBits, t.totBits))
    = some (35#32, 35#64) := by decide +kernel

/-- V5: coded lengths that depend on no table entry. -/
theorem test_cbits : [(20, 3), (21, 3), (21, -64), (126, 0), (127, 3), (127, -64)].map (fun x : Nat × Int => cbits Config.params x.1 x.2 0)
    = [4, 4, 35, 3, 5, 65] := by decide +kernel

/-- V7: `p2l 3`. -/
theorem test_p2l : rangeOf (exec (.p2l 3) (stateOf ParamRegs.reset [(.rcof, 0, [514336, -270112, 139264])])) .lpc 0 3
    = some [345970, -219398, 139264] := by decide +kernel

/-- V12: order 14 of the saturated coefficients takes the fallback: OPT_ORDER = 1, LPC[0] = −944608, STATUS = DONE | FBK. -/
theorem test_p2l_fallback : getOf (exec (.p2l 14) (stateOf ParamRegs.reset [(.rcof, 0, List.replicate 14 1040384)]))
    (fun t => (t.optOrder, statusWord t, (t.mem.readRange .lpc 0 1).toOption)) = some (1#10, 0x0A#32, some [-944608]) := by decide +kernel

/-- V10: RESID of an RA block; its history is unwritten. -/
theorem test_resid_ra : rangeOf (exec (.resid 2 true) (stateOf (parLen 6) [(.rcof, 0, [514336, -270112]), (.smp, 1024, [1000, 1100, 1150, 1180, 1190, 1185])]))
    .res 0 6 = some [1000, 1591, 1293, 1315, 1323, 1314] := by decide +kernel

/-- V13: a residual outside 32 bits wraps and sets ROVF. -/
theorem test_resid_overflow : getOf (exec (.resid 1 false) (stateOf (parLen 1) [(.rcof, 0, [-1048544]), (.smp, 1023, [-2147483648, 2147483647])]))
    (fun t => (statusWord t, (t.mem.readRange .res 0 1).toOption)) = some (0x12#32, some [-65537]) := by decide +kernel

/-- V14 and V15: RICEBITS without and with an RA head. -/
theorem test_ricebits : getOf (exec (.ricebits 0 false) (stateOf { parLen 4 with spar := sparOf [1] } [(.res, 0, [0, -1, 2, 5])])) counts
    = some (1, [1, 0, 0, 0, 0, 0, 0, 0], 15, 4, 19) := by decide +kernel
theorem test_ricebits_head : getOf (exec (.ricebits 5 true) (stateOf { parLen 4 with spar := sparOf [1] } [(.res, 0, [0, -1, 2, 5])])) counts
    = some (1, [1, 0, 0, 0, 0, 0, 0, 0], 29, 4, 33) := by decide +kernel

/-- V16 and V17: RICESRCH, estimate and exact. -/
def v16State : State := stateOf { parLen 16 with sbpart := true } [(.res, 0, List.replicate 8 0 ++ List.replicate 8 100)]

theorem test_ricesrch : getOf (exec (.ricesrch 0 false false) v16State) counts = some (4, [0, 0, 6, 6, 0, 0, 0, 0], 76, 20, 96) := by decide +kernel
theorem test_ricesrch_exact : getOf (exec (.ricesrch 0 false true) v16State) counts = some (4, [0, 0, 7, 7, 0, 0, 0, 0], 80, 22, 102) := by decide +kernel

/-- The stated toy parameters of V21 and V22. -/
def toy : Params where
  prtOffset _ _ := 0
  prtParam _ _ := 1
  bgmcMax sx := BitVec.ofNat 16 (256 + 16 * sx)
  acBits _ _ _ _ syms := (syms.map fun y => match y with | .esc => 2 | .msb m => lenSr m 0).sum
  escBits e s _ _ := lenSr e s
  flushBits := 2
  bgmcEst S n := 16 * floorLog2 (max (S / n) 1)
  logTerm _ _ := 0

def v21Data : List Int := [3, -2, 5, 0, 1, -1, 8, -9, 2, 2, -3, 4, 0, 0, 1, -6]

/-- V21: BGMCBITS's operation under the toy, with an RA head and with four sub-blocks. -/
theorem test_bgmcbits_head : getOf (finish (bgmcbitsOp toy 2 true (stateOf { parLen 16 with spar := sparOf [0x10] } [(.res, 0, v21Data)]))) counts
    = some (1, [16, 0, 0, 0, 0, 0, 0, 0], 89, 10, 99) := by decide +kernel
theorem test_bgmcbits_split : getOf (finish (bgmcbitsOp toy 0 false
    (stateOf { parLen 16 with sbpart := true, subblocks := 4, spar := sparOf [0x10, 0x12, 0x20, 0] } [(.res, 0, v21Data)]))) counts
    = some (4, [16, 18, 32, 0, 0, 0, 0, 0], 80, 42, 122) := by decide +kernel

/-- V22: BGMCSRCH's operation under the toy, estimate and exact. -/
theorem test_bgmcsrch : getOf (finish (bgmcsrchOp toy 0 false false (stateOf { parLen 16 with sbpart := true } [(.res, 0, v21Data)]))) counts
    = some (1, [16, 0, 0, 0, 0, 0, 0, 0], 78, 10, 88) := by decide +kernel
theorem test_bgmcsrch_exact : getOf (finish (bgmcsrchOp toy 0 false true (stateOf { parLen 16 with sbpart := true } [(.res, 0, v21Data)]))) counts
    = some (1, [20, 0, 0, 0, 0, 0, 0, 0], 75, 10, 85) := by decide +kernel

/-- The setup of V25–V28, with the high words of EERR given. -/
def ordState (es : List Int) : State :=
  stateOf { parLen 16 with bitsMisc := 10 } ([(.smp, 1022, (List.range 18).map fun i => 980 + 10 * (i : Int)), (.rcof, 0, [-1048544, 224]),
    (.qcof, 0, [-64, 26] ++ List.replicate 10 0)] ++ es.mapIdx (fun k e => (.eerr, 2 * k, [0, e])))

/-- V25: the exact path. -/
theorem test_ordsel_exact : getOf (exec (.ordsel 2 3 true false false false false) (ordState [])) (fun t => (t.optOrder.toNat, t.totBits.toNat))
    = some (1, 105) := by decide +kernel
/-- V28: the valley stop reads no later order. -/
theorem test_ordsel_valley : getOf (exec (.ordsel 12 3 false false false true false) (ordState (List.replicate 4 0x3FF00000)))
    (fun t => (t.optOrder.toNat, t.totBits.toNat)) = some (0, 11) := by decide +kernel

/-- V29: the test E ≥ 1. -/
theorem test_at_least_one : [0x3FF0000000000000#64, 0x7FF0000000000000#64, 0x7FF8000000000000#64, 0xC000000000000000#64, 0x3FEFFFFFFFFFFFFF#64,
    0x0000000000000000#64, 0x8000000000000000#64].map atLeastOne = [true, true, false, false, false, false, false] := by decide +kernel

/-! ## Host transactions (spec/95_test_vectors.md §7, §9) -/

/-- E1, E4, E13, E14, E15, E16: each one transaction from reset, and the STATUS it leaves. -/
theorem test_errors : [hostState [.write 0x010 4 0x0000000B], hostState [.write 0x010 4 0x00000005], hostState [.read 0x000 1], hostState [.read 0x002 4],
    hostState [.read 0x300000 4], hostState [.read 0x060 4]].map (seen 1)
    = [some (0x104, 0), some (0x304, 0), some (0x704, 0), some (0x704, 0), some (0x704, 0), some (0, 0)] := by decide +kernel

/-- E10: SPAR0 = 16 above kmax = 15. -/
theorem test_bad_param : seen 1 { State.reset with par := { parLen 16 with spar := sparOf [16] }, pending := [.write 0x010 4 0x00000006] }
    = some (0x604, 0) := by decide +kernel

/-- P5: IE_ERR, a rejected `resid 0`, its acknowledgement: ECAUSE keeps its value. -/
theorem test_interrupt : seen 3 (hostState [.write 0x008 4 2, .write 0x010 4 5, .read 0x00C 4]) = some (0x324, 0x324) ∧
    seen 3 (hostState [.write 0x008 4 2, .write 0x010 4 5, .write 0x00C 4 6]) = some (0x300, 0) := by decide +kernel

/-- R46: a host write of 0x7F to QCOF[0] stores −1. -/
theorem test_store_truncates : seen 2 (hostState [.write 0x011000 4 0x7F, .read 0x011000 4]) = some (0, 0xFFFFFFFF) := by decide +kernel

/-- V30: a soft reset restores CONFIG and LEN. -/
theorem test_soft_reset : getOf (runSteps 3 (hostState [.write 0x014 4 0x85, .write 0x018 4 16, .write 0x008 4 0x80000000])) State.par
    = some ParamRegs.reset := by decide +kernel

/-! ## Witnesses: encoding -/

theorem witness_DecodeOfEncode : (Instr.nop).WellFormed ∧ (Instr.ordsel 1023 3 true true true true true).WellFormed := by decide

theorem witness_EncodeOfDecode : decode 0x01FFFF0A#32 = .ok (.ordsel 1023 3 true true true true true) ∧ decode 0#32 = .ok .nop := by decide

theorem witness_LegalWordsExactlyTableRows :
    (0x0003FF01#32 &&& Mnemonic.quant.mask = Mnemonic.quant.pattern) ∧ 0x0B#8 ≤ fieldOP 0x0000000B#32 ∧ 0x0B#8 ≤ fieldOP 0xFFFFFFFF#32 ∧
    (fieldOP 0x00000100#32 = fieldOP Mnemonic.nop.pattern ∧ 0x00000100#32 &&& Mnemonic.nop.mask ≠ Mnemonic.nop.pattern) ∧
    ((hostState [.write 0x010 4 0x0B]).eng = .idle ∧ (decode 0x0000000B#32).isOk = false ∧
      (hostState [.write 0x010 4 0x0B]).pending = .write 0x010#24 4 0x0000000B#32 :: []) := by decide

/-! ## Witnesses: the step -/

theorem witness_StepRunsLatchedCommand : decode 0x00000101#32 = .ok (.quant 1) ∧
    ((runState 0 [.wait]).eng = .run 0x00000101#32 ParamRegs.reset ∧ (runState 0 [.wait]).due = 0) ∧
    ((runState 5 []).eng = .run 0x00000101#32 ParamRegs.reset ∧ (runState 5 []).pending = []) := by decide

theorem witness_StepPerformsHostTransaction : HostNext (hostState [.wait]) .wait [] ∧ HostNext (runState 1 [.wait]) .wait [] ∧
    (∃ t, hostTransact .wait ((runState 1 [.wait]).afterPop []) = .ok t) ∧
    (HostNext (hostState [.read 0x010000 4]) (.read 0x010000 4) [] ∧
      ∃ f, hostTransact (.read 0x010000 4) ((hostState [.read 0x010000 4]).afterPop []) = .error f) :=
  ⟨by unfold HostNext; decide, by unfold HostNext; decide, ⟨_, rfl⟩, by unfold HostNext; decide, .unwrittenRead 0x010000, by decide +kernel⟩

theorem witness_OnlyCmdWriteWakesIdleEngine : (State.reset.eng = .idle ∧ State.reset.pending = []) ∧
    ∃ t, (hostState [.write 0x010 4 0]).eng = .idle ∧ step (hostState [.write 0x010 4 0]) = .next t ∧ t.eng ≠ .idle :=
  ⟨by decide, _, rfl, rfl, by decide⟩

theorem witness_RunningCommandEndsWithinLatency : (runState 1 [.wait, .wait]).eng = .run 0x00000101#32 ParamRegs.reset ∧
    decode 0x00000101#32 = .ok (.quant 1) := by decide

/-- A state that runs a command meets the invariant. -/
theorem inv_runState : Inv (runState 2 [.wait]) :=
  ⟨by decide +kernel, by decide +kernel, by decide +kernel, by decide, rfl, rfl, rfl, rfl, .quant 1, by decide, by decide⟩

theorem witness_StepKeepsInvariant : Inv (runState 2 [.wait]) ∧ ∃ t, step (runState 2 [.wait]) = .next t := ⟨inv_runState, _, rfl⟩

theorem witness_OnlyUnwrittenReadsStop : Inv (hostState [.read 0x010000 4]) ∧ step (hostState [.read 0x010000 4]) = .fault (.unwrittenRead 0x010000) :=
  ⟨⟨rfl, rfl, rfl, by decide, rfl⟩, rfl⟩

theorem witness_CompletionRaisesNoError : ∃ t, (Instr.quant 1).WellFormed ∧ (stateOf (parLen 65536) [(.parcor, 0, [7])]).blockLen ≤ 65536 ∧
    exec (.quant 1) (stateOf (parLen 65536) [(.parcor, 0, [7])]) = .next t :=
  ⟨_, by decide, by decide, exec_quant_next.mpr ⟨[7], by decide +kernel, rfl⟩⟩

/-! ## Witnesses: the quantizer -/

/-- Every length up to a window's can be read back from a written memory. -/
theorem zeros_read (w : Window) {n : Nat} (h : n ≤ w.words) :
    (Memory.writeRange [] w 0 (List.replicate n 0)).readRange w 0 n = .ok (List.replicate n 0) := by
  have := Memory.readRange_writeRange_same (m := []) (w := w) (j := 0) (vs := List.replicate n 0) (by simpa using h)
    (fun i hi => by
      rw [List.getD_eq_getElem?_getD, List.getElem?_eq_getElem hi, Option.getD_some, List.getElem_replicate]
      cases w <;> decide)
  simpa using this

theorem zeroState_read (w : Window) {n : Nat} (h : n ≤ w.words) :
    (stateOf ParamRegs.reset [(w, 0, List.replicate n 0)]).mem.readRange w 0 n = .ok (List.replicate n 0) := zeros_read w h

theorem witness_QuantResult : (1023 < 1024 ∧ (stateOf ParamRegs.reset [(.parcor, 0, List.replicate 1023 0)]).mem.readRange .parcor 0 1023
    = .ok (List.replicate 1023 0)) ∧ State.reset.mem.readRange .parcor 0 0 = .ok [] := ⟨⟨by decide, zeroState_read .parcor (by simp [Window.words])⟩, rfl⟩

theorem witness_ReconResult : (1023 < 1024 ∧ (stateOf ParamRegs.reset [(.qcof, 0, List.replicate 1023 0)]).mem.readRange .qcof 0 1023
    = .ok (List.replicate 1023 0)) ∧ State.reset.mem.readRange .qcof 0 0 = .ok [] := ⟨⟨by decide, zeroState_read .qcof (by simp [Window.words])⟩, rfl⟩

theorem witness_CoefbitsResult : 1023 < 1024 ∧ 3 < 4 ∧ (stateOf ParamRegs.reset [(.qcof, 0, List.replicate 1023 0)]).mem.readRange .qcof 0 1023
    = .ok (List.replicate 1023 0) := ⟨by decide, by decide, zeroState_read .qcof (by simp [Window.words])⟩

theorem witness_QuantizerFrame : (∃ t, exec (.quant 3) p2State = .next t) ∧
    (∃ t, exec (.recon 1) (stateOf ParamRegs.reset [(.qcof, 0, [5])]) = .next t) ∧
    (∃ t, exec (.coefbits 1 0) (stateOf ParamRegs.reset [(.qcof, 0, [5])]) = .next t) ∧
    ¬ StoredAt .qcof 0 3 0x01100C ∧ ¬ StoredAt .rcof 0 3 0x01100C :=
  ⟨⟨_, exec_quant_next.mpr ⟨[0x20000000, -276299776, 0x08000000], by decide +kernel, rfl⟩⟩, ⟨_, exec_recon_next.mpr ⟨[5], by decide +kernel, rfl⟩⟩,
    ⟨_, exec_coefbits_next.mpr ⟨[5], by decide +kernel, rfl⟩⟩, by rintro ⟨i, hi, h1, h2⟩; simp [Window.addr, Window.base] at h1 h2; omega,
    by rintro ⟨i, hi, h1, h2⟩; simp [Window.addr, Window.base] at h1 h2; omega⟩

/-- Index 0: X < 0; X = 0 and X unsaturated; X saturated. Index 2: unsaturated at both ends of a bin, and saturated at both ends. -/
theorem witness_QuantFunction : (-2147483648 + 2 ^ 30 < (0 : Int)) ∧ (quant 0 (-2 ^ 30) < 63) ∧ (quant 0 0 < 63) ∧ quant 0 (2 ^ 30) = 63 ∧
    quant 1 (-2 ^ 30) = 63 ∧ (-64 < quant 2 (-2 ^ 24) ∧ quant 2 (-2 ^ 24) < 63) ∧ quant 2 (-2 ^ 30) = -64 ∧ quant 2 (63 * 2 ^ 24) = 63 := by
  decide +kernel

theorem witness_ReconstructedValuesFit : (memOf [(.qcof, 1023, [-64])]).readElem .qcof 1023 = .ok 0xFFFFFFC0#32 ∧
    ((-64 : Int) ≤ -64 ∧ (63 : Int) ≤ 63) ∧ 1023 < 1024 := by decide +kernel

theorem witness_ReconAfterQuantKeepsRcof : ∃ t, 3 < 1024 ∧ exec (.quant 3) p2State = .next t :=
  ⟨_, by decide, exec_quant_next.mpr ⟨[0x20000000, -276299776, 0x08000000], by decide +kernel, rfl⟩⟩

/-! ## Witnesses: the lattice and the residuals -/

theorem witness_LatticeStepEntries : 1 < [(381844 : Int), -270112].length ∧ (latticeStep [381844, -270112] 139264).getD 0 0 = 345970 := by decide

theorem witness_LowOrdersNeverOverflow : [(-1048576 : Int), 1048575].length ≤ 2 ∧ ∀ a ∈ [(-1048576 : Int), 1048575], -(2 ^ 20) ≤ a ∧ a < 2 ^ 20 := by decide

theorem witness_P2lResult : (2 < 1024 ∧ (stateOf ParamRegs.reset [(.rcof, 0, [514336, -270112])]).mem.readRange .rcof 0 2 = .ok [514336, -270112] ∧
    latticeOverflows [514336, -270112] = false) ∧ State.reset.mem.readRange .rcof 0 0 = .ok [] := by decide +kernel

/-- The state of V12's P2L. -/
def v12State : State := stateOf (parLen 1) [(.rcof, 0, List.replicate 14 1040384), (.smp, 1023, [0, 10])]

theorem v12_operands : v12State.mem.readRange .rcof 0 14 = .ok (List.replicate 14 1040384) ∧ latticeOverflows (List.replicate 14 1040384) = true := by
  decide +kernel

theorem witness_P2lFallback : v12State.mem.readRange .rcof 0 14 = .ok (List.replicate 14 1040384) ∧
    latticeOverflows (List.replicate 14 1040384) = true := v12_operands

/-- V9's state: order 1, one sample, its history written. -/
def v9State : State := stateOf (parLen 1) [(.rcof, 0, [-1048544]), (.smp, 1023, [100, 103])]

theorem v9_operands : v9State.mem.readRange .rcof 0 1 = .ok [-1048544] ∧ effectiveRc [-1048544] = [-1048544] ∧
    v9State.mem.readRange .smp (1024 - 1) (1 + v9State.blockLen) = .ok [100, 103] := by decide +kernel

/-- V9's RESID completes. -/
theorem v9_next : ∃ t, exec (.resid 1 false) v9State = .next t ∧ t.rovf = false ∧ t.mem.readRange .res 0 1 = .ok [3] :=
  ⟨_, exec_resid_next.mpr ⟨_, _, v9_operands.1, blockResiduals_ok.mpr ⟨_, v9_operands.2.2, rfl⟩, rfl⟩, by decide +kernel, by decide +kernel⟩

theorem witness_ResidResult : 1 < 1024 ∧ v9State.blockLen ≤ 65536 ∧ v9State.mem.readRange .rcof 0 1 = .ok [-1048544] ∧
    v9State.mem.readRange .smp (1024 - historyLen false (effectiveRc [-1048544]).length) (historyLen false (effectiveRc [-1048544]).length + v9State.blockLen)
      = .ok [100, 103] ∧
    v9State.mem.readRange .smp (1024 - historyLen true (effectiveRc [-1048544]).length) (historyLen true (effectiveRc [-1048544]).length + v9State.blockLen)
      = .ok [103] := by decide +kernel

/-- The fallback's clause: V12's coefficients overflow, and the one history sample and the block sample of its order 1 are written. -/
theorem witness_ResidResult_fallback : 14 < 1024 ∧ v12State.blockLen ≤ 65536 ∧ v12State.mem.readRange .rcof 0 14 = .ok (List.replicate 14 1040384) ∧
    v12State.mem.readRange .smp (1024 - historyLen false (effectiveRc (List.replicate 14 1040384)).length)
      (historyLen false (effectiveRc (List.replicate 14 1040384)).length + v12State.blockLen) = .ok [0, 10] ∧
    latticeOverflows (List.replicate 14 1040384) = true := by decide +kernel

theorem witness_LatticeFrame : (∃ t, v12State.mem.readRange .rcof 0 14 = .ok (List.replicate 14 1040384) ∧ exec (.p2l 14) v12State = .next t) ∧
    ∃ t, v9State.mem.readRange .rcof 0 1 = .ok [-1048544] ∧ exec (.resid 1 false) v9State = .next t :=
  ⟨⟨_, v12_operands.1, exec_p2l_next.mpr ⟨_, v12_operands.1, rfl⟩⟩, by
    obtain ⟨t, h, -⟩ := v9_next
    exact ⟨t, v9_operands.1, h⟩⟩

/-- V9's block as an RA block, with another history. -/
def v9Other : State := { v9State with mem := (v9State.mem).writeElem .smp 1023 77#32 }

theorem witness_RaBlockIgnoresHistory : ∃ t, 1 < 1024 ∧ v9State.blockLen ≤ 65536 ∧ v9Other = { v9State with mem := v9Other.mem } ∧
    (∀ (w : Window) (j : Nat), (w = .smp → 1024 ≤ j) → v9Other.mem.readElem w j = v9State.mem.readElem w j) ∧
    exec (.resid 1 true) v9State = .next t := by
  refine ⟨_, by decide, by decide, rfl, fun w j h => ?_,
    exec_resid_next.mpr ⟨_, _, v9_operands.1, blockResiduals_ok.mpr ⟨[103], by decide +kernel, rfl⟩, rfl⟩⟩
  by_cases hj : j < w.words
  · refine Memory.readElem_writeElem_other _ _ ?_
    by_cases hw : w = .smp
    · subst hw
      have := h rfl
      simp only [ne_eq, Window.addr_inj]
      omega
    · exact Window.addr_ne (Ne.symm hw) (by decide) hj
  · rw [Memory.readElem_past _ _ hj, Memory.readElem_past _ _ hj]

/-- The RA form: V9's sample without its history; no history value is asked for. -/
theorem witness_DecoderReproducesSamples_ra : ∃ t, 1 < 1024 ∧ v9State.blockLen ≤ 65536 ∧ v9State.mem.readRange .rcof 0 1 = .ok [-1048544] ∧
    v9State.mem.readRange .smp (1024 - historyLen true (effectiveRc [-1048544]).length) (historyLen true (effectiveRc [-1048544]).length + v9State.blockLen)
      = .ok [103] ∧
    (∀ i : Int, -(historyLen true (effectiveRc [-1048544]).length : Int) ≤ i → i < 0 →
      (fun _ : Int => (0 : Int)) i = sampleAt [103] (historyLen true (effectiveRc [-1048544]).length) i) ∧
    exec (.resid 1 true) v9State = .next t ∧ t.rovf = false ∧ t.mem.readRange .res 0 v9State.blockLen = .ok [103] ∧
    v9State.mem.readRange .smp 1024 v9State.blockLen = .ok [103] := by
  refine ⟨_, by decide, by decide, v9_operands.1, witness_ResidResult.2.2.2.2, fun i h1 h2 => ?_,
    exec_resid_next.mpr ⟨_, _, v9_operands.1, blockResiduals_ok.mpr ⟨[103], by decide +kernel, rfl⟩, rfl⟩, by decide +kernel, by decide +kernel, by decide +kernel⟩
  have hh : historyLen true (effectiveRc [-1048544]).length = 0 := rfl
  rw [hh] at h1
  omega

theorem witness_DecoderReproducesSamples : ∃ t, 1 < 1024 ∧ v9State.blockLen ≤ 65536 ∧ v9State.mem.readRange .rcof 0 1 = .ok [-1048544] ∧
    v9State.mem.readRange .smp (1024 - historyLen false (effectiveRc [-1048544]).length) (historyLen false (effectiveRc [-1048544]).length + v9State.blockLen)
      = .ok [100, 103] ∧
    (∀ i : Int, -(historyLen false (effectiveRc [-1048544]).length : Int) ≤ i → i < 0 →
      (fun _ : Int => (100 : Int)) i = sampleAt [100, 103] (historyLen false (effectiveRc [-1048544]).length) i) ∧
    exec (.resid 1 false) v9State = .next t ∧ t.rovf = false ∧ t.mem.readRange .res 0 v9State.blockLen = .ok [3] ∧
    v9State.mem.readRange .smp 1024 v9State.blockLen = .ok [103] := by
  obtain ⟨t, h, hr, he⟩ := v9_next
  refine ⟨t, by decide, by decide, v9_operands.1, witness_ResidResult.2.2.2.1, fun i h1 h2 => ?_, h, hr, he, by decide +kernel⟩
  have hh : historyLen false (effectiveRc [-1048544]).length = 1 := by decide +kernel
  rw [hh] at h1 ⊢
  have : i = -1 := by omega
  subst this
  decide

/-! ## Witnesses: Rice and BGMC -/

theorem witness_BitCountResults : v16State.mem.readRange .res 0 v16State.blockLen = .ok (List.replicate 8 0 ++ List.replicate 8 100) := by decide +kernel

theorem witness_SearchResults : v16State.mem.readRange .res 0 v16State.blockLen = .ok (List.replicate 8 0 ++ List.replicate 8 100) := witness_BitCountResults

theorem witness_EntropyFrame : (∃ t, exec (.ricebits 0 false) v16State = .next t) ∧ (∃ t, exec (.bgmcbits 0 false) v16State = .next t) ∧
    (∃ t, exec (.ricesrch 0 false true) v16State = .next t) ∧ ∃ t, exec (.bgmcsrch 0 false true) v16State = .next t :=
  ⟨⟨_, exec_ricebits_next.mpr ⟨_, witness_BitCountResults, rfl⟩⟩, ⟨_, exec_bgmcbits_next.mpr ⟨_, witness_BitCountResults, rfl⟩⟩,
    ⟨_, exec_ricesrch_next.mpr ⟨_, witness_BitCountResults, rfl⟩⟩, ⟨_, exec_bgmcsrch_next.mpr ⟨_, witness_BitCountResults, rfl⟩⟩⟩

/-- The walk ends at k0 on a plateau, below it down a slope, above it up a slope, at the ends of the range; a tie of the directions goes down; and a cheaper parameter
beyond one that does not improve is not found, where an argmin would find it. -/
theorem witness_RiceSearchIsLocal : riceSearch (fun _ => 0) 15 = 5 ∧ riceSearch (fun k => k) 15 = 0 ∧ riceSearch (fun k => 100 - k) 15 = 15 ∧
    riceSearch (fun k => (k - 3) + (3 - k)) 31 = 3 ∧ riceSearch (fun k => (k - 20) + (20 - k)) 31 = 20 ∧
    riceSearch (fun k => if k = 5 then 2 else 1) 15 = 4 ∧ riceSearch (fun k => if k = 15 then 0 else 1) 15 = 5 := by decide +kernel

/-- 4 is a candidate of 16 residuals, and not of 12, of 18, or with SBPART = 0; B = 4 has a first and a last sub-block. -/
theorem witness_RiceChoiceMinimal : RiceCandidate ⟨v16State.par, 0, false, List.replicate 16 0⟩ 4 ∧
    ¬ RiceCandidate ⟨v16State.par, 0, false, List.replicate 12 0⟩ 4 ∧ ¬ RiceCandidate ⟨v16State.par, 0, false, List.replicate 18 0⟩ 4 ∧
    ¬ RiceCandidate ⟨{ v16State.par with sbpart := false }, 0, false, List.replicate 16 0⟩ 4 ∧ 0 < 4 ∧ 3 < 4 := by
  unfold RiceCandidate; decide +kernel

/-- bb at both sides of its steps and at the longest block; LEN ≤ 8 at its boundary. -/
theorem witness_BgmcGeometry_bb : (bgmcBb 16 = 0 ∧ 2 ^ (2 * 1 + 2) < 17 ∧ bgmcBb 17 = 1) ∧ (bgmcBb 4096 = 4 ∧ 2 ^ (2 * 5 + 2) < 4097 ∧ bgmcBb 4097 = 5) ∧
    bgmcBb 65536 = 5 ∧ 8 ≤ 8 := by decide +kernel

theorem witness_BgmcGeometry : (255 ≤ 255 ∧ bgmcMaxOf { toy with bgmcMax := fun _ => 0 } 65536 255 ≤ 1) ∧
    ((toy.bgmcMax (0 % 16)).toNat = 256 ∧ ({ toy with bgmcMax := fun _ => 63#16 }.bgmcMax (0 % 16)).toNat < 2 ^ (6 - min (0 / 16) (bgmcBb 16))) := by
  decide +kernel

/-- V20's classification with k = 2 and half = 4, at both ends of the range. -/
theorem witness_BgmcSplitExact : bgmcSym toy 16 0x23 13 = .msb 3 ∧ bgmcSym toy 16 0x23 (-16) = .msb (-4) ∧ bgmcSym toy 16 0x23 16 = .esc ∧
    bgmcSym toy 16 0x23 (-17) = .esc := by decide +kernel

/-- No probe is cheaper, at both ends and with the lowest of two cheapest neighbours; down, with a tie of the directions and to 0; up, to 255; and a cheaper byte beyond five that do not improve is not found. -/
theorem witness_BgmcSearchNoWorseThanSeed : (0 ≤ 255 ∧ bgmcSearch (fun _ => 0) 255 = 255 ∧ bgmcSearch (fun _ => 0) 0 = 0 ∧
      bgmcSearch (fun p => if p = 98 ∨ p = 103 then 1 else 2) 100 = 98) ∧
    (5 ≤ 5 ∧ bgmcSearch (fun p => p) 5 = 0 ∧ bgmcSearch (fun p => if p = 100 then 2 else 1) 100 = 99) ∧
    (250 ≤ 250 ∧ bgmcSearch (fun p => 255 - p) 250 = 255 ∧ bgmcSearch (fun p => if p = 105 ∨ p = 111 then 1 else 2) 100 = 105) := by decide +kernel

/-- Evaluated candidates exist for every block; 8 is a candidate of 16 residuals and not of 20. -/
theorem witness_CheapestCandidateWins (P : Params) (blk : Block) (xe : Bool) :
    (∃ c : Nat → Choice, c 1 = bgmcChoice P blk xe 1 (bgmcEstimate P blk.res) ∧
      ∀ B ∈ [2, 4, 8], c B = bgmcChoice P blk xe B ((c (B / 2)).params.getD 0 0)) ∧
    BgmcCandidate ⟨v16State.par, 0, false, List.replicate 16 0⟩ 8 ∧ ¬ BgmcCandidate ⟨v16State.par, 0, false, List.replicate 20 0⟩ 8 := by
  refine ⟨?_, by unfold BgmcCandidate; decide +kernel, by unfold BgmcCandidate; decide +kernel⟩
  let c1 := bgmcChoice P blk xe 1 (bgmcEstimate P blk.res)
  let c2 := bgmcChoice P blk xe 2 (c1.params.getD 0 0)
  let c4 := bgmcChoice P blk xe 4 (c2.params.getD 0 0)
  refine ⟨fun B => if B = 1 then c1 else if B = 2 then c2 else if B = 4 then c4 else bgmcChoice P blk xe 8 (c4.params.getD 0 0), rfl, fun B hB => ?_⟩
  simp only [List.mem_cons, List.not_mem_nil, or_false] at hB
  rcases hB with rfl | rfl | rfl <;> rfl

/-! ## Witnesses: order selection -/

/-- A block of one sample and order 0: all ORDSEL's operands are written. -/
def ordOne : State := stateOf (parLen 1) [(.smp, 1024, [9]), (.eerr, 0, [0, 0x3FF00000])]

theorem witness_OrdselCompletes : 0 < 1024 ∧ ordOne.blockLen ≤ 65536 ∧ ordOne.mem.Written .qcof 0 0 ∧ ordOne.mem.Written .rcof 0 0 ∧
    ordOne.mem.Written .eerr 0 (2 * (0 + 1)) ∧ ordOne.mem.Written .smp (1024 - historyLen false 0) (historyLen false 0 + ordOne.blockLen) := by decide +kernel

/-- Order 2, with every order's operands (V25's). -/
theorem witness_OrdselCompletes_two : 2 < 1024 ∧ (ordState (List.replicate 3 0x3FF00000)).blockLen ≤ 65536 ∧ (ordState (List.replicate 3 0x3FF00000)).mem.Written .qcof 0 2 ∧
    (ordState (List.replicate 3 0x3FF00000)).mem.Written .rcof 0 2 ∧ (ordState (List.replicate 3 0x3FF00000)).mem.Written .eerr 0 (2 * (2 + 1)) ∧
    (ordState (List.replicate 3 0x3FF00000)).mem.Written .smp (1024 - historyLen false 2)
      (historyLen false 2 + (ordState (List.replicate 3 0x3FF00000)).blockLen) := by decide +kernel

theorem ordOne_cost : orderCost Config.params ordOne 0 ⟨3, false, false, false, false, false⟩ 0 = .ok (some 1) := by decide +kernel

theorem ordOne_next : ∃ t, exec (.ordsel 0 3 false false false false false) ordOne = .next t :=
  ⟨_, exec_ordsel_next.mpr ⟨⟨some 1, 0, 0⟩, by decide +kernel, rfl⟩⟩

theorem witness_FullEnumerationPicksLowestMinimum : ∃ t, 0 < 1024 ∧
    (∀ k, k ≤ 0 → orderCost Config.params ordOne 0 ⟨3, false, false, false, false, false⟩ k = .ok ((fun _ => some 1) k)) ∧
    exec (.ordsel 0 3 false false false false false) ordOne = .next t := by
  obtain ⟨t, h⟩ := ordOne_next
  refine ⟨t, by decide, fun k hk => ?_, h⟩
  have : k = 0 := by omega
  subst this
  exact ordOne_cost

/-- V28's ORDSEL, which stops at order 3 of 12; a cost below the best; and T + 1 costs that are not below it, from no miss and from T misses. -/
theorem witness_ValleyStopsAfterThresholdMisses :
    (∃ t, 12 < 1024 ∧ exec (.ordsel 12 3 false false false true false) (ordState (List.replicate 4 0x3FF00000)) = .next t) ∧
    ((fun _ => .ok (some 4) : Nat → Except Fault Cost) 7 = .ok (some 4) ∧ Cost.lt (some 4) (some 5) = true) ∧
    ((⟨some 5, 0, 0⟩ : OrderScan).miss ≤ 2 ∧ 2 + 1 - (⟨some 5, 0, 0⟩ : OrderScan).miss ≤ 3 ∧
      ∀ i, i < 2 + 1 - 0 → (fun _ => .ok (some 5) : Nat → Except Fault Cost) (1 + i) = .ok ((fun _ => some 5) i) ∧ Cost.lt (some 5) (some 5) = false) ∧
    (2 ≤ 2 ∧ 2 + 1 - 2 ≤ 1) :=
  ⟨⟨_, by decide, exec_ordsel_next.mpr ⟨⟨some 11, 0, 3⟩, by decide +kernel, rfl⟩⟩, ⟨rfl, rfl⟩, ⟨by decide, by decide, fun i _ => ⟨rfl, rfl⟩⟩, by decide⟩

theorem witness_OrdselFrame : ∃ t, exec (.ordsel 0 3 false false false false false) ordOne = .next t := ordOne_next

/-- Each clause: an unwritten first word, and an unwritten word after a written one. -/
theorem witness_UnwrittenReadsFault :
    (1 < 1024 ∧ 1 ≤ 1 ∧ (stateOf ParamRegs.reset [(.rcof, 0, [5])]).mem.Written .rcof 0 1 ∧
      (stateOf ParamRegs.reset [(.rcof, 0, [5])]).mem.readWord (Window.rcof.addr 1) = none) ∧
    (0 < (stateOf (parLen 1) []).blockLen ∧ (stateOf (parLen 1) []).blockLen ≤ 65536 ∧ (stateOf (parLen 1) []).mem.Written .res 0 0 ∧
      (stateOf (parLen 1) []).mem.readWord (Window.res.addr 0) = none) ∧
    (0 < 1024 ∧ (stateOf (parLen 1) []).mem.readRange .rcof 0 0 = .ok [] ∧ 0 < historyLen false (effectiveRc []).length + (stateOf (parLen 1) []).blockLen ∧
      (stateOf (parLen 1) []).mem.Written .smp (1024 - historyLen false (effectiveRc []).length) 0 ∧
      (stateOf (parLen 1) []).mem.readWord (Window.smp.addr (1024 - historyLen false (effectiveRc []).length + 0)) = none) ∧
    ((stateOf (parLen 1) []).mem.readWord (Window.eerr.addr 0) = none ∧ (stateOf (parLen 1) []).mem.readWord (Window.smp.addr (1024 + 0)) = none) ∧
    ((hostState [.read 0x10003C 4]).eng = .idle ∧ 15 < Window.smp.words ∧ (hostState [.read 0x10003C 4]).mem.readWord (Window.smp.addr 15) = none ∧
      (hostState [.read 0x10003C 4]).pending = .read (BitVec.ofNat 24 (Window.smp.addr 15)) 4 :: []) := by decide +kernel

/-- ORDSEL's clauses at order 0: the low half of EERR[0], and its high half; at order 1: the estimate's QCOF[0]; the exact count's RCOF[0], history sample and QCOF[0]. -/
theorem witness_UnwrittenReadsFault_ordsel :
    (orderReached (stateOf (parLen 1) []) 0 ⟨3, false, false, false, false, false⟩ 0 = true ∧ (stateOf (parLen 1) []).mem.readWord (Window.eerr.addr (2 * 0)) = none) ∧
    (orderReached (stateOf (parLen 1) [(.eerr, 0, [0])]) 0 ⟨3, false, false, false, false, false⟩ 0 = true ∧
      ((stateOf (parLen 1) [(.eerr, 0, [0])]).mem.readWord (Window.eerr.addr (2 * 0))).isSome = true ∧
      (stateOf (parLen 1) [(.eerr, 0, [0])]).mem.readWord (Window.eerr.addr (2 * 0 + 1)) = none) ∧
    (orderReached (stateOf (parLen 1) [(.eerr, 0, [0, 0x3FF00000, 0, 0x3FF00000])]) 1 ⟨3, false, false, false, true, false⟩ 1 = true ∧
      (stateOf (parLen 1) [(.eerr, 0, [0, 0x3FF00000, 0, 0x3FF00000])]).mem.readEerr 1 = .ok 0x3FF0000000000000#64 ∧ atLeastOne 0x3FF0000000000000#64 = true ∧
      (stateOf (parLen 1) [(.eerr, 0, [0, 0x3FF00000, 0, 0x3FF00000])]).mem.readWord (Window.qcof.addr 0) = none) ∧
    (orderReached (stateOf (parLen 1) [(.smp, 1024, [9])]) 1 ⟨3, true, false, false, true, false⟩ 1 = true ∧
      (stateOf (parLen 1) [(.smp, 1024, [9])]).mem.readWord (Window.rcof.addr 0) = none) ∧
    (orderReached (stateOf (parLen 1) [(.smp, 1024, [9]), (.rcof, 0, [0])]) 1 ⟨3, true, false, false, true, false⟩ 1 = true ∧
      (stateOf (parLen 1) [(.smp, 1024, [9]), (.rcof, 0, [0])]).mem.readRange .rcof 0 1 = .ok [0] ∧ latticeOverflows [0] = false ∧
      (stateOf (parLen 1) [(.smp, 1024, [9]), (.rcof, 0, [0])]).mem.readWord (Window.smp.addr (1024 - historyLen false 1 + 0)) = none) ∧
    (orderReached (stateOf (parLen 1) [(.smp, 1023, [8, 9]), (.rcof, 0, [0])]) 1 ⟨3, true, false, false, true, false⟩ 1 = true ∧
      (stateOf (parLen 1) [(.smp, 1023, [8, 9]), (.rcof, 0, [0])]).mem.Written .smp (1024 - historyLen false 1) (historyLen false 1 + 1) ∧
      (stateOf (parLen 1) [(.smp, 1023, [8, 9]), (.rcof, 0, [0])]).mem.readWord (Window.qcof.addr 0) = none) := by
  refine ⟨?_, ?_, ?_, ?_, ?_, ?_⟩ <;> decide +kernel

/-! ## Witnesses: acceptance, errors and the interrupt -/

theorem hostNext_idle (op : HostOp) : HostNext (hostState [op]) op [] := ⟨rfl, by intro h; cases h⟩
theorem hostNext_run (op : HostOp) : HostNext (runState 1 [op]) op [] := ⟨rfl, fun _ => Nat.one_pos⟩

/-- Each clause: busy; an illegal word; a legal word that fails a check; a legal word that passes. -/
theorem witness_CommandAcceptance : (HostNext (runState 1 [.write 0x010 4 0]) (.write 0x010#24 4 0) [] ∧ (runState 1 [.write 0x010 4 0]).busy = true) ∧
    (HostNext (hostState [.write 0x010 4 0x0B]) (.write 0x010#24 4 0x0B) [] ∧ (hostState [.write 0x010 4 0x0B]).busy = false ∧ (decode 0x0B#32).isOk = false) ∧
    (HostNext (hostState [.write 0x010 4 5]) (.write 0x010#24 4 5) [] ∧ decode 5#32 = .ok (.resid 0 false) ∧
      valueCheck ParamRegs.reset (.resid 0 false) = some .badLen) ∧
    (HostNext (hostState [.write 0x010 4 0]) (.write 0x010#24 4 0) [] ∧ decode 0#32 = .ok .nop ∧ valueCheck ParamRegs.reset .nop = none) :=
  ⟨⟨hostNext_run _, rfl⟩, ⟨hostNext_idle _, rfl, by decide⟩, ⟨hostNext_idle _, by decide, by decide⟩, hostNext_idle _, by decide, by decide⟩

/-- The bounds of every check: LEN 0, 1, 65536, 65537; BPS 3, 4, 32, 33; four sub-blocks that divide LEN; a parameter at kmax. -/
theorem witness_ValueChecksInOrder : ((State.reset.busy = false ∧ decode 5#32 = .ok (.resid 0 false) ∧ valueCheck State.reset.par (.resid 0 false) = some .badLen)) ∧
    ¬ (1 ≤ (parLen 0).len.toNat ∧ (parLen 0).len.toNat ≤ 65536) ∧ ¬ (1 ≤ (parLen 65537).len.toNat ∧ (parLen 65537).len.toNat ≤ 65536) ∧
    (1 ≤ (parLen 65536).len.toNat ∧ (parLen 65536).len.toNat ≤ 65536) ∧
    ¬ (4 ≤ (3#6).toNat ∧ (3#6).toNat ≤ 32) ∧ ¬ (4 ≤ (33#6).toNat ∧ (33#6).toNat ≤ 32) ∧ (4 ≤ (32#6).toNat ∧ (32#6).toNat ≤ 32) ∧
    (1 ≤ (parLen 16).len.toNat ∧ 4 ≤ (parLen 16).bps.toNat ∧ (parLen 16).bps.toNat ≤ 32 ∧
      valueCheck { parLen 16 with sbpart := true, subblocks := 4, spar := sparOf [15, 15, 15, 15, 255] } (.ricebits 0 false) = none ∧
      valueCheck { parLen 16 with sbpart := true, subblocks := 4, spar := sparOf [15, 15, 15, 16] } (.ricebits 0 false) = some .badParam) := by decide +kernel

/-- STATUS idle and while a command runs; the first and last register of the list, and SPAR7. -/
theorem witness_StatusRead : HostNext (hostState [.read 0x00C 4]) (.read 0x00C#24 4) [] ∧ HostNext (runState 1 [.read 0x00C 4]) (.read 0x00C#24 4) [] ∧
    HostNext (hostState [.read 0x000 4]) (.read 0x000#24 4) [] ∧ HostNext (runState 1 [.read 0x03C 4]) (.read 0x03C#24 4) [] ∧
    (HostNext (runState 1 [.read 0x05C 4]) (.read 0x05C#24 4) [] ∧ 0x05C#24 = BitVec.ofNat 24 (0x040 + 4 * (7 : Fin 8))) :=
  ⟨hostNext_idle _, hostNext_run _, hostNext_idle _, hostNext_run _, hostNext_run _, rfl⟩

/-- RESBITS and TOTBITS: the low word at the lower offset (R42). -/
theorem test_read_counts : seen 1 { State.reset with resBits := 0x0000000100000002#64, pending := [.read 0x030 4] } = some (0, 2) ∧
    seen 1 { State.reset with resBits := 0x0000000100000002#64, pending := [.read 0x034 4] } = some (0, 1) := by decide +kernel

theorem witness_StatusAndCtrlWrites : HostNext (hostState [.write 0x00C 4 6]) (.write 0x00C#24 4 6) [] ∧
    (HostNext (runState 1 [.write 0x008 4 3]) (.write 0x008#24 4 3) [] ∧ (3#32).getLsbD 31 = false) := ⟨hostNext_idle _, hostNext_run _, by decide⟩

/-- A report, a power-on reset and a soft reset. -/
theorem witness_EcauseChangesOnlyByReportOrReset :
    (∃ t, step (hostState [.write 0x010 4 0x0B]) = .next t ∧ t.ecause ≠ (hostState [.write 0x010 4 0x0B]).ecause) ∧
    (∃ t, step { hostState [.powerOn] with err := true, ecause := .badLen } = .next t ∧ t.ecause ≠ .badLen) ∧
    ∃ t, step { hostState [.write 0x008 4 0x80000000] with err := false, ecause := .badLen } = .next t ∧ t.ecause ≠ .badLen :=
  ⟨⟨_, rfl, by decide +kernel⟩, ⟨_, rfl, by decide⟩, ⟨_, rfl, by decide +kernel⟩⟩

/-! ## Witnesses: host accesses -/

/-- Each ground of a bus error: the size, the alignment, and the first unmapped offset after a window. -/
theorem witness_BusErrorIsPrecise : (2 ≠ 4 ∧ HostNext (hostState [.read 0x000 2]) (.read 0x000 2) []) ∧
    ((0x002#24).toNat % 4 ≠ 0 ∧ HostNext (hostState [.write 0x002 4 9]) (.write 0x002 4 9) []) ∧
    (¬ Mapped (0x016000#24).toNat ∧ ¬ Mapped (0xFFFFFC#24).toNat ∧ HostNext (runState 1 [.read 0x016000 4]) (.read 0x016000 4) []) :=
  ⟨⟨by decide, hostNext_idle _⟩, ⟨by decide, hostNext_idle _⟩, by decide, by decide, hostNext_run _⟩

theorem witness_BusyAccessRejected : (runState 1 [.read 0x017000 4]).busy = true ∧
    ((0x017000#24).toNat % 4 = 0 ∧ Mapped (0x017000#24).toNat ∧ 0x100 ≤ (0x017000#24).toNat ∧ HostNext (runState 1 [.read 0x017000 4]) (.read 0x017000 4) []) ∧
    ((0x05C#24).toNat % 4 = 0 ∧ Mapped (0x05C#24).toNat ∧
      (0x05C#24).toNat ∈ [0x014, 0x018, 0x01C, 0x020, 0x040, 0x044, 0x048, 0x04C, 0x050, 0x054, 0x058, 0x05C] ∧
      HostNext (runState 1 [.write 0x05C 4 1]) (.write 0x05C 4 1) []) ∧
    (Mapped (0x0FC#24).toNat ∧ (0x0FC#24).toNat < 0x100 ∧ HostNext (runState 1 [.read 0x0FC 4]) (.read 0x0FC 4) []) :=
  ⟨rfl, ⟨by decide, by decide, by decide, hostNext_run _⟩, ⟨by decide, by decide, by decide, hostNext_run _⟩, by decide, by decide, hostNext_run _⟩

theorem witness_ArrayWriteThenRead : ∀ w : Window, w.words - 1 < w.words ∧
    (hostState [.write (BitVec.ofNat 24 (w.addr (w.words - 1))) 4 5, .read (BitVec.ofNat 24 (w.addr (w.words - 1))) 4]).eng = .idle ∧
    (hostState [.write (BitVec.ofNat 24 (w.addr (w.words - 1))) 4 5, .read (BitVec.ofNat 24 (w.addr (w.words - 1))) 4]).pending =
      .write (BitVec.ofNat 24 (w.addr (w.words - 1))) 4 5 :: .read (BitVec.ofNat 24 (w.addr (w.words - 1))) 4 :: [] := by
  intro w
  cases w <;> exact ⟨by decide, rfl, rfl⟩

/-- The ends of every range of ignored offsets, all aligned; a write idle and while a command runs; a ROM write; a reserved read; the last words of the two ROM windows. -/
theorem witness_ReadOnlyWritesIgnored :
    (HostNext (hostState [.write 0x060 4 1]) (.write 0x060#24 4 1) [] ∧ HostNext (runState 1 [.write 0x03C 4 1]) (.write 0x03C#24 4 1) []) ∧
    ((hostState [.write 0x01713C 4 1]).eng = .idle ∧ (hostState [.write 0x01713C 4 1]).pending = .write 0x01713C#24 4 1 :: []) ∧
    HostNext (runState 1 [.read 0x0FC 4]) (.read 0x0FC#24 4) [] ∧
    (hostState [.read 0x0170EC 4]).pending = .read (BitVec.ofNat 24 (0x017000 + 4 * (20 * 2 + 19))) 4 :: [] ∧
    (hostState [.read 0x01713C 4]).pending = .read (BitVec.ofNat 24 (0x017100 + 4 * 15)) 4 :: [] ∧
    [0x000#24, 0x03C#24, 0x060#24, 0x0FC#24].all (fun a => decide (a.toNat % 4 = 0 ∧
      (a.toNat ∈ [0x000, 0x004, 0x024, 0x028, 0x02C, 0x030, 0x034, 0x038, 0x03C] ∨ (0x060 ≤ a.toNat ∧ a.toNat < 0x100)))) = true ∧
    [0x017000#24, 0x0170EC#24, 0x017100#24, 0x01713C#24].all (fun a => decide (a.toNat % 4 = 0 ∧
      ((0x017000 ≤ a.toNat ∧ a.toNat < 0x0170F0) ∨ (0x017100 ≤ a.toNat ∧ a.toNat < 0x017140)))) = true :=
  ⟨⟨hostNext_idle _, hostNext_run _⟩, ⟨rfl, rfl⟩, hostNext_run _, rfl, rfl, by decide +kernel, by decide +kernel⟩

theorem witness_ParameterWriteThenRead : (∀ p : BitVec 24 × Word, (hostState [.write p.1 4 0xFFFFFFFF, .read p.1 4]).eng = .idle ∧
      (hostState [.write p.1 4 0xFFFFFFFF, .read p.1 4]).pending = .write p.1 4 0xFFFFFFFF :: .read p.1 4 :: []) ∧
    [(0x014#24, 0x1FF#32), (0x018#24, 0x1FFFF#32), (0x01C#24, 0xFFFFFFFF#32), (0x020#24, 0xF#32), (0x040#24, 0xFF#32), (0x05C#24, 0xFF#32)].all
      (fun p => decide ((p.1.toNat, p.2) ∈ [(0x014, 0x1FF#32), (0x018, 0x1FFFF#32), (0x01C, 0xFFFFFFFF#32), (0x020, 0xF#32)] ∨
        (p.2 = 0xFF#32 ∧ p.1.toNat ∈ [0x040, 0x044, 0x048, 0x04C, 0x050, 0x054, 0x058, 0x05C]))) = true :=
  ⟨fun _ => ⟨rfl, rfl⟩, by decide +kernel⟩

theorem witness_RunningCommandInputsFrozen : ∃ t, (runState 1 [.write 0x018 4 9]).eng = .run 0x00000101#32 ParamRegs.reset ∧
    HostNext (runState 1 [.write 0x018 4 9]) (.write 0x018 4 9) [] ∧ step (runState 1 [.write 0x018 4 9]) = .next t := ⟨_, rfl, hostNext_run _, rfl⟩

/-- A transaction that is no reset, and each reset. -/
theorem witness_HostNeverWritesResults :
    (∃ t, HostNext (hostState [.write 0x024 4 9]) (.write 0x024 4 9) [] ∧ step (hostState [.write 0x024 4 9]) = .next t ∧ isReset (.write 0x024 4 9) = false) ∧
    (∃ t, HostNext (runState 1 [.write 0x008 4 0x80000000]) (.write 0x008#24 4 0x80000000) [] ∧
      step (runState 1 [.write 0x008 4 0x80000000]) = .next t ∧ isReset (.write 0x008#24 4 0x80000000) = true) ∧
    ∃ t, HostNext (runState 1 [.powerOn]) .powerOn [] ∧ step (runState 1 [.powerOn]) = .next t ∧ isReset .powerOn = true :=
  ⟨⟨_, hostNext_idle _, rfl, rfl⟩, ⟨_, hostNext_run _, rfl, rfl⟩, _, hostNext_run _, rfl, rfl⟩

theorem witness_WrittenWordsStayWritten : ∃ t, step (runState 1 [.write 0x008 4 0x80000000]) = .next t ∧
    ((runState 1 [.write 0x008 4 0x80000000]).mem.readWord (Window.parcor.addr 0)).isSome = true := ⟨_, rfl, by decide +kernel⟩

/-! ## Witnesses: reset -/

theorem witness_ResetRegisterValues : (0x000 % 4 = 0 ∧ 0x000 < 0x100) ∧ (0x014 % 4 = 0 ∧ 0x014 < 0x100) ∧ (0x0FC % 4 = 0 ∧ 0x0FC < 0x100) := by decide

theorem witness_SoftResetEffects : ((0x80000000#32).getLsbD 31 = true) ∧
    (HostNext (hostState [.write 0x008 4 0x80000000]) (.write 0x008#24 4 0x80000000) [] ∧ (hostState [.write 0x008 4 0x80000000]).eng = .idle) ∧
    (HostNext (runState 1 [.write 0x008 4 0x80000000]) (.write 0x008#24 4 0x80000000) [] ∧
      (runState 1 [.write 0x008 4 0x80000000]).eng = .run 0x00000101#32 ParamRegs.reset ∧ decode 0x00000101#32 = .ok (.quant 1)) :=
  ⟨by decide, ⟨hostNext_idle _, rfl⟩, hostNext_run _, rfl, by decide⟩

theorem witness_PowerOnResetForgetsAll : HostNext (runState 1 [.powerOn]) .powerOn [] := hostNext_run _

theorem witness_WaitPollsStatus : HostNext (runState 1 [.wait]) .wait [] ∧ HostNext (hostState [.wait]) .wait [] := ⟨hostNext_run _, hostNext_idle _⟩

end Sys2Proof.Tests
end

section
namespace Sys2Proof.Machine
open Sys2Proof

/-! # What a host transaction does

The transactions split by `isReset`: the resets, and the rest, whose effects are the constructors of `HostEffect`. -/

/-- The effects a host transaction that is no reset can have on ALSQ (R280, R282, R283, R118). -/
inductive HostEffect (s : State) : State → Prop where
  /-- An error report (R304); a failed read also returns a value. -/
  | report (c : Cause) (v : Word) : c ≠ .noCause → HostEffect s { raiseError c s with rdata := v }
  /-- An accepted command (R280). -/
  | accept (w : Word) (i : Instr) (due draws : Nat) : decode w = .ok i → valueCheck s.par i = none →
      HostEffect s { latch w s with due := due, draws := draws }
  /-- A store to an array word (R46). -/
  | store (w : Window) (j : Nat) (v : Word) : j < w.words → HostEffect s { s with mem := s.mem.writeElem w j v }
  /-- A write to a parameter register, while idle (R88). -/
  | param (p : ParamRegs) : s.eng = .idle → HostEffect s { s with par := p }
  /-- Enables set, DONE or ERR acknowledged, a value read, or a `wait` queued again: ERR is not raised here. -/
  | quiet (ieDone ieErr done err : Bool) (rdata : Word) (pending : List HostOp) : (err = true → s.err = true) →
      HostEffect s { s with ieDone := ieDone, ieErr := ieErr, done := done, err := err, rdata := rdata, pending := pending }

/-- A transaction that leaves the state as it is has the quiet effect. -/
theorem HostEffect.refl (s : State) : HostEffect s s := .quiet s.ieDone s.ieErr s.done s.err s.rdata s.pending id

/-- A read returns a value and changes nothing else. -/
theorem HostEffect.read (s : State) (v : Word) : HostEffect s { s with rdata := v } :=
  .quiet s.ieDone s.ieErr s.done s.err v s.pending id

/-- A report that returns no value. -/
theorem HostEffect.reported {s : State} {c : Cause} (hc : c ≠ .noCause) : HostEffect s (raiseError c s) := .report c s.rdata hc

theorem hostEffect_read {a z : Nat} {s t : State} (h : hostRead a z s = .ok t) : HostEffect s t := by
  obtain ⟨c, hc, e⟩ | ⟨v, e⟩ | ⟨-, -, e⟩ := hostRead_cases a z s <;> rw [e] at h <;> cases h
  · exact .report c 0#32 hc
  · exact .read s v

theorem hostEffect_accept (w : Word) (s : State) : HostEffect s (acceptCommand w s) := by
  obtain ⟨c, hc, e⟩ | ⟨-, i, hd, hv, e⟩ := acceptCommand_cases w s <;> rw [e]
  · exact .reported hc
  · exact .accept w i _ _ hd hv

/-- A register write that does not ask for the soft reset. -/
theorem hostEffect_writeRegister {a : Nat} {v : Word} {s : State} (hr : ¬ (a = 0x008 ∧ v.getLsbD 31 = true)) :
    HostEffect s (writeRegister a v s) := by
  obtain ⟨-, e⟩ | ⟨ha, hv, -⟩ | ⟨-, -, e⟩ | ⟨-, e⟩ | ⟨-, e⟩ | ⟨hb, p, -, e⟩ | e := writeRegister_cases a v s
  · exact e ▸ hostEffect_accept v s
  · exact absurd ⟨ha, hv⟩ hr
  · exact e ▸ .quiet _ _ s.done s.err s.rdata s.pending id
  · exact e ▸ .quiet s.ieDone s.ieErr _ _ s.rdata s.pending (fun h => (Bool.and_eq_true_iff.mp h).1)
  · exact e ▸ .reported (by decide)
  · exact e ▸ .param p (idle_of_not_busy hb)
  · exact e.symm ▸ .refl s

theorem hostEffect_write {a : BitVec 24} {z : Nat} {v : Word} {s : State} (hr : isReset (.write a z v) = false) :
    HostEffect s (hostWrite a.toNat z v s) := by
  obtain ⟨c, hc, e⟩ | ⟨hz, -, e⟩ | ⟨-, w, j, -, hj, e⟩ | e := hostWrite_cases a.toNat z v s <;> rw [e]
  · exact .reported hc
  · refine hostEffect_writeRegister fun ⟨ha, hv⟩ => ?_
    have ha' : a = 0x008#24 := BitVec.eq_of_toNat_eq ha
    rw [isReset, ha', hz, hv] at hr
    cases hr
  · exact .store w j v hj
  · exact .refl s

theorem hostEffect_wait (s : State) : HostEffect s (hostWait s) := by
  unfold hostWait
  split
  · exact .quiet s.ieDone s.ieErr s.done s.err _ _ id
  · exact .read s _

/-- What a transaction that is no reset does. -/
theorem hostEffect_of_transact {op : HostOp} {s t : State} (hr : isReset op = false) (h : hostTransact op s = .ok t) : HostEffect s t := by
  cases op with
  | read a z => exact hostEffect_read h
  | write a z v => cases h; exact hostEffect_write hr
  | wait => cases h; exact hostEffect_wait s
  | powerOn => cases hr

/-- What a reset does: the soft reset (R284) or the power-on reset (R340). -/
theorem hostTransact_of_isReset {op : HostOp} (hr : isReset op = true) (s : State) :
    hostTransact op s = .ok (softReset s) ∨ hostTransact op s = .ok (powerOnReset s) := by
  cases op with
  | read a z => cases hr
  | write a z v =>
    simp only [isReset, Bool.and_eq_true, decide_eq_true_eq] at hr
    obtain ⟨⟨rfl, rfl⟩, hv⟩ := hr
    left
    simp [hostTransact, hostWrite, busBad, regionOf, writeRegister, writeCtrl, hv]
  | wait => cases hr
  | powerOn => exact .inr rfl

/-- A host step that answers a next state is its transaction's effect. -/
theorem hostTransact_of_step {s t : State} {op : HostOp} {rest : List HostOp} (hn : HostNext s op rest) (h : step s = .next t) :
    hostTransact op (s.afterPop rest) = .ok t := by
  rw [step_host hn] at h
  split at h
  · rename_i u hu
    cases h
    exact hu
  · cases h

/-! # The invariant -/

theorem engineInv_of_idle {s : State} (h : s.eng = .idle) (hd : s.due = 0) : EngineInv s := by simpa [EngineInv, h] using hd

theorem EngineInv.due_of_idle {s : State} (hi : EngineInv s) (h : s.eng = .idle) : s.due = 0 := by simpa [EngineInv, h] using hi

theorem EngineInv.of_run {s : State} (hi : EngineInv s) {w : Word} {snap : ParamRegs} (h : s.eng = .run w snap) :
    snap = s.par ∧ s.cmd = w ∧ s.fbk = false ∧ s.rovf = false ∧ ∃ i, decode w = .ok i ∧ valueCheck s.par i = none := by
  simpa [EngineInv, h] using hi

/-- What `EngineInv` reads of the state; of a running command's latency it says nothing. -/
theorem EngineInv.congr {s t : State} (hi : EngineInv s) (heng : t.eng = s.eng) (hdue : s.busy = false → t.due = s.due)
    (hpar : t.par = s.par) (hcmd : t.cmd = s.cmd) (hfbk : t.fbk = s.fbk) (hrovf : t.rovf = s.rovf) : EngineInv t := by
  cases he : s.eng with
  | idle => exact engineInv_of_idle (heng.trans he) ((hdue (busy_of_idle he)).trans (hi.due_of_idle he))
  | run w snap =>
    have := hi.of_run he
    simpa [EngineInv, heng.trans he, hpar, hcmd, hfbk, hrovf] using this

theorem Inv.afterPop {s : State} (h : Inv s) (rest : List HostOp) : Inv (s.afterPop rest) where
  memWf := h.memWf
  memWindows := h.memWindows
  memWhole := h.memWhole
  errCause := h.errCause
  engine := h.engine.congr rfl (fun hb => by simp [hb]) rfl rfl rfl rfl

/-- A reset state whose arrays are canonical meets the invariant, whatever the host's part. -/
theorem inv_of_reset {m : Memory} (hwf : m.wf = true) (hwin : m.inWindows = true) (hwhole : m.wholeWords = true)
    (draws : Nat) (rdata : Word) (pending : List HostOp) :
    Inv { State.reset with mem := m, draws := draws, rdata := rdata, pending := pending } where
  memWf := hwf
  memWindows := hwin
  memWhole := hwhole
  errCause := fun h => by cases h
  engine := rfl

theorem Inv.powerOnReset (s : State) : Inv (powerOnReset s) := inv_of_reset rfl rfl rfl s.draws s.rdata s.pending

/-- The free values of an abandoned write set keep the arrays canonical (R342). -/
theorem Inv.abandon {s : State} (h : Inv s) :
    (abandon s).wf = true ∧ (abandon s).inWindows = true ∧ (abandon s).wholeWords = true := by
  unfold Machine.abandon
  split
  · exact ⟨h.memWf, h.memWindows, h.memWhole⟩
  · rename_i w snap he
    obtain ⟨rfl, -, -, -, i, hd, hv⟩ := h.engine.of_run he
    simp only [hd]
    exact ⟨Memory.wf_havocAll h.memWf _ _, Memory.inWindows_havocAll h.memWindows _ (abandonedSet_words (wellFormed_of_decode hd) hv),
      Memory.wholeWords_havocAll h.memWhole _ _⟩

theorem Inv.softReset {s : State} (h : Inv s) : Inv (softReset s) := by
  obtain ⟨hwf, hwin, hwhole⟩ := h.abandon
  exact inv_of_reset hwf hwin hwhole (s.draws + 1) s.rdata s.pending

/-- A transaction that is no reset keeps the invariant. -/
theorem Inv.hostEffect {s t : State} (h : Inv s) (he : HostEffect s t) : Inv t := by
  cases he with
  | report c v hc => exact ⟨h.memWf, h.memWindows, h.memWhole, fun _ => hc, h.engine.congr rfl (fun _ => rfl) rfl rfl rfl rfl⟩
  | accept w i due draws hd hv => exact ⟨h.memWf, h.memWindows, h.memWhole, h.errCause, rfl, rfl, rfl, rfl, i, hd, hv⟩
  | store w j v hj =>
    exact ⟨Memory.wf_writeElem h.memWf w j v, Memory.inWindows_writeElem h.memWindows hj v, Memory.wholeWords_writeElem h.memWhole w j v,
      h.errCause, h.engine.congr rfl (fun _ => rfl) rfl rfl rfl rfl⟩
  | param p hidle =>
    exact ⟨h.memWf, h.memWindows, h.memWhole, h.errCause, engineInv_of_idle hidle (h.engine.due_of_idle hidle)⟩
  | quiet ieDone ieErr done err rdata pending herr =>
    exact ⟨h.memWf, h.memWindows, h.memWhole, fun ht => h.errCause (herr ht), h.engine.congr rfl (fun _ => rfl) rfl rfl rfl rfl⟩

theorem Inv.hostTransact {s t : State} {op : HostOp} (h : Inv s) (ht : hostTransact op s = .ok t) : Inv t := by
  cases hr : isReset op with
  | false => exact h.hostEffect (hostEffect_of_transact hr ht)
  | true =>
    obtain e | e := hostTransact_of_isReset hr s <;> rw [e] at ht <;> cases ht
    · exact h.softReset
    · exact .powerOnReset s

/-- The frame of a completion keeps the invariant: the stores keep the arrays canonical, and the engine is idle. -/
theorem Inv.completion {s t : State} (h : Inv s) (hf : CompletionFrame s t) : Inv t := by
  obtain ⟨hwf, hwin, hwhole⟩ := hf.mem.inv
  refine ⟨hwf h.memWf, hwin h.memWindows, hwhole h.memWhole, ?_, engineInv_of_idle hf.eng hf.due⟩
  rw [hf.err, hf.ecause]
  exact h.errCause

/-- Under the invariant, a completion has the frame of every command: the latched word is legal and its LEN was checked. -/
theorem Inv.completionFrame {s t : State} (h : Inv s) {w : Word} {snap : ParamRegs} (he : s.eng = .run w snap)
    (ht : engineTurn w s = .next t) : CompletionFrame s t := by
  obtain ⟨-, -, -, -, i, hd, hv⟩ := h.engine.of_run he
  rw [engineTurn_ok hd] at ht
  exact exec_completionFrame i s t (wellFormed_of_decode hd) (fun hi => valueCheck_len hv (hi.imp_right .inl)) ht

/-- Settles O9: the arrays are empty, ERR is clear and the engine is idle. -/
theorem resetMeetsInvariant : Obligations.ResetMeetsInvariant := inv_of_reset rfl rfl rfl 0 0#32 []

/-- Settles O10, by the cases of a step: idleness, a host transaction, a completion. -/
theorem stepKeepsInvariant : Obligations.StepKeepsInvariant := by
  intro s t h ht
  obtain ⟨-, -, e⟩ | ⟨op, rest, hn⟩ | ⟨w, snap, he, -, e⟩ := step_cases s
  · rw [e] at ht
    cases ht
    exact h
  · exact (h.afterPop rest).hostTransact (hostTransact_of_step hn ht)
  · rw [e] at ht
    exact h.completion (h.completionFrame he ht)

/-! # What a step can do to ECAUSE and to the results -/

/-- No command writes ECAUSE (R49). -/
theorem exec_ecause {i : Instr} {s t : State} (h : exec i s = .next t) : t.ecause = s.ecause := by
  cases i with
  | nop => cases h; rfl
  | quant n => obtain ⟨ps, -, rfl⟩ := exec_quant_next.mp h; rfl
  | recon n => obtain ⟨qs, -, rfl⟩ := exec_recon_next.mp h; rfl
  | coefbits n ct => obtain ⟨qs, -, rfl⟩ := exec_coefbits_next.mp h; rfl
  | p2l n =>
    obtain ⟨rc, -, rfl⟩ := exec_p2l_next.mp h
    rw [complete_ecause, loadLpc_eq]
  | resid n ra =>
    obtain ⟨rc, es, -, -, rfl⟩ := exec_resid_next.mp h
    rw [complete_ecause, setRovf_ecause, loadLpc_eq]
  | ricebits n ra => obtain ⟨es, -, rfl⟩ := exec_ricebits_next.mp h; rfl
  | ricesrch n ra xe => obtain ⟨es, -, rfl⟩ := exec_ricesrch_next.mp h; rfl
  | bgmcbits n ra => obtain ⟨es, -, rfl⟩ := exec_bgmcbits_next.mp h; rfl
  | bgmcsrch n ra xe => obtain ⟨es, -, rfl⟩ := exec_bgmcsrch_next.mp h; rfl
  | ordsel n ct xo xe ra vd bg => obtain ⟨a, -, rfl⟩ := exec_ordsel_next.mp h; rfl

theorem engineTurn_ecause {w : Word} {s t : State} (h : engineTurn w s = .next t) : t.ecause = s.ecause := by
  unfold engineTurn at h
  split at h
  · exact exec_ecause h
  · cases h

/-- A transaction that is no reset and changes ECAUSE is an error report (R304). -/
theorem HostEffect.report_of_ecause_ne {s t : State} (h : HostEffect s t) (hne : t.ecause ≠ s.ecause) :
    t.ecause ≠ .noCause ∧ t = { s with err := true, ecause := t.ecause, rdata := t.rdata } := by
  cases h with
  | report c v hc => exact ⟨hc, rfl⟩
  | accept | store | param | quiet => exact absurd rfl hne

/-- A reset gives every register its reset value (R284, R340). -/
theorem hostTransact_reset_eq {op : HostOp} {s t : State} (hr : isReset op = true) (h : hostTransact op s = .ok t) :
    t = { State.reset with mem := t.mem, draws := t.draws, rdata := t.rdata, pending := t.pending } := by
  obtain e | e := hostTransact_of_isReset hr s <;> rw [e] at h <;> cases h <;> rfl

/-- A transaction that can report an error is a bus read or write. -/
theorem isBus_of_ecause_ne {op : HostOp} {s t : State} (hr : isReset op = false) (h : hostTransact op s = .ok t)
    (hne : t.ecause ≠ s.ecause) : ∃ a z, op = .read a z ∨ ∃ v, op = .write a z v := by
  cases op with
  | read a z => exact ⟨a, z, .inl rfl⟩
  | write a z v => exact ⟨a, z, .inr ⟨v, rfl⟩⟩
  | wait =>
    cases h
    refine absurd ?_ hne
    unfold hostWait
    split <;> rfl
  | powerOn => cases hr

/-- Settles O48: of the cases of a step, only a reset and an error report change ECAUSE. -/
theorem ecauseChangesOnlyByReportOrReset : Obligations.EcauseChangesOnlyByReportOrReset := by
  intro s t ht hne
  obtain ⟨-, -, e⟩ | ⟨op, rest, hn⟩ | ⟨w, snap, -, -, e⟩ := step_cases s
  · rw [e] at ht
    cases ht
    exact absurd rfl hne
  · refine ⟨op, rest, hn, ?_⟩
    have htr := hostTransact_of_step hn ht
    cases hr : isReset op with
    | true =>
      have hreset := hostTransact_reset_eq hr htr
      exact .inl ⟨rfl, by rw [hreset]; rfl, by rw [hreset]; rfl⟩
    | false => exact .inr ⟨rfl, isBus_of_ecause_ne hr htr hne, (hostEffect_of_transact hr htr).report_of_ecause_ne hne⟩
  · rw [e] at ht
    exact absurd (engineTurn_ecause ht) hne

/-- Settles O55: no effect of a transaction but a reset touches a result register, and an accepted command clears the two flags. -/
theorem hostNeverWritesResults : Obligations.HostNeverWritesResults := by
  intro s t op rest hn ht
  have htr := hostTransact_of_step hn ht
  cases hr : isReset op with
  | true => exact .inl ⟨rfl, hostTransact_reset_eq hr htr⟩
  | false =>
    refine .inr ⟨rfl, ?_⟩
    cases hostEffect_of_transact hr htr with
    | accept => exact ⟨rfl, rfl, rfl, rfl, rfl, fun h => (by cases h), fun h => (by cases h)⟩
    | report | store | param | quiet => exact ⟨rfl, rfl, rfl, rfl, rfl, id, id⟩

end Sys2Proof.Machine
end

section
namespace Sys2Proof.Machine
open Sys2Proof

/-! # The bus: what a mapped access of four bytes does -/

theorem hostNext_of_idle {s : State} {op : HostOp} {rest : List HostOp} (h : s.eng = .idle) (hp : s.pending = op :: rest) :
    HostNext s op rest := ⟨hp, fun hb => by simp [h] at hb⟩

theorem afterPop_of_idle {s : State} (h : s.eng = .idle) (rest : List HostOp) : s.afterPop rest = { s with pending := rest } := by
  simp [State.afterPop, h]

theorem regionOf_csr {a : Nat} (h : a < 0x100) : regionOf a = .csr a := by simp [regionOf, h]

theorem busBad_four {a : Nat} (ha : a % 4 = 0) (hm : regionOf a ≠ .unmapped) : busBad a 4 = false := by simp [busBad, ha, hm]

/-- A host write at a register's offset is the register write, idle or not (R283). -/
theorem step_writeRegister {s : State} {a : BitVec 24} {v : Word} {rest : List HostOp} (h : HostNext s (.write a 4 v) rest)
    (ha : a.toNat % 4 = 0) (hl : a.toNat < 0x100) : step s = .next (writeRegister a.toNat v (s.afterPop rest)) := by
  have hreg := regionOf_csr hl
  have hbad : busBad a.toNat 4 = false := busBad_four ha (by simp [hreg])
  rw [step_host h]
  simp only [hostTransact, hostWrite, hbad, hreg, Bool.false_eq_true, if_false]

/-- While idle, a host read that answers a state is the next step. -/
theorem step_of_hostRead {s t : State} {a z : Nat} {rest : List HostOp} (h : s.eng = .idle)
    (hp : s.pending = .read (BitVec.ofNat 24 a) z :: rest) (ha : a < 2 ^ 24) (hr : hostRead a z { s with pending := rest } = .ok t) :
    step s = .next t := by
  rw [step_host (hostNext_of_idle h hp), afterPop_of_idle h]
  simp only [hostTransact, BitVec.toNat_ofNat, Nat.mod_eq_of_lt ha, hr]

/-- While idle, a host read that stops is the fault of the step. -/
theorem step_of_hostRead_error {s : State} {f : Fault} {a z : Nat} {rest : List HostOp} (h : s.eng = .idle)
    (hp : s.pending = .read (BitVec.ofNat 24 a) z :: rest) (ha : a < 2 ^ 24) (hr : hostRead a z { s with pending := rest } = .error f) :
    step s = .fault f := by
  rw [step_host (hostNext_of_idle h hp), afterPop_of_idle h]
  simp only [hostTransact, BitVec.toNat_ofNat, Nat.mod_eq_of_lt ha, hr]

theorem Window.addr_lt (w : Window) {j : Nat} (hj : j < w.words) : w.addr j < 2 ^ 24 := by
  rw [← w.addr_toNat hj]
  exact BitVec.isLt _

/-- While idle, a host read of a window's word is the read of its element (R282, R46). -/
theorem hostRead_addr {s : State} (hb : s.busy = false) {w : Window} {j : Nat} (hj : j < w.words) :
    hostRead (w.addr j) 4 s = (s.mem.readElem w j).map (fun v => { s with rdata := v }) := by
  have hreg := regionOf_addr w hj
  simp only [hostRead, busBad_four (w.addr_mod j) (by simp [hreg]), hreg, hb, Bool.false_eq_true, if_false]
  cases s.mem.readElem w j <;> rfl

theorem step_readElem {s : State} {w : Window} {j : Nat} {v : Word} {rest : List HostOp} (h : s.eng = .idle) (hj : j < w.words)
    (hp : s.pending = .read (BitVec.ofNat 24 (w.addr j)) 4 :: rest) (hv : s.mem.readElem w j = .ok v) :
    step s = .next { s with rdata := v, pending := rest } := by
  refine step_of_hostRead h hp (w.addr_lt hj) ?_
  rw [hostRead_addr (busy_of_idle (s := { s with pending := rest }) h) hj, hv]
  rfl

theorem step_readElem_error {s : State} {w : Window} {j : Nat} {f : Fault} {rest : List HostOp} (h : s.eng = .idle) (hj : j < w.words)
    (hp : s.pending = .read (BitVec.ofNat 24 (w.addr j)) 4 :: rest) (hf : s.mem.readElem w j = .error f) : step s = .fault f := by
  refine step_of_hostRead_error h hp (w.addr_lt hj) ?_
  rw [hostRead_addr (busy_of_idle (s := { s with pending := rest }) h) hj, hf]
  rfl

/-- While idle, a host write of a window's word stores its element (R283, R46). -/
theorem step_writeElem {s : State} {w : Window} {j : Nat} {v : Word} {rest : List HostOp} (h : s.eng = .idle) (hj : j < w.words)
    (hp : s.pending = .write (BitVec.ofNat 24 (w.addr j)) 4 v :: rest) :
    step s = .next { s with mem := s.mem.writeElem w j v, pending := rest } := by
  have hbad : busBad (w.addr j) 4 = false := busBad_four (w.addr_mod j) (by simp [regionOf_addr w hj])
  rw [step_host (hostNext_of_idle h hp), afterPop_of_idle h]
  simp only [hostTransact, hostWrite, w.addr_toNat hj, hbad, regionOf_addr w hj, State.busy, h, Bool.false_eq_true, if_false]

/-- Settles O51, by reading an element just written. -/
theorem arrayWriteThenRead : Obligations.ArrayWriteThenRead := by
  intro s w j v rest hidle hj hp
  refine ⟨_, step_writeElem hidle hj hp, rfl, fun a ha => ?_, ?_⟩
  · rw [Memory.writeElem, Memory.readByte_writeWord_other]
    have : ¬ (w.addr j ≤ a ∧ a < w.addr j + 4) := fun h => ha ⟨0, by omega, h⟩
    omega
  · refine step_readElem hidle hj rfl ?_
    rw [Memory.readElem_writeElem_same _ w hj, Window.view_store]

/-! # Read-only places and ROM words -/

/-- An offset that names no writable register ignores writes (R43, R87). -/
theorem writeRegister_ignored {a : Nat} (h : a ∉ [0x008, 0x00C, 0x010]) (v : Word) (s : State) (hp : writeParam a v s.par = none) :
    writeRegister a v s = s := by
  simp only [List.mem_cons, List.not_mem_nil, or_false, not_or] at h
  obtain ⟨h8, hC, h10⟩ := h
  simp only [writeRegister, h10, h8, hC, if_false, hp]

/-- A parameter register's offset is an aligned one below the reserved offsets, and not that of a register with a rule of its own. -/
theorem writeParam_offset {a : Nat} {v : Word} {p q : ParamRegs} (h : writeParam a v p = some q) :
    a % 4 = 0 ∧ a < 0x060 ∧ a ∉ [0x008, 0x00C, 0x010] := by
  unfold writeParam at h
  split at h <;> cases h <;> decide

/-- The reserved offsets are no parameter register. -/
theorem writeParam_reserved {a : Nat} (h : 0x060 ≤ a) (v : Word) (p : ParamRegs) : writeParam a v p = none := by
  rw [Option.eq_none_iff_forall_ne_some]
  intro q hq
  obtain ⟨-, hlt, -⟩ := writeParam_offset hq
  omega

/-- The reserved offsets read 0 (R43). -/
theorem readRegister_reserved {a : Nat} (h : 0x060 ≤ a) (s : State) : readRegister a s = 0#32 := by
  unfold readRegister
  split
  case h_25 => rfl
  all_goals omega

theorem writeRegister_readOnly {a : Nat} (h : a ∈ [0x000, 0x004, 0x024, 0x028, 0x02C, 0x030, 0x034, 0x038, 0x03C]) (v : Word) (s : State) :
    writeRegister a v s = s := by
  simp only [List.mem_cons, List.not_mem_nil, or_false] at h
  rcases h with rfl | rfl | rfl | rfl | rfl | rfl | rfl | rfl | rfl <;> rfl

theorem writeRegister_reserved {a : Nat} (h : 0x060 ≤ a) (v : Word) (s : State) : writeRegister a v s = s := by
  refine writeRegister_ignored ?_ v s (writeParam_reserved h v s.par)
  simp only [List.mem_cons, List.not_mem_nil, or_false, not_or]
  omega

/-- No array window holds an offset of the ROM windows (R83). -/
theorem find?_holds_rom {a : Nat} (h : 0x017000 ≤ a) (h' : a < 0x100000) : allWindows.find? (fun w => w.holds a) = none := by
  rw [List.find?_eq_none]
  intro w _
  simp only [Window.holds, Bool.and_eq_true, decide_eq_true_eq]
  cases w <;> simp only [Window.base, Window.words] <;> omega

theorem regionOf_prtRom {a : Nat} (h : 0x017000 ≤ a) (h' : a < 0x0170F0) : regionOf a = .prtRom ((a - 0x017000) / 4) := by
  have hcsr : ¬ a < 0x100 := by omega
  simp only [regionOf, hcsr, if_false, find?_holds_rom h (by omega), h, h', and_self, if_true]

theorem regionOf_bgmcMaxRom {a : Nat} (h : 0x017100 ≤ a) (h' : a < 0x017140) : regionOf a = .bgmcMaxRom ((a - 0x017100) / 4) := by
  have hcsr : ¬ a < 0x100 := by omega
  have hprt : ¬ (0x017000 ≤ a ∧ a < 0x0170F0) := by omega
  simp only [regionOf, hcsr, if_false, find?_holds_rom (by omega : 0x017000 ≤ a) (by omega), hprt, h, h', and_self, if_true]

/-- While idle, a write to a ROM window changes nothing (R87). -/
theorem hostWrite_rom {a : Nat} (ha : a % 4 = 0) (hr : (0x017000 ≤ a ∧ a < 0x0170F0) ∨ (0x017100 ≤ a ∧ a < 0x017140)) (v : Word) {s : State}
    (hb : s.busy = false) : hostWrite a 4 v s = s := by
  obtain ⟨h, h'⟩ | ⟨h, h'⟩ := hr
  · have hreg := regionOf_prtRom h h'
    simp only [hostWrite, busBad_four ha (by simp [hreg]), hreg, hb, Bool.false_eq_true, if_false]
  · have hreg := regionOf_bgmcMaxRom h h'
    simp only [hostWrite, busBad_four ha (by simp [hreg]), hreg, hb, Bool.false_eq_true, if_false]

/-- While idle, a read of a `PRT` word gives its entry (R83). -/
theorem hostRead_prtRom {j : Nat} (hj : j < 60) {s : State} (hb : s.busy = false) :
    hostRead (0x017000 + 4 * j) 4 s = .ok { s with rdata := prtWord Config.params j } := by
  have hreg : regionOf (0x017000 + 4 * j) = .prtRom j := by
    rw [regionOf_prtRom (by omega) (by omega)]
    congr 1
    omega
  simp only [hostRead, busBad_four (by omega : (0x017000 + 4 * j) % 4 = 0) (by simp [hreg]), hreg, hb, Bool.false_eq_true, if_false]

/-- While idle, a read of a `BGMC_MAX` word gives its entry (R83). -/
theorem hostRead_bgmcMaxRom {j : Nat} (hj : j < 16) {s : State} (hb : s.busy = false) :
    hostRead (0x017100 + 4 * j) 4 s = .ok { s with rdata := bgmcMaxWord Config.params j } := by
  have hreg : regionOf (0x017100 + 4 * j) = .bgmcMaxRom j := by
    rw [regionOf_bgmcMaxRom (by omega) (by omega)]
    congr 1
    omega
  simp only [hostRead, busBad_four (by omega : (0x017100 + 4 * j) % 4 = 0) (by simp [hreg]), hreg, hb, Bool.false_eq_true, if_false]

/-- The word of entry (ct, i) of `PRT` (R83). -/
theorem prtWord_entry {ct i : Nat} (hi : i < 20) (P : Params) : prtWord P (20 * ct + i) = 0#16 ++ P.prtParam ct i ++ P.prtOffset ct i := by
  have hdiv : (20 * ct + i) / 20 = ct := by omega
  have hmod : (20 * ct + i) % 20 = i := by omega
  rw [prtWord, hdiv, hmod]

/-- Settles O52: the offsets of the read-only registers, the reserved ones and the ROM windows, each by its rule. -/
theorem readOnlyWritesIgnored : Obligations.ReadOnlyWritesIgnored := by
  refine ⟨fun s a v rest ha hr hn => ?_, fun s a v rest hidle ha hr hp => ?_, fun s a rest ha hlo hhi hn => ?_,
    fun s rest hidle => ⟨fun ct i hct hi hp => ?_, fun sx hsx hp => ?_⟩⟩
  · obtain hro | ⟨hlo, hhi⟩ := hr
    · have hl : a.toNat < 0x100 := by
        simp only [List.mem_cons, List.not_mem_nil, or_false] at hro
        omega
      rw [step_writeRegister hn ha hl, writeRegister_readOnly hro]
    · rw [step_writeRegister hn ha hhi, writeRegister_reserved hlo]
  · rw [step_host (hostNext_of_idle hidle hp), afterPop_of_idle hidle]
    simp only [hostTransact, hostWrite_rom ha hr v (show State.busy { s with pending := rest } = false from busy_of_idle hidle)]
  · rw [step_readRegister hn ha hhi, readRegister_reserved hlo]
  · have hr := hostRead_prtRom (by omega : 20 * ct + i < 60) (s := { s with pending := rest }) (busy_of_idle hidle)
    rw [step_of_hostRead hidle hp (by omega) hr, prtWord_entry hi]
  · exact step_of_hostRead hidle hp (by omega) (hostRead_bgmcMaxRom hsx (busy_of_idle hidle))

end Sys2Proof.Machine
end

section
namespace Sys2Proof.Machine
open Sys2Proof

/-! # The registers: what is read and what is stored -/

/-- A zero-extended field read as a number. -/
theorem setWidth_eq_ofNat {k : Nat} (x : BitVec k) : x.setWidth 32 = BitVec.ofNat 32 x.toNat := by
  rw [BitVec.ofNat_toNat]

theorem word_eq_ofNat (x : Word) : x = BitVec.ofNat 32 x.toNat := by
  rw [BitVec.ofNat_toNat, BitVec.setWidth_eq]

theorem extractLsb'_low_eq_ofNat (x : BitVec 64) : x.extractLsb' 0 32 = BitVec.ofNat 32 (x.toNat % 2 ^ 32) := by
  apply BitVec.eq_of_toNat_eq
  simp

theorem extractLsb'_high_eq_ofNat (x : BitVec 64) : x.extractLsb' 32 32 = BitVec.ofNat 32 (x.toNat / 2 ^ 32) := by
  apply BitVec.eq_of_toNat_eq
  simp [Nat.shiftRight_eq_div_pow]

theorem ctrlWord_eq_ofNat (s : State) : ctrlWord s = BitVec.ofNat 32 (s.ieDone.toNat + 2 * s.ieErr.toNat) := by
  unfold ctrlWord
  cases s.ieDone <;> cases s.ieErr <;> rfl

/-- CONFIG's fields at their places (R37). -/
theorem configWord_eq_ofNat (p : ParamRegs) :
    configWord p = BitVec.ofNat 32 (p.rescode.toNat + 4 * p.sbpart.toNat + 8 * p.bps.toNat) := by
  apply BitVec.eq_of_toNat_eq
  have h1 := p.rescode.isLt
  have h2 := p.bps.isLt
  have h3 := p.sbpart.toNat_lt
  simp only [configWord, BitVec.toNat_append, BitVec.toNat_ofBool, BitVec.toNat_ofNat]
  rw [← Nat.shiftLeft_add_eq_or_of_lt h1, ← Nat.shiftLeft_add_eq_or_of_lt (by simpa using h3), ← Nat.shiftLeft_add_eq_or_of_lt h2]
  simp only [Nat.shiftLeft_eq]
  omega

theorem readRegister_spar (b : Fin 8) (s : State) : readRegister (0x040 + 4 * b) s = s.par.spar[b].setWidth 32 := by
  fin_cases b <;> rfl

/-- STATUS's bits at their places (R35, R310). -/
theorem statusWord_bits (s : State) :
    (statusWord s).getLsbD 0 = s.busy ∧ (statusWord s).getLsbD 1 = s.done ∧ (statusWord s).getLsbD 2 = s.err ∧
      (statusWord s).getLsbD 3 = s.fbk ∧ (statusWord s).getLsbD 4 = s.rovf ∧ (statusWord s).getLsbD 5 = s.irq := by
  refine ⟨?_, ?_, ?_, ?_, ?_, ?_⟩ <;> simp only [statusWord, BitVec.getLsbD_append] <;> grind

/-- STATUS's ECAUSE and its zeros (R35). -/
theorem statusWord_fields (s : State) :
    (statusWord s).extractLsb' 6 2 = 0#2 ∧ (statusWord s).extractLsb' 8 4 = s.ecause.code ∧ (statusWord s).extractLsb' 12 20 = 0#20 := by
  refine ⟨?_, ?_, ?_⟩ <;> ext i hi <;>
    simp only [statusWord, BitVec.getElem_extractLsb', BitVec.getLsbD_append] <;> grind

/-- The registers beside STATUS and SPARb, each with the number it reads as (R32–R42). -/
def plainRegisters (s : State) : List (BitVec 24 × Nat) :=
  [(0x000#24, 0x51534C41), (0x004#24, 0x00010000), (0x008#24, s.ieDone.toNat + 2 * s.ieErr.toNat), (0x010#24, s.cmd.toNat),
    (0x014#24, s.par.rescode.toNat + 4 * s.par.sbpart.toNat + 8 * s.par.bps.toNat), (0x018#24, s.par.len.toNat),
    (0x01C#24, s.par.bitsMisc.toNat), (0x020#24, s.par.subblocks.toNat), (0x024#24, s.optOrder.toNat), (0x028#24, s.coefBits.toNat),
    (0x02C#24, s.parBits.toNat), (0x030#24, s.resBits.toNat % 2 ^ 32), (0x034#24, s.resBits.toNat / 2 ^ 32),
    (0x038#24, s.totBits.toNat % 2 ^ 32), (0x03C#24, s.totBits.toNat / 2 ^ 32)]

theorem plainRegisters_offset {s : State} {p : BitVec 24 × Nat} (h : p ∈ plainRegisters s) : p.1.toNat % 4 = 0 ∧ p.1.toNat < 0x100 := by
  revert p
  simp [plainRegisters]

theorem readRegister_plain {s : State} {p : BitVec 24 × Nat} (h : p ∈ plainRegisters s) :
    readRegister p.1.toNat s = BitVec.ofNat 32 p.2 := by
  revert p
  simp only [plainRegisters, List.forall_mem_cons, List.not_mem_nil, false_imp_iff, implies_true, and_true]
  exact ⟨rfl, rfl, ctrlWord_eq_ofNat s, word_eq_ofNat _, configWord_eq_ofNat s.par, setWidth_eq_ofNat _,
    word_eq_ofNat _, setWidth_eq_ofNat _, setWidth_eq_ofNat _, word_eq_ofNat _,
    word_eq_ofNat _, extractLsb'_low_eq_ofNat _, extractLsb'_high_eq_ofNat _, extractLsb'_low_eq_ofNat _,
    extractLsb'_high_eq_ofNat _⟩

/-- The offset of SPARb is an offset of the CSR page. -/
theorem sparOffset_toNat (b : Fin 8) : (BitVec.ofNat 24 (0x040 + 4 * b)).toNat = 0x040 + 4 * b := by
  simp only [BitVec.toNat_ofNat]
  omega

/-- Settles O46: a register read is `readRegister` of its offset, and each register's word has its fields at their places. -/
theorem statusRead : Obligations.StatusRead := by
  refine ⟨fun s rest hn => ?_, fun s rest a v hv hn => ?_⟩
  · obtain ⟨hbusy, hdone, herr, hfbk, hrovf, hirq⟩ := statusWord_bits (s.afterPop rest)
    obtain ⟨hlow, hcause, hhigh⟩ := statusWord_fields (s.afterPop rest)
    exact ⟨statusWord (s.afterPop rest), step_readRegister hn (by decide) (by decide), hbusy, hdone, herr, hfbk, hrovf, hirq, hlow,
      hcause, hhigh⟩
  · obtain hmem | ⟨b, rfl, rfl⟩ := hv
    · have hmem' : (a, v) ∈ plainRegisters (s.afterPop rest) := hmem
      obtain ⟨ha, hl⟩ := plainRegisters_offset hmem'
      rw [step_readRegister hn ha hl, readRegister_plain hmem']
    · have hoff := sparOffset_toNat b
      rw [step_readRegister hn (by omega) (by omega), hoff, readRegister_spar, setWidth_eq_ofNat]
      rfl

/-- Settles O47: the acknowledgement and the enables, each the write of its register. -/
theorem statusAndCtrlWrites : Obligations.StatusAndCtrlWrites := by
  refine fun s v rest => ⟨fun hn => ?_, fun hn hv => ?_⟩
  · have hack : writeRegister 0x00C v (s.afterPop rest) = ackStatus v (s.afterPop rest) := rfl
    rw [step_writeRegister hn (by decide) (by decide), show (0x00C#24).toNat = 0x00C from rfl, hack, ackStatus]
    cases v.getLsbD 1 <;> cases v.getLsbD 2 <;> simp
  · have hctrl : writeRegister 0x008 v (s.afterPop rest) = writeCtrl v (s.afterPop rest) := rfl
    rw [step_writeRegister hn (by decide) (by decide), show (0x008#24).toNat = 0x008 from rfl, hctrl, writeCtrl, hv]
    rfl

/-- Settles O57: the 64 words of the CSR page, and the empty arrays. -/
theorem resetRegisterValues : Obligations.ResetRegisterValues := by
  refine ⟨fun a ha hl => ?_, rfl, rfl, fun _ _ => rfl⟩
  have hpage : ∀ k : Fin 64, readRegister (4 * k) State.reset =
      if 4 * k.val = 0x000 then 0x51534C41#32 else if 4 * k.val = 0x004 then 0x00010000#32 else if 4 * k.val = 0x014 then 0x00000081#32
      else if 4 * k.val = 0x020 then 1#32 else 0#32 := by decide
  have hk : 4 * (a / 4) = a := by omega
  have := hpage ⟨a / 4, by omega⟩
  simpa only [hk] using this

/-! ## Parameter writes -/

/-- A field of k bits stored and read back is the word's low k bits. -/
theorem setWidth_setWidth_eq_and (v : Word) {k : Nat} (hk : k ≤ 32) : (v.setWidth k).setWidth 32 = v &&& BitVec.ofNat 32 (2 ^ k - 1) := by
  apply BitVec.eq_of_toNat_eq
  have hpow : 2 ^ k ≤ 2 ^ 32 := Nat.pow_le_pow_right (by decide) hk
  have hpos : 0 < 2 ^ k := Nat.two_pow_pos k
  have hlt : v.toNat % 2 ^ k < 2 ^ 32 := lt_of_lt_of_le (Nat.mod_lt _ hpos) hpow
  simp only [BitVec.toNat_setWidth, BitVec.toNat_and, BitVec.toNat_ofNat]
  have hmask : 2 ^ k - 1 < 2 ^ 32 := by omega
  rw [Nat.mod_eq_of_lt hlt, Nat.mod_eq_of_lt hmask, Nat.and_two_pow_sub_one_eq_mod]

/-- CONFIG's fields, stored and read back, are the word's low nine bits (R37). -/
theorem configWord_stored (p : ParamRegs) (v : Word) :
    configWord { p with rescode := v.extractLsb' 0 2, sbpart := v.getLsbD 2, bps := v.extractLsb' 3 6 } = v &&& 0x1FF#32 := by
  rw [configWord_eq_ofNat, show 0x1FF#32 = BitVec.ofNat 32 (2 ^ 9 - 1) from rfl, ← setWidth_setWidth_eq_and v (by decide)]
  apply BitVec.eq_of_toNat_eq
  simp only [BitVec.toNat_ofNat, BitVec.toNat_setWidth, BitVec.extractLsb'_toNat, BitVec.getLsbD, Nat.toNat_testBit, Nat.shiftRight_eq_div_pow]
  omega

/-- What a write of `v` at a parameter register's offset `a` makes of the registers `p`: it stores the bits of `mask`, which the register
then reads as, and keeps every other register (R37–R41). -/
structure ParamStored (a : Nat) (v mask : Word) (p q : ParamRegs) : Prop where
  stored : writeParam a v p = some q
  config : a ≠ 0x014 → q.rescode = p.rescode ∧ q.sbpart = p.sbpart ∧ q.bps = p.bps
  len : a ≠ 0x018 → q.len = p.len
  bitsMisc : a ≠ 0x01C → q.bitsMisc = p.bitsMisc
  subblocks : a ≠ 0x020 → q.subblocks = p.subblocks
  spar : ∀ b : Fin 8, a ≠ 0x040 + 4 * b → q.spar[b] = p.spar[b]
  reads : ∀ s : State, s.par = q → readRegister a s = v &&& mask

theorem paramStored_config (v : Word) (p : ParamRegs) : ∃ q, ParamStored 0x014 v 0x1FF#32 p q :=
  ⟨_, rfl, fun h => absurd rfl h, fun _ => rfl, fun _ => rfl, fun _ => rfl, fun _ _ => rfl,
    fun _ hs => (congrArg configWord hs).trans (configWord_stored p v)⟩

theorem paramStored_len (v : Word) (p : ParamRegs) : ∃ q, ParamStored 0x018 v 0x1FFFF#32 p q :=
  ⟨_, rfl, fun _ => ⟨rfl, rfl, rfl⟩, fun h => absurd rfl h, fun _ => rfl, fun _ => rfl, fun _ _ => rfl,
    fun _ hs => (congrArg (fun q => q.len.setWidth 32) hs).trans (setWidth_setWidth_eq_and v (by decide))⟩

theorem paramStored_bitsMisc (v : Word) (p : ParamRegs) : ∃ q, ParamStored 0x01C v 0xFFFFFFFF#32 p q :=
  ⟨_, rfl, fun _ => ⟨rfl, rfl, rfl⟩, fun _ => rfl, fun h => absurd rfl h, fun _ => rfl, fun _ _ => rfl,
    fun _ hs => (congrArg ParamRegs.bitsMisc hs).trans (BitVec.and_allOnes (x := v)).symm⟩

theorem paramStored_subblocks (v : Word) (p : ParamRegs) : ∃ q, ParamStored 0x020 v 0xF#32 p q :=
  ⟨_, rfl, fun _ => ⟨rfl, rfl, rfl⟩, fun _ => rfl, fun _ => rfl, fun h => absurd rfl h, fun _ _ => rfl,
    fun _ hs => (congrArg (fun q => q.subblocks.setWidth 32) hs).trans (setWidth_setWidth_eq_and v (by decide))⟩

theorem writeParam_spar (b : Fin 8) (v : Word) (p : ParamRegs) :
    writeParam (0x040 + 4 * b) v p = some { p with spar := p.spar.set b (v.setWidth 8) } := by
  fin_cases b <;> rfl

theorem paramStored_spar (b : Fin 8) (v : Word) (p : ParamRegs) : ∃ q, ParamStored (0x040 + 4 * b) v 0xFF#32 p q := by
  refine ⟨_, writeParam_spar b v p, fun _ => ⟨rfl, rfl, rfl⟩, fun _ => rfl, fun _ => rfl, fun _ => rfl, fun c hc => ?_, fun s hs => ?_⟩
  · have hbc : b.val ≠ c.val := by omega
    exact Vector.getElem_set_ne b.isLt c.isLt hbc
  · rw [readRegister_spar, hs, show 0xFF#32 = BitVec.ofNat 32 (2 ^ 8 - 1) from rfl, ← setWidth_setWidth_eq_and v (by decide)]
    exact congrArg _ (Vector.getElem_set_self b.isLt)

/-- Every parameter register stores its defined bits (R37–R41). -/
theorem exists_paramStored {a : Nat} {mask : Word} (v : Word) (p : ParamRegs)
    (h : (a, mask) ∈ [(0x014, 0x1FF#32), (0x018, 0x1FFFF#32), (0x01C, 0xFFFFFFFF#32), (0x020, 0xF#32)] ∨
      (mask = 0xFF#32 ∧ a ∈ [0x040, 0x044, 0x048, 0x04C, 0x050, 0x054, 0x058, 0x05C])) : ∃ q, ParamStored a v mask p q := by
  obtain h | ⟨rfl, h⟩ := h
  · simp only [List.mem_cons, Prod.mk.injEq, List.not_mem_nil, or_false] at h
    obtain ⟨rfl, rfl⟩ | ⟨rfl, rfl⟩ | ⟨rfl, rfl⟩ | ⟨rfl, rfl⟩ := h
    · exact paramStored_config v p
    · exact paramStored_len v p
    · exact paramStored_bitsMisc v p
    · exact paramStored_subblocks v p
  · simp only [List.mem_cons, List.not_mem_nil, or_false] at h
    have hb := paramStored_spar ⟨(a - 0x040) / 4, by omega⟩ v p
    rwa [show 0x040 + 4 * ((a - 0x040) / 4) = a by omega] at hb

theorem writeRegister_param {a : Nat} {v : Word} {s : State} {q : ParamRegs} (hb : s.busy = false) (h : writeParam a v s.par = some q) :
    writeRegister a v s = { s with par := q } := by
  obtain ⟨-, -, ha⟩ := writeParam_offset h
  simp only [List.mem_cons, List.not_mem_nil, or_false, not_or] at ha
  obtain ⟨h8, hC, h10⟩ := ha
  simp only [writeRegister, h10, h8, hC, if_false, h, hb, Bool.false_eq_true]

/-- While idle, a write at a parameter register's offset stores the register (R283). -/
theorem step_writeParam {s : State} {a : BitVec 24} {v : Word} {q : ParamRegs} {rest : List HostOp} (h : s.eng = .idle)
    (hp : s.pending = .write a 4 v :: rest) (hq : writeParam a.toNat v s.par = some q) :
    step s = .next { s with par := q, pending := rest } := by
  obtain ⟨ha, hl, -⟩ := writeParam_offset hq
  rw [step_writeRegister (hostNext_of_idle h hp) ha (by omega), afterPop_of_idle h,
    writeRegister_param (busy_of_idle (s := { s with pending := rest }) h) hq]

/-- While idle, a read of a register's offset reads the register (R282). -/
theorem step_readRegister_idle {s : State} {a : BitVec 24} {rest : List HostOp} (h : s.eng = .idle) (hp : s.pending = .read a 4 :: rest)
    (ha : a.toNat % 4 = 0) (hl : a.toNat < 0x100) :
    step s = .next { s with rdata := readRegister a.toNat { s with pending := rest }, pending := rest } := by
  rw [step_readRegister (hostNext_of_idle h hp) ha hl, afterPop_of_idle h]

/-- Settles O53, by what each parameter register stores. -/
theorem parameterWriteThenRead : Obligations.ParameterWriteThenRead := by
  intro s a v mask rest hidle hp ha
  obtain ⟨q, hq⟩ := exists_paramStored v s.par ha
  obtain ⟨hmod, hlt, -⟩ := writeParam_offset hq.stored
  have hpage : a.toNat < 0x100 := by omega
  refine ⟨_, step_writeParam hidle hp hq.stored, rfl, hq.config, hq.len, hq.bitsMisc, hq.subblocks, hq.spar, ?_⟩
  rw [← hq.reads { s with par := q, pending := rest } rfl]
  exact step_readRegister_idle hidle rfl hmod hpage

end Sys2Proof.Machine
end

section
namespace Sys2Proof.Machine
open Sys2Proof

/-! # Reads of unwritten words (R343): which read meets one, and what it stops -/

/-- An unwritten word is the fault of reading its element. -/
theorem Memory.readElem_unwritten {m : Memory} {w : Window} {j : Nat} (hj : j < w.words) (hu : m.readWord (w.addr j) = none) :
    m.readElem w j = .error (.unwrittenRead (w.addr j)) := by
  simp only [Memory.readElem, hj, hu, if_true]

theorem Memory.readElem_of_isSome {m : Memory} {w : Window} {j : Nat} (hj : j < w.words) (hs : (m.readWord (w.addr j)).isSome = true) :
    ∃ v, m.readElem w j = .ok v := by
  obtain ⟨raw, hraw⟩ := Option.isSome_iff_exists.mp hs
  exact ⟨w.view raw, by simp only [Memory.readElem, hj, hraw, if_true]⟩

/-- The first unwritten word of a window is the fault of reading its first elements. -/
theorem Memory.readRange_zero_unwritten {m : Memory} {w : Window} {n j : Nat} (hj : j < n) (hjw : j < w.words) (hw : m.Written w 0 j)
    (hu : m.readWord (w.addr j) = none) : m.readRange w 0 n = .error (.unwrittenRead (w.addr j)) := by
  have h := Memory.readRange_unwritten n 0 j hj (by omega) hw (by rwa [Nat.zero_add])
  rwa [Nat.zero_add] at h

theorem Memory.readEerr_low_unwritten {m : Memory} {k : Nat} (hk : k < 1024) (hu : m.readWord (Window.eerr.addr (2 * k)) = none) :
    m.readEerr k = .error (.unwrittenRead (Window.eerr.addr (2 * k))) := by
  simp only [Memory.readEerr, Memory.readElem_unwritten (w := .eerr) (show 2 * k < 2048 by omega) hu]

theorem Memory.readEerr_high_unwritten {m : Memory} {k : Nat} (hk : k < 1024)
    (hs : (m.readWord (Window.eerr.addr (2 * k))).isSome = true) (hu : m.readWord (Window.eerr.addr (2 * k + 1)) = none) :
    m.readEerr k = .error (.unwrittenRead (Window.eerr.addr (2 * k + 1))) := by
  obtain ⟨v, hv⟩ := Memory.readElem_of_isSome (w := .eerr) (show 2 * k < 2048 by omega) hs
  simp only [Memory.readEerr, hv, Memory.readElem_unwritten (w := .eerr) (show 2 * k + 1 < 2048 by omega) hu]

/-- The first unwritten sample of the block and its history is the fault of its residuals (R196, R199). -/
theorem blockResiduals_unwritten {ra : Bool} {rc : List Int} {s : State} {j : Nat} (hr : rc.length < 1024) (hL : s.blockLen ≤ 65536)
    (hj : j < historyLen ra rc.length + s.blockLen) (hw : s.mem.Written .smp (1024 - historyLen ra rc.length) j)
    (hu : s.mem.readWord (Window.smp.addr (1024 - historyLen ra rc.length + j)) = none) :
    blockResiduals ra rc s = .error (.unwrittenRead (Window.smp.addr (1024 - historyLen ra rc.length + j))) := by
  have hh : historyLen ra rc.length ≤ rc.length := by
    unfold historyLen
    split <;> omega
  have hword : smpWord (-(historyLen ra rc.length : Int)) = 1024 - historyLen ra rc.length := by
    simp only [smpWord]
    omega
  have hrange := Memory.readRange_unwritten (m := s.mem) (w := .smp) (historyLen ra rc.length + s.blockLen) (1024 - historyLen ra rc.length) j
    hj (show _ < 66560 by omega) hw hu
  simp only [blockResiduals, readSamples, hword, hrange]

/-- RESID stops on its samples when its coefficients are written. -/
theorem exec_resid_samples_fault {r : Nat} {ra : Bool} {s : State} {rc : List Int} {f : Fault} (hrc : s.mem.readRange .rcof 0 r = .ok rc)
    (hf : blockResiduals ra (effectiveRc rc) s = .error f) : exec (.resid r ra) s = .fault f := by
  simp only [exec, execResid, residOp, hrc, hf, finish_error]

/-! ## The cost of an order of ORDSEL -/

section
variable {P : Params} {s : State} {n k : Nat} {o : OrdselOpts} {f : Fault}

theorem orderExact_rcof_error (hf : s.mem.readRange .rcof 0 k = .error f) : orderExact P s n k o = .error f := by
  simp only [orderExact, hf]

theorem orderExact_samples_error {rc : List Int} (hrc : s.mem.readRange .rcof 0 k = .ok rc) (ho : latticeOverflows rc = false)
    (hf : blockResiduals o.ra rc s = .error f) : orderExact P s n k o = .error f := by
  simp only [orderExact, hrc, ho, hf, Bool.false_eq_true, if_false]

theorem orderExact_qcof_error {rc es : List Int} (hrc : s.mem.readRange .rcof 0 k = .ok rc) (ho : latticeOverflows rc = false)
    (hes : blockResiduals o.ra rc s = .ok es) (hf : s.mem.readRange .qcof 0 k = .error f) : orderExact P s n k o = .error f := by
  simp only [orderExact, hrc, ho, hes, hf, Bool.false_eq_true, if_false]

theorem orderCost_eerr_error (hx : o.xo = false) (hf : s.mem.readEerr k = .error f) : orderCost P s n o k = .error f := by
  simp only [orderCost, hx, hf, Bool.false_eq_true, if_false]

theorem orderCost_estimate_error {E : BitVec 64} (hx : o.xo = false) (hE : s.mem.readEerr k = .ok E) (h1 : atLeastOne E = true)
    (hf : s.mem.readRange .qcof 0 k = .error f) : orderCost P s n o k = .error f := by
  simp only [orderCost, orderEstimate, hx, hE, h1, hf, Bool.false_eq_true, if_false, if_true]

/-- The exact path of R176: XO = 1, or EERR[k] below 1.0. -/
theorem orderCost_eq_exact (h : o.xo = true ∨ ∃ E, s.mem.readEerr k = .ok E ∧ atLeastOne E = false) :
    orderCost P s n o k = orderExact P s n k o := by
  unfold orderCost
  split
  · rfl
  · rename_i hx
    obtain ⟨E, hE, h1⟩ := h.resolve_left hx
    simp only [hE, h1, Bool.false_eq_true, if_false]

end

/-- ORDSEL reaches order 0. -/
theorem orderReached_zero (s : State) (n : Nat) (o : OrdselOpts) : orderReached s n o 0 = true := by
  simp [orderReached, orderScan]

/-! ## The commands -/

section
variable {s : State} {w : Window} {i j : Nat}

/-- The quantizer and the lattice commands stop on the first unwritten coefficient they read. -/
theorem exec_coefficients_unwritten (hi : i < 1024) (hji : j ≤ i) (hw : s.mem.Written w 0 j) (hu : s.mem.readWord (w.addr j) = none) :
    (w = .parcor → exec (.quant (i + 1)) s = .fault (.unwrittenRead (w.addr j))) ∧
    (w = .qcof → exec (.recon (i + 1)) s = .fault (.unwrittenRead (w.addr j)) ∧
      ∀ ct, exec (.coefbits (i + 1) ct) s = .fault (.unwrittenRead (w.addr j))) ∧
    (w = .rcof → exec (.p2l (i + 1)) s = .fault (.unwrittenRead (w.addr j)) ∧
      ∀ ra, exec (.resid (i + 1) ra) s = .fault (.unwrittenRead (w.addr j))) := by
  have hwords : 1024 ≤ w.words := by cases w <;> decide
  have hf : s.mem.readRange w 0 (i + 1) = .error (.unwrittenRead (w.addr j)) :=
    Memory.readRange_zero_unwritten (by omega) (by omega) hw hu
  refine ⟨?_, ?_, ?_⟩ <;> rintro rfl
  · exact exec_quant_fault hf
  · exact ⟨exec_recon_fault hf, fun ct => exec_coefbits_fault hf⟩
  · exact ⟨exec_p2l_fault hf, fun ra => exec_resid_fault hf⟩

end

section
variable {s : State} {n k j ct : Nat} {xo xe ra vd bg : Bool}

/-- ORDSEL stops on an unwritten half of EERR[k] at an order it reaches. -/
theorem exec_ordsel_eerr_unwritten (hn : n < 1024) (hk : k ≤ n) (hr : orderReached s n ⟨ct, xo, xe, ra, vd, bg⟩ k = true) (hx : xo = false) :
    (s.mem.readWord (Window.eerr.addr (2 * k)) = none →
      exec (.ordsel n ct xo xe ra vd bg) s = .fault (.unwrittenRead (Window.eerr.addr (2 * k)))) ∧
    ((s.mem.readWord (Window.eerr.addr (2 * k))).isSome = true → s.mem.readWord (Window.eerr.addr (2 * k + 1)) = none →
      exec (.ordsel n ct xo xe ra vd bg) s = .fault (.unwrittenRead (Window.eerr.addr (2 * k + 1)))) :=
  ⟨fun hu => exec_ordsel_reached hk hr (orderCost_eerr_error hx (Memory.readEerr_low_unwritten (by omega) hu)),
    fun hs hu => exec_ordsel_reached hk hr (orderCost_eerr_error hx (Memory.readEerr_high_unwritten (by omega) hs hu))⟩

/-- On the estimate path ORDSEL stops on the first unwritten QCOF[0..k−1]. -/
theorem exec_ordsel_estimate_unwritten (hn : n < 1024) (hk : k ≤ n) (hr : orderReached s n ⟨ct, xo, xe, ra, vd, bg⟩ k = true)
    {E : BitVec 64} (hx : xo = false) (hE : s.mem.readEerr k = .ok E) (h1 : atLeastOne E = true) (hj : j < k)
    (hw : s.mem.Written .qcof 0 j) (hu : s.mem.readWord (Window.qcof.addr j) = none) :
    exec (.ordsel n ct xo xe ra vd bg) s = .fault (.unwrittenRead (Window.qcof.addr j)) :=
  exec_ordsel_reached hk hr
    (orderCost_estimate_error hx hE h1 (Memory.readRange_zero_unwritten hj (show j < 1024 by omega) hw hu))

/-- The fault of the exact count of an order that ORDSEL reaches on the exact path is the fault of the command. -/
theorem exec_ordsel_exact_fault {f : Fault} (hk : k ≤ n) (hr : orderReached s n ⟨ct, xo, xe, ra, vd, bg⟩ k = true)
    (hp : xo = true ∨ ∃ E, s.mem.readEerr k = .ok E ∧ atLeastOne E = false)
    (hf : orderExact Config.params s n k ⟨ct, xo, xe, ra, vd, bg⟩ = .error f) : exec (.ordsel n ct xo xe ra vd bg) s = .fault f :=
  exec_ordsel_reached hk hr ((orderCost_eq_exact hp).trans hf)

/-- On the exact path ORDSEL stops on the first unwritten word it reads: RCOF[0..k−1], then the history and the samples, then QCOF[0..k−1]. -/
theorem exec_ordsel_exact_unwritten (hn : n < 1024) (hk : k ≤ n) (hL : s.blockLen ≤ 65536)
    (hr : orderReached s n ⟨ct, xo, xe, ra, vd, bg⟩ k = true)
    (hp : xo = true ∨ ∃ E, s.mem.readEerr k = .ok E ∧ atLeastOne E = false) :
    (j < k → s.mem.Written .rcof 0 j → s.mem.readWord (Window.rcof.addr j) = none →
      exec (.ordsel n ct xo xe ra vd bg) s = .fault (.unwrittenRead (Window.rcof.addr j))) ∧
    ∀ rc, s.mem.readRange .rcof 0 k = .ok rc → latticeOverflows rc = false →
      (j < historyLen ra k + s.blockLen → s.mem.Written .smp (1024 - historyLen ra k) j →
        s.mem.readWord (Window.smp.addr (1024 - historyLen ra k + j)) = none →
        exec (.ordsel n ct xo xe ra vd bg) s = .fault (.unwrittenRead (Window.smp.addr (1024 - historyLen ra k + j)))) ∧
      (j < k → s.mem.Written .smp (1024 - historyLen ra k) (historyLen ra k + s.blockLen) → s.mem.Written .qcof 0 j →
        s.mem.readWord (Window.qcof.addr j) = none →
        exec (.ordsel n ct xo xe ra vd bg) s = .fault (.unwrittenRead (Window.qcof.addr j))) := by
  refine ⟨fun hj hw hu => ?_, fun rc hrc ho => ?_⟩
  · exact exec_ordsel_exact_fault hk hr hp (orderExact_rcof_error (Memory.readRange_zero_unwritten hj (show j < 1024 by omega) hw hu))
  · obtain rfl : rc.length = k := Memory.readRange_length hrc
    refine ⟨fun hj hw hu => ?_, fun hj hsmp hw hu => ?_⟩
    · exact exec_ordsel_exact_fault hk hr hp (orderExact_samples_error hrc ho (blockResiduals_unwritten (by omega) hL hj hw hu))
    · have hh : historyLen ra rc.length ≤ 1024 := by
        unfold historyLen
        split <;> omega
      obtain ⟨xs, hxs⟩ := Memory.readRange_of_written hsmp (show _ ≤ 66560 by omega)
      exact exec_ordsel_exact_fault hk hr hp (orderExact_qcof_error hrc ho (blockResiduals_ok.mpr ⟨xs, hxs, rfl⟩)
        (Memory.readRange_zero_unwritten hj (show j < 1024 by omega) hw hu))

end

/-- Settles O43: each command's first unwritten operand is the fault of the range it lies in, and a host read's that of its element. -/
theorem unwrittenReadsFault : Obligations.UnwrittenReadsFault := by
  refine fun s => ⟨fun i j w hi hji hw hu => exec_coefficients_unwritten hi hji hw hu, fun j r ra xe hj hL hw hu => ?_,
    fun j r ra rc hr hL hrc hj hw hu => ?_, fun j n ct xe ra vd bg => ⟨fun hu => ?_, fun hj hL hw hu => ?_⟩,
    fun n k j ct xo xe ra vd bg hn hk hL hr => ⟨fun hx => ?_, fun hx => ?_, fun E hx hE h1 hj hw hu => ?_, fun hp => ?_⟩,
    fun w j rest hidle hj hu hp => ?_⟩
  · exact exec_entropy_fault (Memory.readRange_zero_unwritten hj (show j < 65536 by omega) hw hu) r ra xe
  · have hlen := Memory.readRange_length hrc
    exact exec_resid_samples_fault hrc (blockResiduals_unwritten (effectiveRc_length_lt (by omega)) hL hj hw hu)
  · exact exec_ordsel_reached n.zero_le (orderReached_zero _ _ _) (orderCost_eerr_error rfl (Memory.readEerr_low_unwritten (by decide) hu))
  · have hres : blockResiduals ra [] s = .error (.unwrittenRead (Window.smp.addr (1024 + j))) := by
      have hh : historyLen ra ([] : List Int).length = 0 := by cases ra <;> rfl
      have := blockResiduals_unwritten (ra := ra) (rc := []) (s := s) (j := j) (by decide) hL (by omega) (by simpa only [hh] using hw)
        (by simpa only [hh] using hu)
      simpa only [hh] using this
    exact exec_ordsel_exact_fault n.zero_le (orderReached_zero _ _ _) (.inl rfl) (orderExact_samples_error rfl rfl hres)
  · exact (exec_ordsel_eerr_unwritten hn hk hr hx).1
  · exact (exec_ordsel_eerr_unwritten hn hk hr hx).2
  · exact exec_ordsel_estimate_unwritten hn hk hr hx hE h1 hj hw hu
  · exact exec_ordsel_exact_unwritten hn hk hL hr hp
  · exact step_readElem_error hidle hj hp (Memory.readElem_unwritten hj hu)

end Sys2Proof.Machine
end

section
namespace Sys2Proof.Machine
open Sys2Proof

/-! # Host transactions (R91): the step is the transaction's outcome -/

theorem step_of_hostTransact {s t : State} {op : HostOp} {rest : List HostOp} (hn : HostNext s op rest)
    (h : hostTransact op (s.afterPop rest) = .ok t) : step s = .next t := by
  rw [step_host hn, h]

theorem step_of_hostTransact_error {s : State} {f : Fault} {op : HostOp} {rest : List HostOp} (hn : HostNext s op rest)
    (h : hostTransact op (s.afterPop rest) = .error f) : step s = .fault f := by
  rw [step_host hn, h]

/-- Settles O6: both outcomes of the transaction are the step's. -/
theorem stepPerformsHostTransaction : Obligations.StepPerformsHostTransaction :=
  fun _ _ _ hn => ⟨fun _ => step_of_hostTransact hn, fun _ => step_of_hostTransact_error hn⟩

/-! ## Bus errors (R84, R86) -/

theorem busBad_iff (a z : Nat) : busBad a z = true ↔ z ≠ 4 ∨ a % 4 ≠ 0 ∨ ¬ Mapped a := by
  simp only [busBad, regionOf_unmapped_iff, Bool.or_eq_true, decide_eq_true_eq, or_assoc]

theorem hostRead_busBad {a z : Nat} (h : busBad a z = true) (s : State) : hostRead a z s = .ok (failRead .busError s) := by
  simp only [hostRead, h, if_true]

theorem hostWrite_busBad {a z : Nat} (h : busBad a z = true) (v : Word) (s : State) : hostWrite a z v s = raiseError .busError s := by
  simp only [hostWrite, h, if_true]

/-- Settles O49: the three grounds are those of `busBad`, under which a read and a write only report. -/
theorem busErrorIsPrecise : Obligations.BusErrorIsPrecise := by
  intro s a z v rest hbad
  have hb : busBad a.toNat z = true := (busBad_iff a.toNat z).mpr hbad
  exact ⟨fun hn => step_of_hostTransact hn (hostRead_busBad hb _),
    fun hn => step_of_hostTransact hn (congrArg Except.ok (hostWrite_busBad hb v _))⟩

/-! ## Accesses while a command runs (R88) -/

theorem lt_of_regionOf_csr {a o : Nat} (h : regionOf a = .csr o) : a < 0x100 := by
  by_contra hlt
  rw [regionOf, if_neg hlt] at h
  repeat' split at h
  all_goals cases h

/-- A mapped offset outside the CSR page names a word of an array or of a ROM (R83). -/
theorem regionOf_window {a : Nat} (hpage : 0x100 ≤ a) (hm : Mapped a) :
    (∃ w j, regionOf a = .ram w j) ∨ (∃ j, regionOf a = .prtRom j) ∨ ∃ j, regionOf a = .bgmcMaxRom j := by
  cases hreg : regionOf a with
  | csr o => exact absurd (lt_of_regionOf_csr hreg) (by omega)
  | ram w j => exact .inl ⟨w, j, rfl⟩
  | prtRom j => exact .inr (.inl ⟨j, rfl⟩)
  | bgmcMaxRom j => exact .inr (.inr ⟨j, rfl⟩)
  | unmapped => exact absurd hm ((regionOf_unmapped_iff a).mp hreg)

theorem busBad_mapped {a : Nat} (ha : a % 4 = 0) (hm : Mapped a) : busBad a 4 = false :=
  busBad_four ha fun h => (regionOf_unmapped_iff a).mp h hm

section
variable {a : Nat} {s : State} (hb : s.busy = true)
include hb

theorem hostRead_window_busy (ha : a % 4 = 0) (hm : Mapped a) (hpage : 0x100 ≤ a) : hostRead a 4 s = .ok (failRead .accBusy s) := by
  obtain ⟨w, j, hreg⟩ | ⟨j, hreg⟩ | ⟨j, hreg⟩ := regionOf_window hpage hm <;>
    simp only [hostRead, busBad_mapped ha hm, hreg, hb, Bool.false_eq_true, if_false, if_true]

theorem hostWrite_window_busy (ha : a % 4 = 0) (hm : Mapped a) (hpage : 0x100 ≤ a) (v : Word) :
    hostWrite a 4 v s = raiseError .accBusy s := by
  obtain ⟨w, j, hreg⟩ | ⟨j, hreg⟩ | ⟨j, hreg⟩ := regionOf_window hpage hm <;>
    simp only [hostWrite, busBad_mapped ha hm, hreg, hb, Bool.false_eq_true, if_false, if_true]

theorem writeRegister_param_busy {v : Word} {q : ParamRegs} (h : writeParam a v s.par = some q) :
    writeRegister a v s = raiseError .accBusy s := by
  obtain ⟨-, -, ha⟩ := writeParam_offset h
  simp only [List.mem_cons, List.not_mem_nil, or_false, not_or] at ha
  obtain ⟨h8, hC, h10⟩ := ha
  simp only [writeRegister, h10, h8, hC, if_false, h, hb, if_true]

end

/-- The RW-idle registers are the parameter registers (R37–R41). -/
theorem exists_writeParam {a : Nat} (h : a ∈ [0x014, 0x018, 0x01C, 0x020, 0x040, 0x044, 0x048, 0x04C, 0x050, 0x054, 0x058, 0x05C])
    (v : Word) (p : ParamRegs) : ∃ q, writeParam a v p = some q := by
  simp only [List.mem_cons, List.not_mem_nil, or_false] at h
  rcases h with rfl | rfl | rfl | rfl | rfl | rfl | rfl | rfl | rfl | rfl | rfl | rfl <;> exact ⟨_, rfl⟩

/-- No register shows the host's list or the count of transactions still to land. -/
theorem readRegister_afterPop (a : Nat) (s : State) (rest : List HostOp) : readRegister a (s.afterPop rest) = readRegister a s := by
  unfold readRegister
  split <;> rfl

/-- Settles O50: the windows reject every access and the RW-idle registers every write, and a register is read as it is. -/
theorem busyAccessRejected : Obligations.BusyAccessRejected := by
  intro s a v rest hb ha hm
  have hb' : (s.afterPop rest).busy = true := hb
  refine ⟨fun hpage hn => step_of_hostTransact hn (hostRead_window_busy hb' ha hm hpage), fun hplace hn => ?_, fun hpage hn => ?_⟩
  · obtain hpage | hparam := hplace
    · exact step_of_hostTransact hn (congrArg Except.ok (hostWrite_window_busy hb' ha hm hpage v))
    · obtain ⟨q, hq⟩ := exists_writeParam hparam v s.par
      obtain ⟨-, hlt, -⟩ := writeParam_offset hq
      rw [step_writeRegister hn ha (by omega), writeRegister_param_busy hb' hq, raiseError]
  · rw [step_readRegister hn ha hpage, readRegister_afterPop]

/-! ## What a running command's host can change (R88, R91) -/

/-- From `s` to `t` only the enables, the flags of STATUS that the host acknowledges or an error report sets, and the host's own fields change. -/
def OnlyHostBitsChange (s t : State) : Prop :=
  t = { s with ieDone := t.ieDone, ieErr := t.ieErr, done := t.done, err := t.err, ecause := t.ecause, rdata := t.rdata, pending := t.pending }

/-- A write that is no reset leaves bit 31 of CTRL's word clear (R284). -/
theorem bit31_of_not_isReset {a : BitVec 24} {v : Word} (hr : isReset (.write a 4 v) = false) (ha : a.toNat = 0x008) :
    v.getLsbD 31 = false := by
  have ha' : a = 0x008#24 := BitVec.eq_of_toNat_eq ha
  simpa [isReset, ha'] using hr

theorem onlyHostBitsChange_writeRegister {a : Nat} {v : Word} {s : State} (hb : s.busy = true)
    (hr : a = 0x008 → v.getLsbD 31 = false) : OnlyHostBitsChange s (writeRegister a v s) := by
  obtain ⟨-, e⟩ | ⟨ha, hv, -⟩ | ⟨-, -, e⟩ | ⟨-, e⟩ | ⟨-, e⟩ | ⟨hidle, -⟩ | e := writeRegister_cases a v s
  · rw [e, acceptCommand_busy hb]; rfl
  · rw [hr ha] at hv
    cases hv
  · rw [e]; rfl
  · rw [e]; rfl
  · rw [e]; rfl
  · exact absurd hb (by simp [hidle])
  · rw [e]; rfl

theorem onlyHostBitsChange_write {a : BitVec 24} {z : Nat} {v : Word} {s : State} (hb : s.busy = true)
    (hr : isReset (.write a z v) = false) : OnlyHostBitsChange s (hostWrite a.toNat z v s) := by
  obtain ⟨c, -, e⟩ | ⟨rfl, -, e⟩ | ⟨hidle, -⟩ | e := hostWrite_cases a.toNat z v s
  · rw [e]; rfl
  · rw [e]
    exact onlyHostBitsChange_writeRegister hb (bit31_of_not_isReset hr)
  · exact absurd hb (by simp [hidle])
  · rw [e]; rfl

theorem onlyHostBitsChange_read {a z : Nat} {s t : State} (h : hostRead a z s = .ok t) : OnlyHostBitsChange s t := by
  obtain ⟨c, -, e⟩ | ⟨v, e⟩ | ⟨-, -, e⟩ := hostRead_cases a z s <;> rw [e] at h <;> cases h <;> rfl

theorem onlyHostBitsChange_wait (s : State) : OnlyHostBitsChange s (hostWait s) := by
  unfold hostWait
  split <;> rfl

/-- While a command runs, a transaction that is no reset changes neither its inputs nor a result. -/
theorem onlyHostBitsChange_of_busy {op : HostOp} {s t : State} (hb : s.busy = true) (hr : isReset op = false)
    (h : hostTransact op s = .ok t) : OnlyHostBitsChange s t := by
  cases op with
  | read a z => exact onlyHostBitsChange_read h
  | write a z v => cases h; exact onlyHostBitsChange_write hb hr
  | wait => cases h; exact onlyHostBitsChange_wait s
  | powerOn => cases hr

/-- Settles O54: what a running command's host can change holds no input and no result. -/
theorem runningCommandInputsFrozen : Obligations.RunningCommandInputsFrozen := by
  intro s t w snap op rest hrun hn ht
  cases hr : isReset op with
  | true => exact .inl rfl
  | false =>
    have hb : (s.afterPop rest).busy = true := busy_of_run hrun
    have hkeep : t = _ := onlyHostBitsChange_of_busy hb hr (hostTransact_of_step hn ht)
    rw [hkeep]
    exact .inr ⟨rfl, rfl, rfl, rfl, rfl, rfl, rfl, rfl, rfl, rfl, rfl⟩

end Sys2Proof.Machine
end

section
namespace Sys2Proof
open Sys2Proof.Laws

/-! # Decoding and encoding (R111–R114)

An encoded command lies in its own row of R113's table and that row reads its operands back. Conversely a word is the concatenation of its fields
and of the slices under its row's mask, which the match fixes. -/

theorem encode_matches (i : Instr) : encode i &&& i.mnemonic.mask = i.mnemonic.pattern :=
  match i with
  | .nop => EncodeMatches.nop
  | .quant n => EncodeMatches.quant n
  | .recon n => EncodeMatches.recon n
  | .coefbits n ct => EncodeMatches.coefbits n ct
  | .p2l n => EncodeMatches.p2l n
  | .resid n ra => EncodeMatches.resid n ra
  | .ricebits n ra => EncodeMatches.ricebits n ra
  | .ricesrch n ra xe => EncodeMatches.ricesrch n ra xe
  | .bgmcbits n ra => EncodeMatches.bgmcbits n ra
  | .bgmcsrch n ra xe => EncodeMatches.bgmcsrch n ra xe
  | .ordsel n ct xo xe ra vd bg => EncodeMatches.ordsel n ct xo xe ra vd bg

theorem instr_encode (i : Instr) (h : i.WellFormed) : i.mnemonic.instr (encode i) = i :=
  match i with
  | .nop => EncodeFields.nop h
  | .quant n => EncodeFields.quant n h
  | .recon n => EncodeFields.recon n h
  | .coefbits n ct => EncodeFields.coefbits n ct h
  | .p2l n => EncodeFields.p2l n h
  | .resid n ra => EncodeFields.resid n ra h
  | .ricebits n ra => EncodeFields.ricebits n ra h
  | .ricesrch n ra xe => EncodeFields.ricesrch n ra xe h
  | .bgmcbits n ra => EncodeFields.bgmcbits n ra h
  | .bgmcsrch n ra xe => EncodeFields.bgmcsrch n ra xe h
  | .ordsel n ct xo xe ra vd bg => EncodeFields.ordsel n ct xo xe ra vd bg h

/-- Settles O1: the encoded word matches the command's own row, which reads the operands back. -/
theorem decodeOfEncode : Obligations.DecodeOfEncode := by
  intro i hi
  rw [decode_of_match (encode_matches i), instr_encode i hi]

/-! ## A word from its slices -/

theorem ofNat_fieldN (w : Word) : BitVec.ofNat 10 (fieldN w) = w.extractLsb' 8 10 :=
  (BitVec.ofNat_toNat 10 _).trans (BitVec.setWidth_eq _)

theorem ofNat_fieldCT (w : Word) : BitVec.ofNat 2 (fieldCT w) = w.extractLsb' 18 2 :=
  (BitVec.ofNat_toNat 2 _).trans (BitVec.setWidth_eq _)

theorem ofBool_getLsbD (w : Word) (j : Nat) : BitVec.ofBool (w.getLsbD j) = w.extractLsb' j 1 := by
  ext b hb
  obtain rfl : b = 0 := by omega
  simp

/-- Under its row's mask a matching word is the row's pattern, slice by slice. -/
theorem extractLsb'_of_match {k : Mnemonic} {w : Word} (h : w &&& k.mask = k.pattern) {start len : Nat}
    (hm : k.mask.extractLsb' start len = BitVec.allOnes len) : w.extractLsb' start len = k.pattern.extractLsb' start len := by
  rw [← h, BitVec.extractLsb'_and, hm, BitVec.and_allOnes]

/-! The rows' layouts (R113, column "uses"): the fields a row uses, zeros in every other, and the opcode make up the word. -/

section
variable {w : Word} {op : Byte} (hop : w.extractLsb' 0 8 = op)
include hop

/-- The row uses N. -/
theorem layout_N (hz : w.extractLsb' 18 14 = 0#14) : 0#14 ++ BitVec.ofNat 10 (fieldN w) ++ op = w := by
  rw [ofNat_fieldN, ← hz, ← hop]
  simp only [BitVec.extractLsb'_append_extractLsb'_eq_extractLsb', BitVec.extractLsb'_eq_self]

/-- The row uses N and CT. -/
theorem layout_N_CT (hz : w.extractLsb' 20 12 = 0#12) :
    0#12 ++ BitVec.ofNat 2 (fieldCT w) ++ BitVec.ofNat 10 (fieldN w) ++ op = w := by
  rw [ofNat_fieldN, ofNat_fieldCT, ← hz, ← hop]
  simp only [BitVec.extractLsb'_append_extractLsb'_eq_extractLsb', BitVec.extractLsb'_eq_self]

/-- The row uses N and RA. -/
theorem layout_N_RA (hz : w.extractLsb' 23 9 = 0#9) (hz' : w.extractLsb' 18 4 = 0#4) :
    0#9 ++ BitVec.ofBool (fieldRA w) ++ 0#4 ++ BitVec.ofNat 10 (fieldN w) ++ op = w := by
  rw [ofNat_fieldN, fieldRA, ofBool_getLsbD, ← hz, ← hz', ← hop]
  simp only [BitVec.extractLsb'_append_extractLsb'_eq_extractLsb', BitVec.extractLsb'_eq_self]

/-- The row uses N, RA and XE. -/
theorem layout_N_RA_XE (hz : w.extractLsb' 23 9 = 0#9) (hz' : w.extractLsb' 18 3 = 0#3) :
    0#9 ++ BitVec.ofBool (fieldRA w) ++ BitVec.ofBool (fieldXE w) ++ 0#3 ++ BitVec.ofNat 10 (fieldN w) ++ op = w := by
  rw [ofNat_fieldN, fieldRA, fieldXE, ofBool_getLsbD, ofBool_getLsbD, ← hz, ← hz', ← hop]
  simp only [BitVec.extractLsb'_append_extractLsb'_eq_extractLsb', BitVec.extractLsb'_eq_self]

/-- The row uses every field. -/
theorem layout_all (hz : w.extractLsb' 25 7 = 0#7) :
    0#7 ++ BitVec.ofBool (fieldBG w) ++ BitVec.ofBool (fieldVD w) ++ BitVec.ofBool (fieldRA w) ++ BitVec.ofBool (fieldXE w)
      ++ BitVec.ofBool (fieldXO w) ++ BitVec.ofNat 2 (fieldCT w) ++ BitVec.ofNat 10 (fieldN w) ++ op = w := by
  simp only [ofNat_fieldN, ofNat_fieldCT, fieldBG, fieldVD, fieldRA, fieldXE, fieldXO, ofBool_getLsbD, ← hz, ← hop,
    BitVec.extractLsb'_append_extractLsb'_eq_extractLsb', BitVec.extractLsb'_eq_self]

end

/-- A matching word is the encoding of the command its row reads. -/
theorem encode_instr {k : Mnemonic} {w : Word} (h : w &&& k.mask = k.pattern) : encode (k.instr w) = w := by
  have hop := extractLsb'_of_match h (start := 0) (len := 8) (by cases k <;> rfl)
  cases k with
  | nop => exact h.symm.trans BitVec.and_allOnes
  | quant => exact layout_N hop (extractLsb'_of_match h rfl)
  | recon => exact layout_N hop (extractLsb'_of_match h rfl)
  | coefbits => exact layout_N_CT hop (extractLsb'_of_match h rfl)
  | p2l => exact layout_N hop (extractLsb'_of_match h rfl)
  | resid => exact layout_N_RA hop (extractLsb'_of_match h rfl) (extractLsb'_of_match h rfl)
  | ricebits => exact layout_N_RA hop (extractLsb'_of_match h rfl) (extractLsb'_of_match h rfl)
  | ricesrch => exact layout_N_RA_XE hop (extractLsb'_of_match h rfl) (extractLsb'_of_match h rfl)
  | bgmcbits => exact layout_N_RA hop (extractLsb'_of_match h rfl) (extractLsb'_of_match h rfl)
  | bgmcsrch => exact layout_N_RA_XE hop (extractLsb'_of_match h rfl) (extractLsb'_of_match h rfl)
  | ordsel => exact layout_all hop (extractLsb'_of_match h rfl)

/-- Settles O2: a legal word matches a row, and is the encoding of the command that row reads. -/
theorem encodeOfDecode : Obligations.EncodeOfDecode := by
  intro w i hd
  obtain ⟨k, hk, rfl⟩ := match_of_decode hd
  exact ⟨wellFormed_of_decode hd, encode_instr hk⟩

/-! ## Legality (R114) -/

/-- The assigned opcodes are those below 0x0B. -/
theorem Mnemonic.fieldOP_pattern_lt (k : Mnemonic) : fieldOP k.pattern < 0x0B#8 := by cases k <;> decide

/-- At most one row matches a word. -/
theorem Mnemonic.eq_of_match {k k' : Mnemonic} {w : Word} (h : w &&& k.mask = k.pattern) (h' : w &&& k'.mask = k'.pattern) : k = k' :=
  Mnemonic.fieldOP_pattern_inj ((Mnemonic.fieldOP_of_match h).symm.trans (Mnemonic.fieldOP_of_match h'))

theorem decode_reserved {w : Word} (hop : 0x0B#8 ≤ fieldOP w) : decode w = .error (.reservedOpcode (fieldOP w)) := by
  have hno : ∀ k : Mnemonic, w &&& k.mask ≠ k.pattern := fun k hk =>
    BitVec.not_lt.mpr hop (Mnemonic.fieldOP_of_match hk ▸ k.fieldOP_pattern_lt)
  rw [decode_of_no_match hno, if_pos hop]

theorem decode_unusedBitSet {w : Word} {k : Mnemonic} (hop : fieldOP w = fieldOP k.pattern) (hk : w &&& k.mask ≠ k.pattern) :
    decode w = .error (.unusedBitSet (fieldOP w)) := by
  have hno : ∀ k' : Mnemonic, w &&& k'.mask ≠ k'.pattern := by
    intro k' hk'
    obtain rfl : k = k' := Mnemonic.fieldOP_pattern_inj (hop.symm.trans (Mnemonic.fieldOP_of_match hk'))
    exact hk hk'
  rw [decode_of_no_match hno, if_neg (BitVec.not_le.mpr (hop ▸ k.fieldOP_pattern_lt))]

end Sys2Proof
end

section
namespace Sys2Proof.Machine
open Sys2Proof

/-- A `CMD` write of an illegal word while idle reports ILLEGAL_CMD and changes nothing else (R280). -/
theorem step_illegalCmd {s : State} {w : Word} {rest : List HostOp} {r : IllegalWord} (hidle : s.eng = .idle) (hd : decode w = .error r)
    (hp : s.pending = .write 0x010#24 4 w :: rest) : step s = .next { s with pending := rest, err := true, ecause := .illegalCmd } := by
  have hbusy : State.busy { s with pending := rest } = false := busy_of_idle hidle
  rw [step_writeRegister (hostNext_of_idle hidle hp) (by decide) (by decide), afterPop_of_idle hidle]
  exact congrArg Host.Outcome.next (acceptCommand_illegal hbusy hd)

/-- Settles O3: the rows decide legality, their opcodes tell them apart and tell the two grounds of illegality apart. -/
theorem legalWordsExactlyTableRows : Obligations.LegalWordsExactlyTableRows := by
  refine ⟨fun w => ⟨fun ⟨i, hd⟩ => ?_, fun ⟨k, hk⟩ => ⟨k.instr w, decode_of_match hk⟩⟩, fun w k k' => Mnemonic.eq_of_match,
    fun w => decode_reserved, fun w k => decode_unusedBitSet, fun s w rest hidle hno hp => ?_⟩
  · obtain ⟨k, hk, -⟩ := match_of_decode hd
    exact ⟨k, hk⟩
  · cases hd : decode w with
    | ok i => exact absurd hd (hno i)
    | error r => exact step_illegalCmd hidle hd hp

/-- Settles O4: each word matches the row of its mnemonic, which reads the operands written into it. -/
theorem specWordsDecode : Obligations.SpecWordsDecode :=
  ⟨decode_of_match (k := .nop) rfl, decode_of_match (k := .quant) rfl, decode_of_match (k := .recon) rfl,
    decode_of_match (k := .coefbits) rfl, decode_of_match (k := .p2l) rfl, decode_of_match (k := .resid) rfl,
    decode_of_match (k := .ricebits) rfl, decode_of_match (k := .ricesrch) rfl, decode_of_match (k := .bgmcbits) rfl,
    decode_of_match (k := .bgmcsrch) rfl, decode_of_match (k := .ordsel) rfl, decode_of_match (k := .ordsel) rfl⟩

/-! # The pseudo-instruction `wait` (R118) -/

theorem hostWait_eq (s : State) :
    hostWait s = { s with rdata := statusWord s, pending := if s.busy then .wait :: s.pending else s.pending } := by
  unfold hostWait
  split <;> rfl

/-- Settles O60: `wait` is one host transaction, and neither STATUS nor BUSY shows the host's list or the latency still to run. -/
theorem waitPollsStatus : Obligations.WaitPollsStatus :=
  fun s rest hn => step_of_hostTransact hn (congrArg Except.ok (hostWait_eq (s.afterPop rest)))

end Sys2Proof.Machine
end

section
namespace Sys2Proof.Machine
open Sys2Proof

/-! # The quantizer's function (R141) -/

/-- A clip saturates below, saturates above, or leaves the value. -/
theorem clip_cases (v : Int) {lo hi : Int} (h : lo ≤ hi) :
    (v < lo ∧ clip v lo hi = lo) ∨ (hi < v ∧ clip v lo hi = hi) ∨ (lo ≤ v ∧ v ≤ hi ∧ clip v lo hi = v) := by
  unfold clip
  split_ifs <;> omega

/-- The floor of the shift does not move the square root's bin: its bounds hold of X itself (R10, R141). -/
theorem isqrt_asr_spec {X : Int} (h : 0 ≤ X) (n : Nat) :
    (isqrt (asr X n).toNat : Int) ^ 2 * 2 ^ n ≤ X ∧ X < ((isqrt (asr X n).toNat : Int) + 1) ^ 2 * 2 ^ n := by
  have hpos : 0 ≤ asr X n := (asr_le_iff X 0 n).mpr (by omega)
  obtain ⟨hle, hlt⟩ := isqrt_spec (asr X n).toNat
  zify [hpos] at hle hlt
  rw [Int.toNat_of_nonneg hpos] at hle hlt
  rw [← asr_le_iff, ← asr_lt_iff, sq, sq]
  exact ⟨hle, hlt⟩

theorem compand_of_neg {X : Int} (h : X < 0) : compand X = -64 := if_pos h

/-- For X ≥ 0 the companded index is the square root less 64, with only the upper saturation left. -/
theorem compand_of_nonneg {X : Int} (h : 0 ≤ X) : compand X = min ((isqrt (asr X 17).toNat : Int) - 64) 63 := by
  rw [compand, if_neg (by omega)]
  obtain ⟨hv, e⟩ | ⟨hv, e⟩ | ⟨-, hv, e⟩ := clip_cases ((isqrt (asr X 17).toNat : Int) - 64) (show (-64 : Int) ≤ 63 by decide) <;> omega

/-- An unsaturated companded index names the bin in which X lies. -/
theorem compand_bin {X : Int} (h : 0 ≤ X) (hq : compand X < 63) :
    (compand X + 64) ^ 2 * 2 ^ 17 ≤ X ∧ X < (compand X + 65) ^ 2 * 2 ^ 17 := by
  have hr : compand X + 64 = isqrt (asr X 17).toNat := by
    rw [compand_of_nonneg h] at hq ⊢
    omega
  rw [show compand X + 65 = (compand X + 64) + 1 by ring, hr]
  exact isqrt_asr_spec h 17

/-- The largest companded index means that X reaches its bin. -/
theorem le_of_compand_eq {X : Int} (h : 0 ≤ X) (hq : compand X = 63) : 127 ^ 2 * 2 ^ 17 ≤ X := by
  have hr : (127 : Int) ≤ isqrt (asr X 17).toNat := by
    rw [compand_of_nonneg h] at hq
    omega
  calc (127 : Int) ^ 2 * 2 ^ 17 ≤ (isqrt (asr X 17).toNat : Int) ^ 2 * 2 ^ 17 := by gcongr
    _ ≤ X := (isqrt_asr_spec h 17).1

/-- Indices 0 and 1 are companded, each about its own end of the range. -/
theorem quant_eq_compand {i : Nat} {P X : Int} (h : (i = 0 ∧ X = P + 2 ^ 30) ∨ (i = 1 ∧ X = 2 ^ 30 - P)) : quant i P = compand X := by
  obtain ⟨rfl, rfl⟩ | ⟨rfl, rfl⟩ := h <;> rfl

/-- Indices from 2 on are quantized linearly. -/
theorem quant_linear {i : Nat} (h : 2 ≤ i) (P : Int) : quant i P = clip (asr P 24) (-64) 63 := by
  match i, h with
  | _ + 2, _ => rfl

/-- Settles O18: indices 0 and 1 by the bins of the square root, the others by the cases of the clip. -/
theorem quantFunction : Obligations.QuantFunction := by
  refine ⟨quant_mem, fun i P X hX => ?_, fun i P hi => ?_⟩
  · rw [quant_eq_compand hX]
    exact ⟨compand_of_neg, compand_bin, le_of_compand_eq⟩
  · rw [quant_linear hi, ← asr_le_iff, ← asr_lt_iff, ← asr_lt_iff, ← asr_le_iff]
    obtain ⟨hv, e⟩ | ⟨hv, e⟩ | ⟨-, -, e⟩ := clip_cases (asr P 24) (show (-64 : Int) ≤ 63 by decide) <;> rw [e] <;> omega

/-! # Indices and reconstructed values in the arrays (R144, R145) -/

/-- Every entry is a legal index, q ∈ [−64, 63] (R145). -/
def LegalIndices (qs : List Int) : Prop := ∀ q ∈ qs, -64 ≤ q ∧ q ≤ 63

theorem LegalIndices.getD {qs : List Int} (h : LegalIndices qs) {i : Nat} (hi : i < qs.length) : -64 ≤ qs.getD i 0 ∧ qs.getD i 0 ≤ 63 := by
  rw [List.getD_eq_getElem _ _ hi]
  exact h _ (List.getElem_mem hi)

theorem legalIndices_quant (ps : List Int) : LegalIndices (ps.mapIdx quant) := by
  intro q hq
  obtain ⟨i, hi, rfl⟩ := List.mem_mapIdx.mp hq
  exact quant_mem i _

theorem readElem_qcof_mem {m : Memory} {j : Nat} {v : Word} (h : m.readElem .qcof j = .ok v) : -64 ≤ v.toInt ∧ v.toInt ≤ 63 := by
  have := Memory.readElem_mem h
  simp only [Window.width] at this
  omega

theorem legalIndices_of_readRange {m : Memory} {j n : Nat} {qs : List Int} (h : m.readRange .qcof j n = .ok qs) : LegalIndices qs := by
  intro q hq
  obtain ⟨i, hi, rfl⟩ := List.getElem_of_mem hq
  obtain ⟨hlen, hread⟩ := Memory.readRange_ok_iff.mp h
  obtain ⟨v, hv, e⟩ := hread i (by omega)
  rw [← List.getD_eq_getElem _ 0 hi, e]
  exact readElem_qcof_mem hv

/-- QCOF gives back the legal indices just stored. -/
theorem readRange_qcof_writeRange (m : Memory) {qs : List Int} (hq : LegalIndices qs) (hn : qs.length ≤ 1024) :
    (m.writeRange .qcof 0 qs).readRange .qcof 0 qs.length = .ok qs := by
  refine Memory.readRange_writeRange_same (by simpa [Window.words] using hn) fun i hi => ?_
  have := hq.getD hi
  simp only [Window.width]
  omega

/-- RCOF gives back the reconstructions of legal indices just stored. -/
theorem readRange_rcof_writeRange (m : Memory) {qs : List Int} (hq : LegalIndices qs) (hn : qs.length ≤ 1024) :
    (m.writeRange .rcof 0 (qs.mapIdx recon)).readRange .rcof 0 qs.length = .ok (qs.mapIdx recon) := by
  have := Memory.readRange_writeRange_same (m := m) (w := .rcof) (j := 0) (vs := qs.mapIdx recon) (by simpa [Window.words] using hn) fun i hi => by
    rw [List.length_mapIdx] at hi
    rw [getD_mapIdx _ _ hi]
    exact recon_mem i (hq.getD hi).1 (hq.getD hi).2
  rwa [List.length_mapIdx] at this

/-- Settles O19: the ranges are those of Gamma and of the linear form, and a value of 21 bits is read back from RCOF as it was stored. -/
theorem reconstructedValuesFit : Obligations.ReconstructedValuesFit := by
  refine ⟨fun m j v => readElem_qcof_mem, fun q h h' => ?_⟩
  have hgamma := gamma_mem h h'
  refine ⟨hgamma, by omega, by omega, fun i j m hj => ?_⟩
  obtain ⟨hlo, hhi⟩ := recon_mem i h h'
  refine ⟨BitVec.ofInt 32 (recon i q), ?_, toInt_ofInt32 ((fits32_iff _).mpr (by omega))⟩
  rw [Memory.readElem_writeElem_same m .rcof hj, Window.view_store_ofInt hlo hhi]

/-! # QUANT and RECON (R142, R146) -/

/-- The arrays after QUANT of `ps` (R142). -/
def quantMem (ps : List Int) (m : Memory) : Memory :=
  (m.writeRange .qcof 0 (ps.mapIdx quant)).writeRange .rcof 0 ((ps.mapIdx quant).mapIdx recon)

/-- QUANT completes when its operands are written, with its results in the arrays. -/
theorem exec_quant_ok {n : Nat} {s : State} {ps : List Int} (h : s.mem.readRange .parcor 0 n = .ok ps) :
    exec (.quant n) s = .next (complete { s with mem := quantMem ps s.mem }) := exec_quant_next.mpr ⟨ps, h, rfl⟩

theorem exec_recon_ok {n : Nat} {s : State} {qs : List Int} (h : s.mem.readRange .qcof 0 n = .ok qs) :
    exec (.recon n) s = .next (complete { s with mem := s.mem.writeRange .rcof 0 (qs.mapIdx recon) }) := exec_recon_next.mpr ⟨qs, h, rfl⟩

/-- After QUANT, QCOF holds the indices: the stores to RCOF do not touch them. -/
theorem readRange_qcof_quantMem {ps : List Int} (hn : ps.length ≤ 1024) (m : Memory) :
    (quantMem ps m).readRange .qcof 0 ps.length = .ok (ps.mapIdx quant) := by
  have hq := readRange_qcof_writeRange m (legalIndices_quant ps) (by simpa using hn)
  rw [List.length_mapIdx] at hq
  rw [quantMem, Memory.readRange_writeRange_other (by decide) (by simpa [Window.words] using hn) (by simpa [Window.words] using hn), hq]

theorem readRange_rcof_quantMem {ps : List Int} (hn : ps.length ≤ 1024) (m : Memory) :
    (quantMem ps m).readRange .rcof 0 ps.length = .ok ((ps.mapIdx quant).mapIdx recon) := by
  have := readRange_rcof_writeRange (m.writeRange .qcof 0 (ps.mapIdx quant)) (legalIndices_quant ps) (by simpa using hn)
  rwa [List.length_mapIdx] at this

/-- Settles O14: QUANT's stores are read back as they are, since every index and every reconstruction fits its array. -/
theorem quantResult : Obligations.QuantResult := by
  intro n s ps hn hps
  obtain rfl := Memory.readRange_length hps
  exact ⟨_, exec_quant_ok hps, rfl, rfl, readRange_qcof_quantMem hn.le s.mem, readRange_rcof_quantMem hn.le s.mem⟩

/-- Settles O15: RECON's operands are legal indices, so its stores are read back as they are. -/
theorem reconResult : Obligations.ReconResult := by
  intro n s qs hn hqs
  obtain rfl := Memory.readRange_length hqs
  exact ⟨_, exec_recon_ok hqs, rfl, rfl, readRange_rcof_writeRange s.mem (legalIndices_of_readRange hqs) hn.le⟩

/-- Storing a range a second time changes nothing that can be read. -/
theorem Memory.readElem_writeRange_twice (m : Memory) {w : Window} {vs : List Int} (hn : vs.length ≤ w.words) (j : Nat) :
    ((m.writeRange w 0 vs).writeRange w 0 vs).readElem w j = (m.writeRange w 0 vs).readElem w j := by
  by_cases hj : j < vs.length
  · have hsame := fun m : Memory => Memory.readElem_writeRange_same (m := m) (w := w) (j := 0) hj (by omega)
    rw [Nat.zero_add] at hsame
    rw [hsame, hsame]
  · refine Memory.readElem_writeRange_other fun i hi => ?_
    rw [Ne, Window.addr_inj]
    omega

/-- Settles O20: RECON reads the indices QUANT left, so it stores what RCOF holds already. -/
theorem reconAfterQuantKeepsRcof : Obligations.ReconAfterQuantKeepsRcof := by
  intro n s t hn ht
  obtain ⟨ps, hps, rfl⟩ := exec_quant_next.mp ht
  obtain rfl := Memory.readRange_length hps
  refine ⟨_, exec_recon_ok (readRange_qcof_quantMem hn.le s.mem), fun j => ?_⟩
  exact Memory.readElem_writeRange_twice _ (by simpa [Window.words] using hn.le) j

/-! # COEFBITS (R147, R149, R150) -/

/-- Each coded length of a legal index is at most 383 bits, so the sum is bounded by their number (R149). -/
theorem coefTotal_le {P : Params} (hP : LawfulParams P) (ct : Nat) {qs : List Int} (hq : LegalIndices qs) :
    coefTotal P ct qs ≤ 383 * qs.length := by
  have hle : ∀ b ∈ qs.mapIdx (fun i q => cbits P i q ct), b ≤ 383 := by
    intro b hb
    obtain ⟨i, hi, rfl⟩ := List.mem_mapIdx.mp hb
    obtain ⟨hlo, hhi⟩ := hq _ (List.getElem_mem hi)
    exact cbits_le hP i ct hlo hhi
  have := List.sum_le_card_nsmul _ _ hle
  rwa [List.length_mapIdx, smul_eq_mul, Nat.mul_comm] at this

/-- Table 3 codes every index in seven bits (R147). -/
theorem coefTotal_raw (P : Params) (qs : List Int) : coefTotal P 3 qs = 7 * qs.length := by
  have hseven : ∀ b ∈ qs.mapIdx (fun i q => cbits P i q 3), b = 7 := by
    intro b hb
    obtain ⟨i, hi, rfl⟩ := List.mem_mapIdx.mp hb
    exact cbits_raw P i _
  have := List.sum_eq_card_nsmul _ _ hseven
  rwa [List.length_mapIdx, smul_eq_mul, Nat.mul_comm] at this

/-- Settles O16: the operands are legal indices and the machine's parameters are lawful, so each coded length has its bound. -/
theorem coefbitsResult : Obligations.CoefbitsResult := by
  intro n ct s qs _ _ hqs
  obtain rfl := Memory.readRange_length hqs
  refine ⟨exec_coefbits_next.mpr ⟨qs, hqs, rfl⟩, coefTotal_le params_lawful ct (legalIndices_of_readRange hqs), ?_⟩
  rintro rfl
  exact coefTotal_raw _ qs

/-! # What the three commands leave unchanged (R49) -/

/-- Settles O17: the stores of QUANT and RECON cover the bytes of their n elements, and COEFBITS stores nothing. -/
theorem quantizerFrame : Obligations.QuantizerFrame := by
  refine ⟨fun n s t ht => ?_, fun n s t ht => ?_, fun n ct s t ht => ?_⟩
  · obtain ⟨ps, hps, rfl⟩ := exec_quant_next.mp ht
    obtain rfl := Memory.readRange_length hps
    refine ⟨rfl, fun a hq hr => ?_⟩
    rw [complete_mem, Memory.readByte_writeRange_other (by simpa using hr), Memory.readByte_writeRange_other (by simpa using hq)]
  · obtain ⟨qs, hqs, rfl⟩ := exec_recon_next.mp ht
    obtain rfl := Memory.readRange_length hqs
    refine ⟨rfl, fun a hr => ?_⟩
    rw [complete_mem, Memory.readByte_writeRange_other (by simpa using hr)]
  · obtain ⟨qs, -, rfl⟩ := exec_coefbits_next.mp ht
    rfl

end Sys2Proof.Machine
end

section
namespace Sys2Proof.Machine
open Sys2Proof

/-! # ORDSEL (R170, R175–R177)

A full enumeration is a valley search whose threshold the misses cannot exceed, so `orderScan_valley` speaks of both: the loop's result is a `ScanAt`. -/

/-! ## One round of the loop -/

/-- A cost below the best so far is the new best, with no misses since (R176). -/
theorem orderScan_below {cost : Nat → Except Fault Cost} {k : Nat} {a : OrderScan} {c : Cost} (hk : cost k = .ok c)
    (hlt : Cost.lt c a.best = true) (vd : Bool) (T count : Nat) :
    orderScan cost vd T a k (count + 1) = orderScan cost vd T ⟨c, k, 0⟩ (k + 1) count := by
  simp [orderScan, OrderScan.see, hk, hlt]

/-- A cost not below the best so far is one more miss, and the valley search stops when the misses exceed T (R176, R177). -/
theorem orderScan_miss {cost : Nat → Except Fault Cost} {k : Nat} {a : OrderScan} {c : Cost} (hk : cost k = .ok c)
    (hlt : Cost.lt c a.best = false) (T count : Nat) :
    orderScan cost true T a k (count + 1) =
      if T < a.miss + 1 then .ok { a with miss := a.miss + 1 } else orderScan cost true T { a with miss := a.miss + 1 } (k + 1) count := by
  simp [orderScan, OrderScan.see, hk, hlt]

theorem OrderScan.see_miss_le (a : OrderScan) (k : Nat) (c : Cost) : (a.see k c).miss ≤ a.miss + 1 := by
  unfold OrderScan.see
  split
  · exact Nat.zero_le _
  · exact le_rfl

/-- Without VD the loop is the valley search under a threshold that the misses cannot exceed. -/
theorem orderScan_full_eq_valley (cost : Nat → Except Fault Cost) (T : Nat) {T' : Nat} : ∀ (count k : Nat) (a : OrderScan), a.miss + count ≤ T' →
    orderScan cost false T a k count = orderScan cost true T' a k count
  | 0, _, _, _ => rfl
  | count + 1, k, a, h => by
    simp only [orderScan]
    cases cost k with
    | error f => rfl
    | ok c =>
      have hm := a.see_miss_le k c
      have hgo : ¬ T' < (a.see k c).miss := by omega
      simpa [hgo] using orderScan_full_eq_valley cost T count (k + 1) (a.see k c) (by omega)

/-- Costs not below the best so far stop the valley search as soon as the misses exceed T; the later orders are not evaluated (R176, R177). -/
theorem orderScan_stops {cost : Nat → Except Fault Cost} {T : Nat} : ∀ (count k : Nat) (a : OrderScan) (c : Nat → Cost),
    a.miss ≤ T → T + 1 - a.miss ≤ count → (∀ i, i < T + 1 - a.miss → cost (k + i) = .ok (c i) ∧ Cost.lt (c i) a.best = false) →
    orderScan cost true T a k count = .ok { a with miss := T + 1 }
  | 0, _, _, _, hm, hcount, _ => by omega
  | count + 1, k, a, c, hm, hcount, hc => by
    obtain ⟨hk, hlt⟩ := hc 0 (by omega)
    rw [orderScan_miss (k := k) hk hlt]
    split
    · rw [show a.miss = T by omega]
    · refine orderScan_stops count (k + 1) { a with miss := a.miss + 1 } (fun i => c (i + 1)) (by simp only; omega) (by simp only; omega) fun i hi => ?_
      rw [show k + 1 + i = k + (i + 1) by omega]
      exact hc (i + 1) (by simp only at hi; omega)

/-! ## What the loop has found when it ends -/

/-- The cost of an order, where it is computed. -/
def computedCost (cost : Nat → Except Fault Cost) (k : Nat) : Cost := (cost k).toOption.getD none

theorem computedCost_of_ok {cost : Nat → Except Fault Cost} {k : Nat} {c : Cost} (h : cost k = .ok c) : computedCost cost k = c := by
  rw [computedCost, h]
  rfl

/-- After order 0 the best order is 0. -/
theorem ScanAt.first (c : Nat → Cost) (T : Nat) : ScanAt c T 1 ⟨c 0, 0, 0⟩ where
  seen := Nat.one_pos
  best := rfl
  smallest := fun j hj => by
    obtain rfl : j = 0 := by omega
    exact Cost.lt_irrefl _
  lowest := fun j hj => absurd hj j.not_lt_zero
  misses := rfl
  noStop := fun m _ hm => by omega

/-- The loop over the orders 0..n has evaluated the orders 0..L and ended with `b`, because no order is left or because the misses exceed T (R176, R177). -/
structure ScanEnd (cost : Nat → Except Fault Cost) (T n L : Nat) (b : OrderScan) : Prop where
  le : L ≤ n
  costs : ∀ k, k ≤ L → cost k = .ok (computedCost cost k)
  found : ScanAt (computedCost cost) T (L + 1) b
  stop : L = n ∨ b.miss = T + 1

/-- The loop's result, with VD and without, when order 0 has a finite cost. -/
theorem orderScan_scanEnd {cost : Nat → Except Fault Cost} {vd : Bool} {T n : Nat} {b : OrderScan} (h0 : ∀ c, cost 0 = .ok c → c ≠ none)
    (h : orderScan cost vd T ⟨none, 0, 0⟩ 0 (n + 1) = .ok b) :
    ∃ L, ScanEnd cost (if vd then T else n) n L b := by
  obtain ⟨c, hc⟩ : ∃ c, cost 0 = .ok c := by
    cases hc : cost 0 with
    | ok c => exact ⟨c, rfl⟩
    | error f => simp [orderScan, hc] at h
  obtain ⟨v, rfl⟩ := Option.ne_none_iff_exists'.mp (h0 c hc)
  rw [orderScan_below hc (Cost.lt_some_none v), ← computedCost_of_ok hc] at h
  have hvalley : orderScan cost true (if vd then T else n) ⟨computedCost cost 0, 0, 0⟩ 1 n = .ok b := by
    cases vd with
    | true => exact h
    | false => exact (orderScan_full_eq_valley cost T n 1 _ (by simp)).symm.trans h
  obtain ⟨L, hL1, hLn, hcost, hscan, hend⟩ := orderScan_valley cost (computedCost cost) (fun _ _ => computedCost_of_ok) _ n 1 _ b
    (ScanAt.first _ _) (Nat.zero_le _) hvalley
  obtain ⟨L, rfl⟩ : ∃ L', L = L' + 1 := ⟨L - 1, by omega⟩
  refine ⟨L, ⟨by omega, fun k hk => ?_, hscan, by omega⟩⟩
  cases k with
  | zero => rwa [computedCost_of_ok hc]
  | succ k => exact hcost (k + 1) (by omega) (by omega)

/-- What the loop has found is finite when the cost of order 0 is. -/
theorem ScanAt.best_ne_none {c : Nat → Cost} {T k : Nat} {a : OrderScan} (h : ScanAt c T k a) (h0 : c 0 ≠ none) : a.best ≠ none := by
  intro hbest
  obtain ⟨v, hv⟩ := Option.ne_none_iff_exists'.mp h0
  have hle := h.smallest 0 (by have := h.seen; omega)
  rw [hbest, hv] at hle
  cases hle

/-! ## The command -/

section
variable {n ct : Nat} {xo xe ra vd bg : Bool} {s t : State}

/-- A completed ORDSEL has evaluated the orders 0..L, and stores the order and the cost its loop found (R176). -/
theorem exec_ordsel_scanEnd (hn : n < 1024) (h : exec (.ordsel n ct xo xe ra vd bg) s = .next t) :
    ∃ L a, ScanEnd (orderCost Config.params s n ⟨ct, xo, xe, ra, vd, bg⟩) (if vd then valleyT n else n) n L a ∧
      t.optOrder.toNat = a.kbest ∧ t.totBits = BitVec.ofNat 64 (a.best.getD 0) := by
  obtain ⟨a, ha, rfl⟩ := exec_ordsel_next.mp h
  obtain ⟨L, hend⟩ := orderScan_scanEnd (fun _ => orderCost_zero) ha
  have hseen := hend.found.seen
  have hle := hend.le
  exact ⟨L, a, hend, Nat.mod_eq_of_lt (show a.kbest < 2 ^ 10 by omega), rfl⟩

/-- ORDSEL completes when every order's cost is computed (R176). -/
theorem exec_ordsel_next_of_costs
    (h : ∀ k, k ≤ n → ∃ c, orderCost Config.params s n ⟨ct, xo, xe, ra, vd, bg⟩ k = .ok c) :
    ∃ t, exec (.ordsel n ct xo xe ra vd bg) s = .next t ∧ t.done = true ∧ t.eng = .idle := by
  obtain ⟨a, ha⟩ := orderScan_total (orderCost Config.params s n ⟨ct, xo, xe, ra, vd, bg⟩) vd (valleyT n) (n + 1) 0 ⟨none, 0, 0⟩
    fun i _ hi => h i (by omega)
  exact ⟨_, exec_ordsel_next.mpr ⟨a, ha, rfl⟩, rfl, rfl⟩

end

/-- Settles O39: the costs of written operands are computed, so the loop ends; its best is not INF, since order 0's cost is not. -/
theorem ordselCompletes : Obligations.OrdselCompletes := by
  intro n ct xo xe ra vd bg s hn hL hq hr he hs
  obtain ⟨t, ht, hdone, hidle⟩ := exec_ordsel_next_of_costs (vd := vd)
    fun k hk => (orderCost_ok (o := ⟨ct, xo, xe, ra, vd, bg⟩) hn hL hq hr he hs hk).imp fun _ => And.left
  obtain ⟨L, a, ⟨hLn, hcost, hscan, -⟩, hopt, htot⟩ := exec_ordsel_scanEnd hn ht
  obtain ⟨b, hb⟩ := Option.ne_none_iff_exists'.mp (hscan.best_ne_none (orderCost_zero (hcost 0 L.zero_le)))
  have hseen := hscan.seen
  refine ⟨t, b, ht, hdone, hidle, by omega, ?_, by rw [htot, hb]; rfl⟩
  rw [hopt, hcost a.kbest (by omega), ← hscan.best, hb]

/-- Settles O40: without VD the loop evaluates every order, and its best is the lowest order of smallest cost. -/
theorem fullEnumerationPicksLowestMinimum : Obligations.FullEnumerationPicksLowestMinimum := by
  intro n ct xo xe ra bg s t c hn hc ht
  obtain ⟨L, a, ⟨hLn, -, hscan, hstop⟩, hopt, -⟩ := exec_ordsel_scanEnd hn ht
  obtain ⟨hseen, hbest, hsmallest, hlowest, hmisses, -⟩ := hscan
  obtain rfl : L = n := by
    simp only [Bool.false_eq_true, if_false] at hstop
    omega
  have hkbest : a.best = c a.kbest := hbest.trans (computedCost_of_ok (hc _ (by omega)))
  rw [hopt, ← hkbest]
  refine ⟨by omega, fun k hk => ?_, fun k hk => ?_⟩
  · rw [← computedCost_of_ok (hc k hk)]
    exact hsmallest k (by omega)
  · rw [← computedCost_of_ok (hc k (by omega))]
    exact hlowest k hk

/-- Settles O41: what the valley search has found when it ends is the command's choice, and each round of the loop obeys its law. -/
theorem valleyStopsAfterThresholdMisses : Obligations.ValleyStopsAfterThresholdMisses := by
  refine ⟨fun n ct xo xe ra bg s t hn ht => ?_, fun cost T k count a c => ⟨fun hk hlt => orderScan_below hk hlt true T count,
    orderScan_stops count k a c⟩⟩
  obtain ⟨L, a, ⟨hLn, hcost, hscan, hstop⟩, hopt, -⟩ := exec_ordsel_scanEnd hn ht
  obtain ⟨hseen, hbest, hsmallest, hlowest, hmisses, hnoStop⟩ := hscan
  simp only [if_true, valleyT] at hstop hnoStop
  refine ⟨L, _, hLn, hcost, by omega, fun k hk => ?_, fun k hk => ?_, by omega, fun m hT hm => hnoStop m hT (by omega)⟩
  · rw [hopt, ← hbest]
    exact hsmallest k (by omega)
  · rw [hopt, ← hbest]
    exact hlowest k (by omega)

/-- Settles O42: the only stores are the free values of the two scratch ranges, and the second range leaves the first one written. -/
theorem ordselFrame : Obligations.OrdselFrame := by
  intro n ct xo xe ra vd bg s t ht
  obtain ⟨a, -, rfl⟩ := exec_ordsel_next.mp ht
  refine ⟨rfl, fun x hres hlpc => ?_, fun i hi => ?_, Memory.havocRange_written _ _ _ _ _⟩
  · exact (Memory.readByte_havocRange_other hlpc).trans (Memory.readByte_havocRange_other hres)
  · exact Memory.written_havocRange _ _ _ _ _ _ (Memory.havocRange_written _ _ _ _ _ i hi)

end Sys2Proof.Machine
end

section
namespace Sys2Proof.Machine
open Sys2Proof

/-! # The lattice (R190–R193) -/

/-- The updated entries of a lattice step, each from two entries of the old vector (R190). -/
theorem latticeStep_getD_of_lt {c : List Int} {m : Nat} (hm : m < c.length) (a : Int) :
    (latticeStep c a).getD m 0 = c.getD m 0 + asr (a * c.getD (c.length - 1 - m) 0 + 524288) 20 := by
  have hmirror : c.length - 1 - m < c.length := by omega
  have hzip : m < (List.zipWith (fun cm cr => cm + asr (a * cr + 524288) 20) c c.reverse).length := by simpa using hm
  rw [latticeStep, List.getD_append _ _ _ _ hzip, List.getD_eq_getElem _ _ hzip, List.getD_eq_getElem _ _ hm, List.getD_eq_getElem _ _ hmirror,
    List.getElem_zipWith, List.getElem_reverse]

theorem latticeStep_getD_length (c : List Int) (a : Int) : (latticeStep c a).getD c.length 0 = a := by
  simp [latticeStep, List.getD_eq_getElem?_getD]

/-- Settles O21: the entries below the last are the updated ones, and the last is the new coefficient. -/
theorem latticeStepEntries : Obligations.LatticeStepEntries := fun c a =>
  ⟨latticeStep_length c a, fun _ hm => latticeStep_getD_of_lt hm a, latticeStep_getD_length c a⟩

/-- The only updated entry of order 2 fits 32 bits, since the product of two 21-bit coefficients has absolute value at most 2^40 (R192). -/
theorem fits32_order2 {a b : Int} (ha : -(2 ^ 20) ≤ a ∧ a < 2 ^ 20) (hb : -(2 ^ 20) ≤ b ∧ b < 2 ^ 20) :
    fits32 (a + asr (b * a + 524288) 20) = true := by
  have hprod : |b * a| ≤ 2 ^ 20 * 2 ^ 20 := by
    rw [abs_mul]
    exact mul_le_mul (abs_le.mpr ⟨hb.1, hb.2.le⟩) (abs_le.mpr ⟨ha.1, ha.2.le⟩) (abs_nonneg a) (by norm_num)
  obtain ⟨hlo, hhi⟩ := abs_le.mp hprod
  have hge : -(2 ^ 20) ≤ asr (b * a + 524288) 20 := (asr_le_iff _ _ _).mpr (by omega)
  have hlt : asr (b * a + 524288) 20 < 2 ^ 20 + 1 := (asr_lt_iff _ _ _).mpr (by omega)
  rw [fits32_iff]
  omega

/-- Settles O22: orders 0 and 1 update no entry, and order 2 updates one. -/
theorem lowOrdersNeverOverflow : Obligations.LowOrdersNeverOverflow := by
  intro rc hlen hrc
  match rc, hlen with
  | [], _ => rfl
  | [a], _ => exact latticeOverflows_singleton a
  | [a, b], _ =>
    have hfit := fits32_order2 (hrc a (by simp)) (hrc b (by simp))
    simp [latticeOverflows, latticeSeq, latticeStep, hfit]

/-- Settles O23: the constants are closed terms. -/
theorem fallbackConstants : Obligations.FallbackConstants :=
  ⟨rfl, by decide, rfl, qFb_eq, rfl, by decide, rFb_eq⟩

/-! # The coefficients in effect and the LPC vector (R194, R195) -/

theorem effectiveRc_of_overflows {rc : List Int} (h : latticeOverflows rc = true) : effectiveRc rc = [rFb] := if_pos h

theorem effectiveRc_of_fits {rc : List Int} (h : latticeOverflows rc = false) : effectiveRc rc = rc := if_neg (by simp [h])

/-- The fallback stores one element each in QCOF, RCOF and LPC (R194). -/
theorem loadLpc_mem_of_overflows {rc : List Int} (h : latticeOverflows rc = true) (s : State) : (loadLpc rc s).mem =
    ((s.mem.writeElem .qcof 0 (BitVec.ofInt 32 (-36))).writeElem .rcof 0 (BitVec.ofInt 32 (-944608))).writeElem .lpc 0 (BitVec.ofInt 32 (-944608)) := by
  rw [loadLpc_mem, if_pos h, effectiveRc_of_overflows h, lattice_singleton, qFb_eq, rFb_eq]
  rfl

section
variable {r : Nat} {s : State} {rc : List Int}

theorem rcof_mem (hrc : s.mem.readRange .rcof 0 r = .ok rc) : ∀ a ∈ rc, -1048576 ≤ a ∧ a < 1048576 := by
  intro a ha
  obtain rfl := Memory.readRange_length hrc
  obtain ⟨i, hi, rfl⟩ := List.getElem_of_mem ha
  rw [← List.getD_eq_getElem _ 0 hi]
  exact Memory.readRange_mem hrc hi

/-- The vector in effect is read back from LPC as it was stored: each of its entries fits 32 bits (R191, R195). -/
theorem readRange_lpc_loadLpc (hr : r < 1024) (hrc : s.mem.readRange .rcof 0 r = .ok rc) :
    (loadLpc rc s).mem.readRange .lpc 0 (effectiveRc rc).length = .ok (lattice (effectiveRc rc)) := by
  have hlen := effectiveRc_length_lt ((Memory.readRange_length hrc).trans_lt hr)
  have hfits := lattice_fits (latticeOverflows_effectiveRc rc) (effectiveRc_mem (rcof_mem hrc)) le_rfl
  rw [List.take_length] at hfits
  rw [loadLpc_mem, ← lattice_length (effectiveRc rc)]
  refine Memory.readRange_writeRange_same (by simpa [Window.words] using hlen.le) fun i hi => ?_
  have := (fits32_iff _).mp (hfits _ (List.getElem_mem hi))
  rw [List.getD_eq_getElem _ _ hi]
  simp only [Window.width]
  omega

theorem loadLpc_optOrder_toNat (hr : r < 1024) (hrc : s.mem.readRange .rcof 0 r = .ok rc) :
    (loadLpc rc s).optOrder.toNat = (effectiveRc rc).length := by
  have hlen := effectiveRc_length_lt ((Memory.readRange_length hrc).trans_lt hr)
  rw [loadLpc_optOrder, BitVec.toNat_ofNat]
  omega

end

/-- The values of the fallback, in the arrays and in OPT_ORDER (R193, R194). -/
theorem loadLpc_fallback {rc : List Int} (h : latticeOverflows rc = true) (s : State) :
    (loadLpc rc s).mem.readElem .qcof 0 = .ok (BitVec.ofInt 32 (-36)) ∧ (loadLpc rc s).mem.readElem .rcof 0 = .ok (BitVec.ofInt 32 (-944608)) ∧
      (loadLpc rc s).mem.readElem .lpc 0 = .ok (BitVec.ofInt 32 (-944608)) ∧ (loadLpc rc s).optOrder = 1#10 := by
  rw [loadLpc_mem_of_overflows h]
  refine ⟨?_, ?_, ?_, ?_⟩
  · rw [Memory.readElem_writeElem_other _ _ (by decide), Memory.readElem_writeElem_other _ _ (by decide),
      Memory.readElem_writeElem_same _ _ (by decide), Window.view_store_ofInt (by decide) (by decide)]
  · rw [Memory.readElem_writeElem_other _ _ (by decide), Memory.readElem_writeElem_same _ _ (by decide),
      Window.view_store_ofInt (by decide) (by decide)]
  · rw [Memory.readElem_writeElem_same _ _ (by decide), Window.view_store_full rfl]
  · rw [loadLpc_optOrder, effectiveRc_of_overflows h]
    rfl

/-- No element but the three of the fallback is stored. -/
theorem readElem_loadLpc_fallback_other {rc : List Int} (h : latticeOverflows rc = true) (s : State) {w : Window} {j : Nat} (hj : j < w.words)
    (hne : ¬ (j = 0 ∧ (w = .qcof ∨ w = .rcof ∨ w = .lpc))) : (loadLpc rc s).mem.readElem w j = s.mem.readElem w j := by
  have haddr : ∀ w' : Window, (w' = .qcof ∨ w' = .rcof ∨ w' = .lpc) → w'.addr 0 ≠ w.addr j := by
    intro w' hw'
    by_cases hw : w' = w
    · rw [hw, Ne, Window.addr_inj]
      rintro rfl
      exact hne ⟨rfl, hw ▸ hw'⟩
    · exact Window.addr_ne hw (by cases w' <;> decide) hj
  rw [loadLpc_mem_of_overflows h, Memory.readElem_writeElem_other _ _ (haddr .lpc (by simp)),
    Memory.readElem_writeElem_other _ _ (haddr .rcof (by simp)), Memory.readElem_writeElem_other _ _ (haddr .qcof (by simp))]

/-- An element's store is a store of one word. -/
theorem Memory.readByte_writeElem_other {m : Memory} {w : Window} {j x : Nat} (v : Word) (h : ¬ StoredAt w j 1 x) :
    (m.writeElem w j v).readByte x = m.readByte x := by
  refine Memory.readByte_writeWord_other m _ _ ?_
  have hx : ¬ (w.addr j ≤ x ∧ x < w.addr j + 4) := fun hx => h ⟨0, Nat.one_pos, hx⟩
  omega

/-- The bytes that loading LPC leaves as they are (R195, R49). -/
theorem readByte_loadLpc_other {rc : List Int} (s : State) {a : Nat} (hlpc : ¬ StoredAt .lpc 0 (effectiveRc rc).length a)
    (hfb : latticeOverflows rc = true → ¬ StoredAt .qcof 0 1 a ∧ ¬ StoredAt .rcof 0 1 a) : (loadLpc rc s).mem.readByte a = s.mem.readByte a := by
  rw [loadLpc_mem, Memory.readByte_writeRange_other (by simpa using hlpc)]
  split
  · rename_i h
    obtain ⟨hq, hr⟩ := hfb h
    rw [Memory.readByte_writeElem_other _ hr, Memory.readByte_writeElem_other _ hq]
  · rfl

/-! # P2L (R195) -/

theorem loadLpc_err (rc : List Int) (s : State) : (loadLpc rc s).err = s.err := by rw [loadLpc_eq]

theorem loadLpc_ecause (rc : List Int) (s : State) : (loadLpc rc s).ecause = s.ecause := by rw [loadLpc_eq]

theorem exec_p2l_ok {r : Nat} {s : State} {rc : List Int} (h : s.mem.readRange .rcof 0 r = .ok rc) :
    exec (.p2l r) s = .next (complete (loadLpc rc s)) := exec_p2l_next.mpr ⟨rc, h, rfl⟩

/-- Settles O24: without overflow the coefficients in effect are the operands. -/
theorem p2lResult : Obligations.P2lResult := by
  intro r s rc hr hrc ho
  have hlpc := readRange_lpc_loadLpc hr hrc
  have hopt := loadLpc_optOrder_toNat hr hrc
  rw [effectiveRc_of_fits ho, Memory.readRange_length hrc] at hlpc hopt
  exact ⟨_, exec_p2l_ok hrc, rfl, rfl, hlpc, hopt, by rw [complete_fbk, loadLpc_fbk, ho, Bool.or_false]⟩

/-- Settles O25: P2L's completion is the fallback's stores. -/
theorem p2lFallback : Obligations.P2lFallback := by
  intro r s rc hrc ho
  obtain ⟨hq, hr, hlpc, hopt⟩ := loadLpc_fallback ho s
  exact ⟨_, exec_p2l_ok hrc, rfl, rfl, hq, hr, hlpc, hopt, by rw [complete_fbk, loadLpc_fbk, ho, Bool.or_true], loadLpc_err rc s,
    loadLpc_ecause rc s, fun w j => readElem_loadLpc_fallback_other ho s⟩

/-! # RESID (R196–R201) -/

/-- The residuals' part of RESID's completion: RES and ROVF (R200, R201). -/
def storeResiduals (es : List Int) (t : State) : State := setRovf es { t with mem := t.mem.writeRange .res 0 (es.map wrap32) }

/-- RESID's completion: LPC is loaded, then the residuals are stored (R201). -/
theorem exec_resid_next_iff {r : Nat} {ra : Bool} {s t : State} : exec (.resid r ra) s = .next t ↔
    ∃ rc es, s.mem.readRange .rcof 0 r = .ok rc ∧ blockResiduals ra (effectiveRc rc) s = .ok es ∧
      t = complete (storeResiduals es (loadLpc rc s)) := exec_resid_next

theorem exec_resid_ok {r : Nat} {ra : Bool} {s : State} {rc es : List Int} (hrc : s.mem.readRange .rcof 0 r = .ok rc)
    (hes : blockResiduals ra (effectiveRc rc) s = .ok es) :
    exec (.resid r ra) s = .next (complete (storeResiduals es (loadLpc rc s))) := exec_resid_next_iff.mpr ⟨rc, es, hrc, hes, rfl⟩

theorem blockResiduals_length {ra : Bool} {rc es : List Int} {s : State} (h : blockResiduals ra rc s = .ok es) : es.length = s.blockLen := by
  obtain ⟨xs, -, rfl⟩ := blockResiduals_ok.mp h
  exact residuals_length _ _ _ _

theorem readElem_res_storeResiduals {es : List Int} (hlen : es.length ≤ 65536) (t : State) {k : Nat} (hk : k < es.length) :
    (storeResiduals es t).mem.readElem .res k = .ok (BitVec.ofInt 32 (es.getD k 0)) := by
  have hk' : k < (es.map wrap32).length := by simpa using hk
  have h := Memory.readElem_writeRange_same (m := t.mem) (w := .res) (j := 0) hk' (show 0 + k < 65536 by omega)
  rw [Nat.zero_add, Window.view_store_full rfl, List.getD_eq_getElem _ _ hk', List.getElem_map, ofInt_wrap32] at h
  rw [List.getD_eq_getElem _ _ hk]
  exact h

theorem readElem_storeResiduals_other {es : List Int} (hlen : es.length ≤ 65536) (t : State) {w : Window} (hw : w ≠ .res) {j : Nat}
    (hj : j < w.words) : (storeResiduals es t).mem.readElem w j = t.mem.readElem w j :=
  Memory.readElem_writeRange_other fun i hi => Window.addr_ne hw.symm (by rw [List.length_map] at hi; show _ < 65536; omega) hj

@[simp] theorem storeResiduals_fbk (es : List Int) (t : State) : (storeResiduals es t).fbk = t.fbk := rfl

theorem storeResiduals_rovf (es : List Int) (t : State) : (storeResiduals es t).rovf = (t.rovf || es.any fun e => !fits32 e) := rfl

/-- ROVF is set when some residual is outside 32 bits, and kept otherwise (R200). -/
theorem storeResiduals_rovf_iff (es : List Int) (t : State) : (storeResiduals es t).rovf = true ↔ t.rovf = true ∨ ∃ e ∈ es, fits32 e = false := by
  simp [storeResiduals_rovf]

/-- Residuals that fit 32 bits are read back from RES as they are. -/
theorem readRange_res_storeResiduals {es : List Int} (hlen : es.length ≤ 65536) (hfits : ∀ e ∈ es, fits32 e = true) (t : State) :
    (storeResiduals es t).mem.readRange .res 0 es.length = .ok es := by
  refine Memory.readRange_ok_iff.mpr ⟨rfl, fun k hk => ⟨BitVec.ofInt 32 (es.getD k 0), ?_, ?_⟩⟩
  · rw [Nat.zero_add]
    exact readElem_res_storeResiduals hlen t hk
  · rw [List.getD_eq_getElem _ _ hk]
    exact (toInt_ofInt32 (hfits _ (List.getElem_mem hk))).symm

theorem loadLpc_rovf (rc : List Int) (s : State) : (loadLpc rc s).rovf = s.rovf := by rw [loadLpc_eq]

/-- Settles O26: RES by the residual of each sample, LPC, OPT_ORDER and FBK by P2L's lemmas, none of whose elements RES overlaps. -/
theorem residResult : Obligations.ResidResult := by
  intro r ra s rc xs hr hL hrc hxs
  have hes := blockResiduals_ok.mpr ⟨xs, hxs, rfl⟩
  have hlen := blockResiduals_length hes
  have heff := effectiveRc_length_lt ((Memory.readRange_length hrc).trans_lt hr)
  refine ⟨_, exec_resid_ok hrc hes, rfl, rfl, fun k hk => ?_, ?_, ?_, loadLpc_optOrder_toNat hr hrc, ?_, loadLpc_err rc s, loadLpc_ecause rc s,
    fun ho => ?_⟩
  · rw [complete_mem, readElem_res_storeResiduals (by omega) _ (by omega), residuals_getD _ _ _ hk]
  · rw [complete_rovf, storeResiduals_rovf_iff, loadLpc_rovf]
    refine or_congr_right ⟨?_, ?_⟩
    · rintro ⟨e, he, hout⟩
      obtain ⟨k, hk, rfl⟩ := mem_residuals.mp he
      exact ⟨k, hk, hout⟩
    · rintro ⟨k, hk, hout⟩
      exact ⟨_, mem_residuals.mpr ⟨k, hk, rfl⟩, hout⟩
  · rw [← readRange_lpc_loadLpc hr hrc]
    exact Memory.readRange_writeRange_other (by decide) (by simpa [Window.words] using hL) (by simpa [Window.words] using heff.le)
  · rw [complete_fbk, storeResiduals_fbk, loadLpc_fbk, Bool.or_eq_true]
  · obtain ⟨hq, hr, hlpc, hopt⟩ := loadLpc_fallback ho s
    have hother {w : Window} (hw : w ≠ .res) (hj : 0 < w.words) := readElem_storeResiduals_other (hlen.trans_le hL) (loadLpc rc s) hw hj
    exact ⟨(hother (by decide) (by decide)).trans hq, (hother (by decide) (by decide)).trans hr, (hother (by decide) (by decide)).trans hlpc, hopt⟩

/-- Settles O27: the bytes stored are those of LPC, of the fallback's two elements, and of RES. -/
theorem latticeFrame : Obligations.LatticeFrame := by
  refine ⟨fun r s t rc hrc ht => ?_, fun r ra s t rc hrc ht => ?_⟩
  · rw [exec_p2l_ok hrc] at ht
    cases ht
    exact ⟨by rw [loadLpc_eq]; rfl, fun a hlpc hfb => readByte_loadLpc_other s hlpc hfb⟩
  · obtain ⟨rc', es, hrc', hes, rfl⟩ := exec_resid_next_iff.mp ht
    obtain rfl : rc = rc' := Except.ok.inj (hrc.symm.trans hrc')
    refine ⟨by rw [loadLpc_eq]; rfl, fun a hlpc hres hfb => ?_⟩
    rw [← blockResiduals_length hes] at hres
    exact (Memory.readByte_writeRange_other (by simpa using hres)).trans (readByte_loadLpc_other s hlpc hfb)

/-- Settles O28: the coefficients and the samples from 0 on are read alike, so both blocks have the same residuals. -/
theorem raBlockIgnoresHistory : Obligations.RaBlockIgnoresHistory := by
  intro r s s' t _ hL hs' hmem ht
  obtain ⟨rc, es, hrc, hes, rfl⟩ := exec_resid_next_iff.mp ht
  have hpar : s'.par = s.par := by rw [hs']
  have hrovf : s'.rovf = s.rovf := by rw [hs']
  have hblk : s'.blockLen = s.blockLen := by rw [State.blockLen, State.blockLen, hpar]
  have hrc' : s'.mem.readRange .rcof 0 r = .ok rc := by
    rw [← hrc]
    exact Memory.readRange_congr fun i _ => hmem .rcof _ (by simp)
  have hes' : blockResiduals true (effectiveRc rc) s' = .ok es := by
    obtain ⟨xs, hxs, rfl⟩ := blockResiduals_ok.mp hes
    refine blockResiduals_ok.mpr ⟨xs, ?_, by rw [hblk]⟩
    rw [hblk, ← hxs]
    exact Memory.readRange_congr fun i _ => hmem .smp _ fun _ => Nat.le_add_right _ _
  have hlen := blockResiduals_length hes
  refine ⟨_, exec_resid_ok hrc' hes', Memory.readRange_congr fun i hi => ?_, ?_⟩
  · have hres := readElem_res_storeResiduals (es := es) (by omega)
    rw [Nat.zero_add]
    exact (hres (loadLpc rc s') (by omega)).trans (hres (loadLpc rc s) (by omega)).symm
  · rw [complete_rovf, complete_rovf, storeResiduals_rovf, storeResiduals_rovf, loadLpc_rovf, loadLpc_rovf, hrovf]

end Sys2Proof.Machine
end

section
namespace Sys2Proof.Machine
open Sys2Proof

/-! # The decoder (R202)

The decoder reproduces sample n because the predictor of n looks back at most to the samples already decoded and the history (R198, R199). -/

/-- The prediction of sample n takes the `c.length` samples before n, and no other (R197). -/
theorem predictorTerm_congr {c : List Int} {x y : Int → Int} {n : Int} (h : ∀ i, n - c.length ≤ i → i < n → x i = y i) :
    predictorTerm c x n = predictorTerm c y n := by
  have hsum : predictorSum c x n = predictorSum c y n := by
    unfold predictorSum
    congr 1
    refine List.ext_getElem (by simp) fun j hj _ => ?_
    rw [List.length_mapIdx] at hj
    rw [List.getElem_mapIdx, List.getElem_mapIdx, h _ (by omega) (by omega)]
  rw [predictorTerm, predictorTerm, hsum]

/-- The residuals as a map over the sample numbers, each by the vector R198 names. -/
theorem residuals_eq_map (ra : Bool) (rc : List Int) (x : Int → Int) (len : Nat) :
    residuals ra rc x len = (List.range len).map fun n => residual (predictorOf ra rc n) x n := by
  refine List.ext_getElem (by simp) fun n hn _ => ?_
  rw [← List.getD_eq_getElem _ 0 hn, residuals_getD ra rc x (by simpa using hn), List.getElem_map, List.getElem_range]

/-- The first `n` samples of `x`. -/
def firstSamples (x : Int → Int) (n : Nat) : List Int := (List.range n).map fun k : Nat => x k

theorem firstSamples_succ (x : Int → Int) (n : Nat) : firstSamples x (n + 1) = firstSamples x n ++ [x n] := by
  simp [firstSamples, List.range_succ]

@[simp] theorem firstSamples_length (x : Int → Int) (n : Nat) : (firstSamples x n).length = n := by simp [firstSamples]

theorem firstSamples_getD (x : Int → Int) {n k : Nat} (hk : k < n) : (firstSamples x n).getD k 0 = x k := by
  simp [firstSamples, List.getD_eq_getElem?_getD, hk]

section
variable {ra : Bool} {rc : List Int} {x hist : Int → Int}

/-- The signal decoded so far is `x`, back to the oldest history sample the block reads. -/
theorem decodedSignal_firstSamples (hhist : ∀ i : Int, -(historyLen ra rc.length : Int) ≤ i → i < 0 → hist i = x i) {n : Nat} {i : Int}
    (hlo : -(historyLen ra rc.length : Int) ≤ i) (hi : i < n) : decodedSignal hist (firstSamples x n) i = x i := by
  unfold decodedSignal
  split
  · exact hhist i hlo (by assumption)
  · obtain ⟨k, rfl⟩ := Int.eq_ofNat_of_zero_le (show 0 ≤ i by omega)
    rw [Int.toNat_natCast, firstSamples_getD x (by omega)]

/-- The predictor of sample n looks back no further than the history the block reads (R198, R199). -/
theorem predictorOf_reach (ra : Bool) (rc : List Int) (n : Nat) : -(historyLen ra rc.length : Int) ≤ n - ((predictorOf ra rc n).length : Int) := by
  cases ra <;> simp [historyLen]

/-- From the first n samples on, each residual gives back its sample. -/
theorem decodeResiduals_firstSamples (hhist : ∀ i : Int, -(historyLen ra rc.length : Int) ≤ i → i < 0 → hist i = x i) (count n : Nat) :
    decodeResiduals ra rc hist (firstSamples x n) ((List.range' n count).map fun k => residual (predictorOf ra rc k) x k) =
      firstSamples x (n + count) := by
  induction count generalizing n with
  | zero => rfl
  | succ count ih =>
    have hterm : predictorTerm (predictorOf ra rc n) (decodedSignal hist (firstSamples x n)) n = predictorTerm (predictorOf ra rc n) x n :=
      predictorTerm_congr fun i hlo hi => decodedSignal_firstSamples hhist ((predictorOf_reach ra rc n).trans hlo) hi
    rw [List.range'_succ, List.map_cons, decodeResiduals, firstSamples_length, hterm, residual, add_sub_cancel_right, ← firstSamples_succ, ih,
      show n + 1 + count = n + (count + 1) by omega]

/-- The decoder gives back the samples from their exact residuals. -/
theorem decodeResiduals_residuals (hhist : ∀ i : Int, -(historyLen ra rc.length : Int) ≤ i → i < 0 → hist i = x i) (len : Nat) :
    decodeResiduals ra rc hist [] (residuals ra rc x len) = firstSamples x len := by
  have h := decodeResiduals_firstSamples hhist len 0
  rwa [← List.range_eq_range', ← residuals_eq_map, Nat.zero_add] at h

end

theorem historyLen_le (ra : Bool) (r : Nat) : historyLen ra r ≤ r := by
  cases ra <;> simp [historyLen]

/-- The samples of a block are those read after its history (R196). -/
theorem firstSamples_sampleAt {m : Memory} {h len : Nat} {xs ys : List Int} (hh : h ≤ 1024)
    (hxs : m.readRange .smp (1024 - h) (h + len) = .ok xs) (hys : m.readRange .smp 1024 len = .ok ys) :
    firstSamples (sampleAt xs h) len = ys := by
  obtain ⟨-, hx⟩ := Memory.readRange_ok_iff.mp hxs
  obtain ⟨hlen, hy⟩ := Memory.readRange_ok_iff.mp hys
  refine List.ext_getElem (by simp [hlen]) fun k hk hk' => ?_
  obtain ⟨v, hv, e⟩ := hy k (by omega)
  obtain ⟨v', hv', e'⟩ := hx (k + h) (by omega)
  rw [show 1024 - h + (k + h) = 1024 + k by omega, hv] at hv'
  cases hv'
  calc (firstSamples (sampleAt xs h) len)[k] = (firstSamples (sampleAt xs h) len).getD k 0 := (List.getD_eq_getElem _ _ hk).symm
    _ = xs.getD (k + h) 0 := firstSamples_getD _ (by omega)
    _ = ys.getD k 0 := e'.trans e.symm
    _ = ys[k] := List.getD_eq_getElem _ _ hk'

/-- Settles O29: with ROVF clear RES holds the exact residuals, from which the decoder gives back the samples. -/
theorem decoderReproducesSamples : Obligations.DecoderReproducesSamples := by
  intro r ra s t rc xs es ys hist hr hL hrc hxs hhist ht hrovf hes hys
  have hblk := blockResiduals_ok.mpr ⟨xs, hxs, rfl⟩
  have hlen := blockResiduals_length hblk
  rw [exec_resid_ok hrc hblk] at ht
  cases ht
  have hfits : ∀ e ∈ residuals ra (effectiveRc rc) (sampleAt xs (historyLen ra (effectiveRc rc).length)) s.blockLen, fits32 e = true := by
    intro e he
    by_contra hne
    have := (storeResiduals_rovf_iff _ (loadLpc rc s)).mpr (.inr ⟨e, he, by simpa using hne⟩)
    exact absurd this (by simpa using hrovf)
  have hres := readRange_res_storeResiduals (hlen.trans_le hL) hfits (loadLpc rc s)
  rw [hlen] at hres
  obtain rfl := Except.ok.inj (hres.symm.trans hes)
  have hh := (historyLen_le ra (effectiveRc rc).length).trans (effectiveRc_length_lt ((Memory.readRange_length hrc).trans_lt hr)).le
  rw [decodeResiduals_residuals hhist, firstSamples_sampleAt hh hxs hys]

end Sys2Proof.Machine
end

section
namespace Sys2Proof.Machine
open Sys2Proof

/-! # The exact Rice search (R227, R232) -/

/-- The three ends of the exact search (R227), between probes inside 0..kmax: down when k0 − 1 is cheaper than k0 and no dearer than
k0 + 1, up when k0 + 1 is cheaper than both, and else at k0. -/
theorem riceSearch_cases (C : Nat → Nat) {kmax k0 : Nat} (hk : kmax / 3 = k0) (hlo : 0 < k0) (hhi : k0 < kmax) :
    (C (k0 - 1) < C k0 ∧ C (k0 - 1) ≤ C (k0 + 1) ∧ riceSearch C kmax = walkDown C (k0 - 1)) ∨
    (C (k0 + 1) < C k0 ∧ C (k0 + 1) < C (k0 - 1) ∧ riceSearch C kmax = walkUp C (kmax - (k0 + 1)) (k0 + 1)) ∨
    (C k0 ≤ C (k0 - 1) ∧ C k0 ≤ C (k0 + 1) ∧ riceSearch C kmax = k0) := by
  have e : riceSearch C kmax =
      if C (k0 - 1) < C k0 ∧ C (k0 - 1) ≤ C (k0 + 1) then walkDown C (k0 - 1)
      else if C (k0 + 1) < C k0 then walkUp C (kmax - (k0 + 1)) (k0 + 1) else k0 := by
    simp [riceSearch, hk, hlo, hhi, Cost.le]
  split_ifs at e with hdown hup
  · exact .inl ⟨hdown.1, hdown.2, e⟩
  · exact .inr (.inl ⟨hup, by omega, e⟩)
  · exact .inr (.inr ⟨by omega, by omega, e⟩)

/-- Settles O33, by the three ends of the search: each walk ends where its next step does not lower the cost, and falls up to there. -/
theorem riceSearchIsLocal : Obligations.RiceSearchIsLocal := by
  intro C kmax hkmax
  obtain ⟨k0, hk⟩ : ∃ k0, kmax / 3 = k0 := ⟨_, rfl⟩
  rw [hk]
  obtain ⟨hm, hp, e⟩ | ⟨hp, hm, e⟩ | ⟨hm, hp, e⟩ := riceSearch_cases C hk (by omega) (by omega) <;> rw [e]
  · obtain ⟨hle, hcost, hstop⟩ := walkDown_spec C (k0 - 1)
    have hfall : ∀ k, walkDown C (k0 - 1) ≤ k → k < k0 → C k < C (k + 1) := fun k h1 h2 => by
      rcases Nat.lt_or_eq_of_le (Nat.le_sub_one_of_lt h2) with hk' | rfl
      · exact walkDown_falls C _ k h1 hk'
      · rwa [Nat.sub_add_cancel (by omega)]
    exact ⟨by omega, by omega, fun h _ => hstop h, by omega, hfall, by omega, by omega, by omega, by omega⟩
  · obtain ⟨hge, hle, hcost, hstop⟩ := walkUp_spec C kmax (kmax - (k0 + 1)) (k0 + 1) (by omega)
    have hfall : ∀ k, k0 ≤ k → k < walkUp C (kmax - (k0 + 1)) (k0 + 1) → C (k + 1) < C k := fun k h1 h2 => by
      rcases Nat.eq_or_lt_of_le h1 with rfl | hk'
      · exact hp
      · exact walkUp_falls C _ _ k hk' h2
    exact ⟨hle, by omega, by omega, fun _ => hstop, by omega, hfall, by omega, by omega, by omega⟩
  · exact ⟨by omega, le_rfl, fun _ _ => hm, fun _ _ => hp, by omega, by omega, by omega, by omega, fun _ _ => rfl⟩

/-! # The choice of RICESRCH (R228, R229) -/

theorem riceSplits_iff (blk : Block) : riceSplits blk = true ↔ RiceCandidate blk 4 := by
  simp [riceSplits, RiceCandidate, and_assoc]

/-- RICESRCH chooses B = 1 unless B = 4 is a candidate and strictly cheaper (R229). -/
theorem riceBest_cases (blk : Block) (xe : Bool) :
    (riceBest blk xe = riceChoice blk xe 1 ∧
      (RiceCandidate blk 4 → (riceChoice blk xe 1).total ≤ (riceChoice blk xe 4).total)) ∨
    (RiceCandidate blk 4 ∧ riceBest blk xe = riceChoice blk xe 4 ∧ (riceChoice blk xe 4).total < (riceChoice blk xe 1).total) := by
  rw [← riceSplits_iff, riceBest]
  by_cases hs : riceSplits blk = true
  · by_cases hlt : (riceChoice blk xe 4).total < (riceChoice blk xe 1).total
    · exact .inr ⟨hs, by simp [hs, cheapest, hlt], hlt⟩
    · exact .inl ⟨by simp [hs, cheapest, hlt], fun _ => Nat.le_of_not_lt hlt⟩
  · exact .inl ⟨by simp [hs, cheapest], fun h => absurd h hs⟩

@[simp] theorem riceParams_length (blk : Block) (xe : Bool) (B : Nat) : (riceParams blk xe B).length = B := by simp [riceParams]

/-- The parameter of sub-block `b`: the exact search's, or the estimate (R229). -/
theorem riceParams_getD (blk : Block) (xe : Bool) {B b : Nat} (hb : b < B) : (riceParams blk xe B).getD b 0 =
    if xe then riceSearch (riceCost blk B b) blk.par.kmax else (riceEstimate blk.par.kmax (blk.sub B b)).1 := by
  simp [riceParams, List.getD_eq_getElem?_getD, hb]

/-- Settles O34: the choice by the two cases of the comparison, and each candidate by its definition. -/
theorem riceChoiceMinimal : Obligations.RiceChoiceMinimal := by
  refine fun blk xe => ⟨?_, fun B => ⟨rfl, riceParams_length blk xe B, rfl, ?_, ?_⟩⟩
  · obtain ⟨e, hle⟩ | ⟨h4, e, hlt⟩ := riceBest_cases blk xe <;> rw [e]
    · refine ⟨.inl rfl, rfl, fun B hB => ?_⟩
      obtain rfl | ⟨rfl, -⟩ := id hB
      · exact ⟨le_rfl, fun h => absurd h (lt_irrefl 1)⟩
      · exact ⟨hle hB, fun h => absurd h (by decide : ¬ 4 < 1)⟩
    · refine ⟨h4, rfl, fun B hB => ?_⟩
      obtain rfl | ⟨rfl, -⟩ := hB
      · exact ⟨hlt.le, fun _ => hlt⟩
      · exact ⟨le_rfl, fun h => absurd h (lt_irrefl 4)⟩
  · exact fun _ => ⟨rfl, fun b hb => riceParams_getD blk true hb⟩
  · exact fun _ => ⟨rfl, fun b hb => riceParams_getD blk false hb⟩

/-! # The four entropy commands complete (R225, R231, R258, R266) -/

/-- Settles O30: the completions of the two counts. -/
theorem bitCountResults : Obligations.BitCountResults :=
  fun _ _ _ es h => ⟨exec_ricebits_next.mpr ⟨es, h, rfl⟩, exec_bgmcbits_next.mpr ⟨es, h, rfl⟩⟩

/-- Settles O32: a count changes the three count registers, and a search also SUBBLOCKS and SPAR. -/
theorem entropyFrame : Obligations.EntropyFrame := by
  refine ⟨fun r ra s t h => ?_, fun r ra xe s t h => ?_⟩
  · obtain h | h := h
    · obtain ⟨es, -, rfl⟩ := exec_ricebits_next.mp h
      rfl
    · obtain ⟨es, -, rfl⟩ := exec_bgmcbits_next.mp h
      rfl
  · obtain h | h := h
    · obtain ⟨es, -, rfl⟩ := exec_ricesrch_next.mp h
      rfl
    · obtain ⟨es, -, rfl⟩ := exec_bgmcsrch_next.mp h
      rfl

/-! # A chosen candidate fits the registers (R230, R265) -/

/-- A candidate with one parameter a sub-block, each of which fits a byte of SPAR (R41). -/
structure Choice.FitsSpar (c : Choice) : Prop where
  length : c.params.length = c.blocks
  byte : ∀ k ∈ c.params, k ≤ 255

theorem ParamRegs.kmax_cases (p : ParamRegs) : p.kmax = 15 ∨ p.kmax = 31 := by
  unfold ParamRegs.kmax
  split
  · exact .inr rfl
  · exact .inl rfl

theorem riceEstimate_le (kmax : Nat) (es : List Int) : (riceEstimate kmax es).1 ≤ kmax := by
  simp only [riceEstimate]
  split_ifs
  · exact Nat.zero_le _
  · exact Nat.zero_le _
  · exact Nat.min_le_right _ _

/-- Every parameter of a Rice candidate lies in 0..kmax (R226, R227). -/
theorem riceParams_le {blk : Block} {xe : Bool} {B k : Nat} (hk : k ∈ riceParams blk xe B) : k ≤ blk.par.kmax := by
  obtain ⟨b, -, rfl⟩ := List.mem_map.mp hk
  split
  · exact (riceSearchIsLocal _ _ blk.par.kmax_cases).1
  · exact riceEstimate_le _ _

theorem riceChoice_fitsSpar (blk : Block) (xe : Bool) (B : Nat) : (riceChoice blk xe B).FitsSpar where
  length := riceParams_length blk xe B
  byte k hk := by
    have hle : k ≤ blk.par.kmax := riceParams_le hk
    have := blk.par.kmax_cases
    omega

theorem riceBest_fitsSpar (blk : Block) (xe : Bool) : (riceBest blk xe).FitsSpar ∧ ((riceBest blk xe).blocks = 1 ∨ (riceBest blk xe).blocks = 4) := by
  obtain ⟨e, -⟩ | ⟨-, e, -⟩ := riceBest_cases blk xe <;> rw [e]
  · exact ⟨riceChoice_fitsSpar blk xe 1, .inl rfl⟩
  · exact ⟨riceChoice_fitsSpar blk xe 4, .inr rfl⟩

/-- The exact BGMC search from a byte returns a byte (R263). -/
theorem bgmcSearch_le (C : Nat → Nat) {p0 : Nat} (hp : p0 ≤ 255) : bgmcSearch C p0 ≤ 255 := by
  simp only [bgmcSearch]
  split_ifs
  · obtain e | hmem := (bgmcScan_spec C (List.range' (p0 - 4) (min 255 (p0 + 4) + 1 - (p0 - 4))) p0).1
    · exact e.trans_le hp
    · have := (List.mem_range'_1.mp hmem).2
      omega
  · exact (bgmcDescend_spec C (-1) 256 p0 p0 0 hp).1
  · exact (bgmcDescend_spec C 1 256 p0 p0 0 hp).1

theorem bgmcEstimate_le (P : Params) (es : List Int) : bgmcEstimate P es ≤ 255 := Nat.min_le_right _ _

@[simp] theorem bgmcSearchFrom_length (P : Params) (blk : Block) (B b seed count : Nat) :
    (bgmcSearchFrom P blk B b seed count).length = count := by
  induction count generalizing b seed with
  | zero => rfl
  | succ count ih => simp [bgmcSearchFrom, ih]

/-- From a byte as seed every searched parameter is a byte, since each seeds the next (R264). -/
theorem bgmcSearchFrom_le {P : Params} {blk : Block} {B seed : Nat} (hseed : seed ≤ 255) (b count : Nat) :
    ∀ k ∈ bgmcSearchFrom P blk B b seed count, k ≤ 255 := by
  induction count generalizing b seed with
  | zero => exact fun k hk => by cases hk
  | succ count ih =>
    have hp := bgmcSearch_le (bgmcCost P blk B b) hseed
    exact List.forall_mem_cons.mpr ⟨hp, ih hp (b + 1)⟩

theorem bgmcChoice_fitsSpar (P : Params) (blk : Block) (xe : Bool) (B : Nat) {seed : Nat} (hseed : seed ≤ 255) :
    (bgmcChoice P blk xe B seed).FitsSpar := by
  cases xe with
  | true => exact ⟨bgmcSearchFrom_length P blk B 0 seed B, bgmcSearchFrom_le hseed 0 B⟩
  | false =>
    refine ⟨by simp [bgmcChoice, bgmcParams], fun k hk => ?_⟩
    obtain ⟨b, -, rfl⟩ := List.mem_map.mp hk
    exact bgmcEstimate_le P _

/-- The split candidates fit, since the first parameter of each is a byte and seeds the next (R264). -/
theorem bgmcChoices_fitsSpar (P : Params) (blk : Block) (xe : Bool) (Bs : List Nat) {seed : Nat} (hseed : seed ≤ 255) :
    ∀ c ∈ bgmcChoices P blk xe seed Bs, c.FitsSpar ∧ c.blocks ∈ Bs := by
  induction Bs generalizing seed with
  | nil => exact fun c hc => by cases hc
  | cons B Bs ih =>
    have hfit := bgmcChoice_fitsSpar P blk xe B hseed
    refine List.forall_mem_cons.mpr ⟨⟨hfit, List.mem_cons_self⟩, fun c hc => ?_⟩
    obtain ⟨hc', hmem⟩ := ih (headD_le hfit.byte) c hc
    exact ⟨hc', List.mem_cons_of_mem _ hmem⟩

theorem bgmcBest_fitsSpar (P : Params) (blk : Block) (xe : Bool) : (bgmcBest P blk xe).FitsSpar ∧
    ((bgmcBest P blk xe).blocks = 1 ∨ (bgmcBest P blk xe).blocks = 2 ∨ (bgmcBest P blk xe).blocks = 4 ∨ (bgmcBest P blk xe).blocks = 8) := by
  have h1 := bgmcChoice_fitsSpar P blk xe 1 (bgmcEstimate_le P blk.res)
  obtain hbest | hbest := List.mem_cons.mp (cheapest_spec _ _).1
  · rw [bgmcBest, hbest]
    exact ⟨h1, .inl rfl⟩
  · obtain ⟨hfit, hmem⟩ := bgmcChoices_fitsSpar P blk xe _ (headD_le h1.byte) _ hbest
    have hsplit : (bgmcBest P blk xe).blocks ∈ [2, 4, 8] := List.mem_of_mem_filter hmem
    exact ⟨hfit, .inr (by simpa using hsplit)⟩

/-! # The registers a search leaves -/

theorem subblocks_setChoice {c : Choice} {B : Nat} (h : c.blocks = B) (s : State) :
    (setChoice c s).par.subblocks = BitVec.ofNat 4 B := congrArg (BitVec.ofNat 4) h

section
variable {c : Choice} (hc : c.FitsSpar) (hB : c.blocks ≤ 8) (s : State)

include hc in
theorem spar_setChoice (b : Fin 8) : (setChoice c s).par.spar[b].toNat = c.params.getD b 0 := by
  rw [setChoice_par]
  exact sparOf_get hc.byte b

include hB in
theorem subblocks_setChoice_toNat : (setChoice c s).par.subblocks.toNat = c.blocks := by
  rw [subblocks_setChoice rfl, BitVec.toNat_ofNat, Nat.mod_eq_of_lt (by omega)]

include hc hB in
/-- Past the last sub-block SPAR holds 0 (R230, R265). -/
theorem spar_setChoice_past (b : Fin 8) (hb : (setChoice c s).par.subblocks.toNat ≤ b) : (setChoice c s).par.spar[b] = 0#8 := by
  rw [subblocks_setChoice_toNat hB, ← hc.length] at hb
  exact BitVec.eq_of_toNat_eq ((spar_setChoice hc s b).trans (getD_past hb))

end

/-- Settles O31: each search's choice fits SUBBLOCKS and SPAR, where `setChoice` puts it. -/
theorem searchResults : Obligations.SearchResults := by
  refine fun r ra xe s es h => ⟨?_, ?_⟩
  · obtain ⟨hfit, hB⟩ := riceBest_fitsSpar ⟨s.par, r, ra, es⟩ xe
    refine ⟨_, exec_ricesrch_next.mpr ⟨es, h, rfl⟩, rfl, rfl, ?_, subblocks_setChoice_toNat (by omega) s, spar_setChoice hfit s,
      spar_setChoice_past hfit (by omega) s, rfl, rfl, rfl⟩
    exact hB.imp (subblocks_setChoice · s) (subblocks_setChoice · s)
  · obtain ⟨hfit, hB⟩ := bgmcBest_fitsSpar Config.params ⟨s.par, r, ra, es⟩ xe
    refine ⟨_, exec_bgmcsrch_next.mpr ⟨es, h, rfl⟩, rfl, rfl, ?_, subblocks_setChoice_toNat (by omega) s, spar_setChoice hfit s,
      spar_setChoice_past hfit (by omega) s, rfl, rfl, rfl⟩
    exact hB.imp (subblocks_setChoice · s) (.imp (subblocks_setChoice · s) (.imp (subblocks_setChoice · s) (subblocks_setChoice · s)))

end Sys2Proof.Machine
end

section
namespace Sys2Proof.Machine
open Sys2Proof

/-! # The BGMC geometry and the symbols (R250–R252) -/

theorem asr_eq_ediv (v : Int) (n : Nat) : asr v n = v / 2 ^ n := by simp [asr]

theorem bgmcShift_eq (len p : Nat) : bgmcShift len p = 5 - min (p / 16) (bgmcBb len) := by
  have := bgmcBb_le len
  simp only [bgmcShift, bgmcK, bgmcS]
  omega

/-- Up to LEN = 16 bb is 0 (R251), so also for LEN ≤ 8. -/
theorem bgmcBb_eq_zero {len : Nat} (h : len ≤ 16) : bgmcBb len = 0 := by
  by_contra hne
  have := (le_bgmcBb_iff len 1).mp (by omega)
  omega

/-- The symbol of a residual by the floor e / 2^k (R252). -/
theorem bgmcSym_eq (P : Params) (len p : Nat) (e : Int) : bgmcSym P len p e =
    if -(bgmcHalf P len p : Int) ≤ e / 2 ^ bgmcK len p ∧ e / 2 ^ bgmcK len p < bgmcHalf P len p then .msb (e / 2 ^ bgmcK len p) else .esc := by
  simp [bgmcSym, bgmcInRange, asr_eq_ediv]

/-- With half = 0 the range [−half, half) is empty, so every residual is escaped (R252). -/
theorem bgmcSym_of_maxOf_le_one {P : Params} {len p : Nat} (h : bgmcMaxOf P len p ≤ 1) (e : Int) : bgmcSym P len p e = .esc := by
  have hhalf : bgmcHalf P len p = 0 := Nat.div_eq_of_lt (by omega)
  rw [bgmcSym_eq, hhalf, if_neg (by omega)]

/-- Settles O35: bb by its thresholds, and max ≤ 1 leaves no msb in range. -/
theorem bgmcGeometry : Obligations.BgmcGeometry := by
  intro P len p _
  have hmax : bgmcMaxOf P len p = (P.bgmcMax (p % 16)).toNat / 2 ^ (5 - min (p / 16) (bgmcBb len)) := by
    rw [bgmcMaxOf, bgmcShift_eq, bgmcSx]
  refine ⟨le_bgmcBb_iff len, rfl, bgmcShift_eq len p, hmax, rfl, fun h => ?_, bgmcSym_of_maxOf_le_one, fun h => ?_⟩
  · have hbb := bgmcBb_eq_zero (h.trans (by decide : 8 ≤ 16))
    exact ⟨hbb, by rw [bgmcK, hbb, bgmcS, Nat.sub_zero]⟩
  · have hbb := bgmcBb_le len
    rw [show 6 - min (p / 16) (bgmcBb len) = (5 - min (p / 16) (bgmcBb len)) + 1 by omega, Nat.pow_succ] at h
    rw [hmax]
    exact Nat.le_of_lt_succ (Nat.div_lt_of_lt_mul h)

/-- Settles O36: the symbol by its two cases, and msb·2^k ≤ e < (msb + 1)·2^k since msb is the floor of e / 2^k. -/
theorem bgmcSplitExact : Obligations.BgmcSplitExact := by
  intro P len p e
  rw [bgmcSym_eq]
  refine ⟨fun h1 h2 => if_pos ⟨h1, h2⟩, fun h => if_neg h, fun m hm => ?_⟩
  split at hm
  · next hin =>
    cases hm
    have hpos : (0 : Int) < 2 ^ bgmcK len p := by positivity
    exact ⟨hin.1, hin.2, Int.ediv_mul_le e hpos.ne', Int.lt_ediv_add_one_mul_self e hpos⟩
  · cases hm

/-! # The exact BGMC search (R263, R267) -/

/-- The position `t` steps of the descent from the seed in direction `d`, a byte or past the ends of 0..255. -/
def bgmcPos (p0 : Nat) (d : Int) (t : Nat) : Int := p0 + d * t

theorem bgmcPos_up (p0 t : Nat) : bgmcPos p0 1 t = p0 + t := by rw [bgmcPos, one_mul]

theorem bgmcPos_down (p0 t : Nat) : bgmcPos p0 (-1) t = p0 - t := by rw [bgmcPos, neg_one_mul, sub_eq_add_neg]

section
variable (C : Nat → Nat) {p0 : Nat} (hp0 : p0 ≤ 255)
include hp0

theorem bgmcProbe_below : bgmcProbe C ((p0 : Int) - 5) = if 5 ≤ p0 then some (C (p0 - 5)) else none := by
  have hb : (0 ≤ (p0 : Int) - 5 ∧ (p0 : Int) - 5 ≤ 255) ↔ 5 ≤ p0 := by omega
  rw [bgmcProbe, show ((p0 : Int) - 5).toNat = p0 - 5 by omega]
  simp only [hb]

theorem bgmcProbe_above : bgmcProbe C ((p0 : Int) + 5) = if p0 ≤ 250 then some (C (p0 + 5)) else none := by
  have hb : (0 ≤ (p0 : Int) + 5 ∧ (p0 : Int) + 5 ≤ 255) ↔ p0 ≤ 250 := by omega
  rw [bgmcProbe, show ((p0 : Int) + 5).toNat = p0 + 5 by omega]
  simp only [hb]

/-- Which way the search goes (R263), a probe outside 0..255 being dearer than everything: it scans when neither probe is cheaper,
and goes down on a tie of the directions. -/
theorem bgmcSearch_eq : bgmcSearch C p0 =
    if (p0 < 5 ∨ C p0 ≤ C (p0 - 5)) ∧ (250 < p0 ∨ C p0 ≤ C (p0 + 5)) then
      bgmcScan C (List.range' (p0 - 4) (min 255 (p0 + 4) + 1 - (p0 - 4))) p0
    else if 5 ≤ p0 ∧ C (p0 - 5) < C p0 ∧ (250 < p0 ∨ C (p0 - 5) ≤ C (p0 + 5)) then bgmcDescend C (-1) 256 p0 p0 0
    else bgmcDescend C 1 256 p0 p0 0 := by
  rw [bgmcSearch, bgmcProbe_below C hp0, bgmcProbe_above C hp0]
  by_cases hlo : 5 ≤ p0 <;> by_cases hhi : p0 ≤ 250 <;> simp [Cost.le, hlo, hhi, Nat.not_lt.mpr, Nat.lt_of_not_le]

/-- The search costs no more than its seed (R263). -/
theorem cost_bgmcSearch_le : C (bgmcSearch C p0) ≤ C p0 := by
  rw [bgmcSearch_eq C hp0]
  split_ifs
  · exact (bgmcScan_spec C _ p0).2.1
  · exact (bgmcDescend_spec C (-1) 256 p0 p0 0 hp0).2
  · exact (bgmcDescend_spec C 1 256 p0 p0 0 hp0).2

/-- What the scan about the seed returns (R263). -/
theorem bgmcScan_around_seed {r : Nat} (hr : bgmcScan C (List.range' (p0 - 4) (min 255 (p0 + 4) + 1 - (p0 - 4))) p0 = r) :
    r ≤ p0 + 4 ∧ p0 ≤ r + 4 ∧ (C r = C p0 → r = p0) ∧
      ∀ p, p ≤ 255 → p0 ≤ p + 4 → p ≤ p0 + 4 → C r ≤ C p ∧ (p < r → r ≠ p0 → C r < C p) := by
  have hmem : ∀ p, p ∈ List.range' (p0 - 4) (min 255 (p0 + 4) + 1 - (p0 - 4)) ↔ p ≤ 255 ∧ p0 ≤ p + 4 ∧ p ≤ p0 + 4 := fun p => by
    rw [List.mem_range'_1]; omega
  obtain ⟨hwhere, -, hmin⟩ := bgmcScan_spec C (List.range' (p0 - 4) (min 255 (p0 + 4) + 1 - (p0 - 4))) p0
  obtain ⟨htie, hfirst⟩ := bgmcScan_first C (List.range' (p0 - 4) (min 255 (p0 + 4) + 1 - (p0 - 4))) p0 List.pairwise_lt_range'
  rw [hr] at hwhere hmin htie hfirst
  rw [hmem] at hwhere
  exact ⟨by omega, by omega, htie, fun p h255 hlo hhi =>
    have hp := (hmem p).mpr ⟨h255, hlo, hhi⟩
    ⟨hmin p hp, hfirst p hp⟩⟩

/-- The descent from the seed ends at a byte `r`, `j` steps away: it is cheaper than every byte before it, no dearer than the next five inside
0..255, and one byte of every five on the way is cheaper than all before it (R263). -/
theorem bgmcDescend_from_seed {d : Int} (hd : d = 1 ∨ d = -1) {r : Nat} (hr : bgmcDescend C d 256 p0 p0 0 = r) :
    ∃ j, bgmcPos p0 d j = r ∧ (∀ t (p : Nat), t < j → bgmcPos p0 d t = p → C r < C p) ∧
      (∀ t (p : Nat), j < t → t ≤ j + 5 → bgmcPos p0 d t = p → p ≤ 255 → C r ≤ C p) ∧
      ∀ x, x ≤ j → 5 ≤ x → ∃ t, ∃ q : Nat, bgmcPos p0 d t = q ∧ x < t + 5 ∧ t ≤ x ∧
        ∀ u (p : Nat), u < t → bgmcPos p0 d u = p → C q < C p := by
  have hpos : ∀ t, (d = 1 ∧ bgmcPos p0 d t = p0 + t) ∨ (d = -1 ∧ bgmcPos p0 d t = p0 - t) := fun t => by
    obtain rfl | rfl := hd
    · exact .inl ⟨rfl, bgmcPos_up p0 t⟩
    · exact .inr ⟨rfl, bgmcPos_down p0 t⟩
  obtain ⟨j, e, -, hj, hbest, hnext, hgap⟩ := bgmcDescend_walk C d (bgmcPos p0 d) (fun t => by have := hpos t; have := hpos (t + 1); omega)
    (fun t => by have := hpos t; have := hpos (t + 1); omega) (by have := hpos 256; omega) 256 0 0 le_rfl
    (by have := hpos 0; omega) le_rfl (by decide) (fun t h => by omega) (fun t h h' => by omega) (fun x h h' => by omega)
  rw [show bgmcPos p0 d 0 = p0 by simp [bgmcPos], Int.toNat_natCast, hr] at e
  rw [← e] at hbest hnext
  refine ⟨j, by omega, fun t p h hp => ?_, fun t p h h' hp h255 => ?_, fun x h h' => ?_⟩
  · simpa [hp] using hbest t h
  · simpa [hp] using hnext t h h' (by omega)
  · obtain ⟨t, h1, h2, ht⟩ := hgap x h h'
    refine ⟨t, (bgmcPos p0 d t).toNat, by have := hpos t; have := hpos j; omega, h1, h2, fun u p hu hp => ?_⟩
    simpa [hp] using ht u hu

/-- The descent downwards, from the seed to `r`. -/
theorem bgmcDescend_down {r : Nat} (hr : bgmcDescend C (-1) 256 p0 p0 0 = r) :
    r ≤ p0 ∧ (∀ p, r < p → p ≤ p0 → C r < C p) ∧ (∀ p, p < r → r ≤ p + 5 → C r ≤ C p) ∧
      ∀ x, r ≤ x → x + 5 ≤ p0 → ∃ q, x ≤ q ∧ q < x + 5 ∧ ∀ p, q < p → p ≤ p0 → C q < C p := by
  obtain ⟨j, hj, hbest, hnext, hgap⟩ := bgmcDescend_from_seed C hp0 (.inr rfl) hr
  simp only [bgmcPos_down] at hj hbest hnext hgap
  refine ⟨by omega, fun p h h' => hbest (p0 - p) p (by omega) (by omega),
    fun p h h' => hnext (p0 - p) p (by omega) (by omega) (by omega) (by omega), fun x h h' => ?_⟩
  obtain ⟨t, q, hq, h1, h2, hrec⟩ := hgap (p0 - x) (by omega) (by omega)
  exact ⟨q, by omega, by omega, fun p h3 h4 => hrec (p0 - p) p (by omega) (by omega)⟩

/-- The descent upwards, from the seed to `r`. -/
theorem bgmcDescend_up {r : Nat} (hr : bgmcDescend C 1 256 p0 p0 0 = r) :
    p0 ≤ r ∧ (∀ p, p0 ≤ p → p < r → C r < C p) ∧ (∀ p, r < p → p ≤ r + 5 → p ≤ 255 → C r ≤ C p) ∧
      ∀ x, x ≤ r → p0 + 5 ≤ x → ∃ q, x < q + 5 ∧ q ≤ x ∧ ∀ p, p0 ≤ p → p < q → C q < C p := by
  obtain ⟨j, hj, hbest, hnext, hgap⟩ := bgmcDescend_from_seed C hp0 (.inl rfl) hr
  simp only [bgmcPos_up] at hj hbest hnext hgap
  refine ⟨by omega, fun p h h' => hbest (p - p0) p (by omega) (by omega),
    fun p h h' h255 => hnext (p - p0) p (by omega) (by omega) (by omega) h255, fun x h h' => ?_⟩
  obtain ⟨t, q, hq, h1, h2, hrec⟩ := hgap (x - p0) (by omega) (by omega)
  exact ⟨q, by omega, by omega, fun p h3 h4 => hrec (p - p0) p (by omega) (by omega)⟩

end

/-- Settles O37, by the way the search goes: a descent leaves the seed, since five steps from it there is a cheaper byte. -/
theorem bgmcSearchNoWorseThanSeed : Obligations.BgmcSearchNoWorseThanSeed := by
  rintro C p0 r hp0 rfl
  refine ⟨bgmcSearch_le C hp0, cost_bgmcSearch_le C hp0, fun hm hp => ?_, fun h5 hlt hle => ?_, fun h5 hlt hle => ?_⟩
  · rw [bgmcSearch_eq C hp0, if_pos ⟨hm, hp⟩]
    exact bgmcScan_around_seed C hp0 rfl
  · rw [bgmcSearch_eq C hp0, if_neg (by omega), if_pos ⟨h5, hlt, hle⟩]
    obtain ⟨hr, hbest, hnext, hgap⟩ := bgmcDescend_down C hp0 rfl
    refine ⟨lt_of_le_of_ne hr fun e => ?_, hbest, hnext, hgap⟩
    have := hnext (p0 - 5) (by omega) (by omega)
    rw [e] at this
    omega
  · rw [bgmcSearch_eq C hp0, if_neg (by omega), if_neg (by omega)]
    obtain ⟨hr, hbest, hnext, hgap⟩ := bgmcDescend_up C hp0 rfl
    refine ⟨lt_of_le_of_ne hr fun e => ?_, hbest, hnext, hgap⟩
    have := hnext (p0 + 5) (by omega) (by omega) (by omega)
    rw [← e] at this
    omega

/-! # The choice of BGMCSRCH (R261, R264, R265) -/

/-- The candidate counts of R261, in increasing order. -/
def bgmcCandidates (blk : Block) : List Nat := 1 :: [2, 4, 8].filter (bgmcSplits blk)

theorem mem_bgmcCandidates {blk : Block} {B : Nat} : B ∈ bgmcCandidates blk ↔ BgmcCandidate blk B := by
  simp [bgmcCandidates, BgmcCandidate, bgmcSplits, and_assoc]

theorem bgmcCandidates_pairwise (blk : Block) : (bgmcCandidates blk).Pairwise (· < ·) :=
  List.Pairwise.sublist (List.filter_sublist.cons_cons 1) (by decide : [1, 2, 4, 8].Pairwise (· < ·))

/-- Every split asks what B = 4 asks, and LEN mod B = 0 (R261). -/
theorem bgmcSplits_iff_four (blk : Block) (B : Nat) : bgmcSplits blk B = true ↔ bgmcSplits blk 4 = true ∧ blk.res.length % B = 0 := by
  simp only [bgmcSplits, Bool.and_eq_true, decide_eq_true_eq]
  tauto

/-- The candidates are a chain of doublings: 2 and 4 are candidates together, since LEN mod 4 = 0 is asked of both, and 8 only with them (R261). -/
theorem bgmcCandidates_isChain (blk : Block) : (bgmcCandidates blk).IsChain (fun a b => a = b / 2) := by
  by_cases h4 : bgmcSplits blk 4 = true
  · have hmod := ((bgmcSplits_iff_four blk 4).mp h4).2
    have h2 : bgmcSplits blk 2 = true := (bgmcSplits_iff_four blk 2).mpr ⟨h4, by omega⟩
    cases h8 : bgmcSplits blk 8 <;> simp [bgmcCandidates, h2, h4, h8]
  · have hnone : ∀ B, bgmcSplits blk B = false := fun B => Bool.eq_false_iff.mpr fun h => h4 ((bgmcSplits_iff_four blk B).mp h).1
    simp [bgmcCandidates, hnone]

/-- Among choices of rising block counts every one with fewer blocks than the cheapest is dearer: a tie goes to the smaller B (R265). -/
theorem cheapest_lt_of_fewer {c d : Choice} {ds : List Choice} (hds : (c :: ds).Pairwise (·.blocks < ·.blocks)) (hd : d ∈ c :: ds)
    (hlt : d.blocks < (cheapest c ds).blocks) : (cheapest c ds).total < d.total := by
  obtain ⟨-, -, pre, post, e, hpre⟩ := cheapest_spec ds c
  rw [e] at hds hd
  rcases List.mem_append.mp hd with hd | hd
  · exact hpre d hd
  · rcases List.mem_cons.mp hd with rfl | hd
    · omega
    · have := List.rel_of_pairwise_cons (List.pairwise_append.mp hds).2.1 hd
      omega

/-- Along a chain of doublings each candidate is seeded with the first parameter of the one before it, candidate B/2 (R264). -/
theorem bgmcChoices_eq_map {P : Params} {blk : Block} {xe : Bool} {c : Nat → Choice} {A : Nat} {Bs : List Nat}
    (hchain : (A :: Bs).IsChain (fun a b => a = b / 2)) (hc : ∀ B ∈ Bs, c B = bgmcChoice P blk xe B ((c (B / 2)).params.headD 0)) :
    bgmcChoices P blk xe ((c A).params.headD 0) Bs = Bs.map c := by
  induction Bs generalizing A with
  | nil => rfl
  | cons B Bs ih =>
    obtain ⟨rfl, hBs⟩ := List.isChain_cons_cons.mp hchain
    obtain ⟨hB, hc'⟩ := List.forall_mem_cons.mp hc
    rw [bgmcChoices, ← hB, ih hBs hc', List.map_cons]

/-- A searched parameter is the search from the result before it, the first one from the seed (R264). -/
theorem bgmcSearchFrom_getD (P : Params) (blk : Block) (B : Nat) {count i : Nat} (hi : i < count) (b seed : Nat) :
    (bgmcSearchFrom P blk B b seed count).getD i 0 =
      bgmcSearch (bgmcCost P blk B (b + i)) (if i = 0 then seed else (bgmcSearchFrom P blk B b seed count).getD (i - 1) 0) := by
  induction count generalizing b seed i with
  | zero => exact absurd hi (Nat.not_lt_zero i)
  | succ count ih =>
    cases i with
    | zero => rfl
    | succ i =>
      have hnext := ih (Nat.lt_of_succ_lt_succ hi) (b + 1) (bgmcSearch (bgmcCost P blk B b) seed)
      rw [show b + 1 + i = b + (i + 1) by omega] at hnext
      rw [bgmcSearchFrom, List.getD_cons_succ, hnext]
      cases i <;> rfl

theorem bgmcChoice_searched (P : Params) (blk : Block) {B b : Nat} (seed : Nat) (hb : b < B) : (bgmcChoice P blk true B seed).params.getD b 0 =
    bgmcSearch (bgmcCost P blk B b) (if b = 0 then seed else (bgmcChoice P blk true B seed).params.getD (b - 1) 0) := by
  simpa [bgmcChoice, bgmcParams] using bgmcSearchFrom_getD P blk B hb 0 seed

theorem bgmcChoice_estimated (P : Params) (blk : Block) {B b : Nat} (seed : Nat) (hb : b < B) :
    (bgmcChoice P blk false B seed).params.getD b 0 = bgmcEstimate P (blk.sub B b) := by
  simp [bgmcChoice, bgmcParams, List.getD_eq_getElem?_getD, hb]

section
variable {P : Params} {blk : Block} {xe : Bool} {c : Nat → Choice} (h1 : c 1 = bgmcChoice P blk xe 1 (bgmcEstimate P blk.res))
  (hc : ∀ B ∈ [2, 4, 8], c B = bgmcChoice P blk xe B ((c (B / 2)).params.getD 0 0))
include h1 hc

theorem bgmcBest_eq_cheapest : bgmcBest P blk xe = cheapest (c 1) (([2, 4, 8].filter (bgmcSplits blk)).map c) := by
  have hseed : ∀ B ∈ [2, 4, 8].filter (bgmcSplits blk), c B = bgmcChoice P blk xe B ((c (B / 2)).params.headD 0) := fun B hB => by
    rw [hc B (List.mem_of_mem_filter hB), List.headD_eq_head?_getD, List.getD_eq_getElem?_getD, List.head?_eq_getElem?]
  rw [← bgmcChoices_eq_map (bgmcCandidates_isChain blk) hseed, h1, bgmcBest]

theorem blocks_of_mem_bgmcCandidates {B : Nat} (hB : B ∈ bgmcCandidates blk) : (c B).blocks = B := by
  obtain rfl | hB := List.mem_cons.mp hB
  · rw [h1]
    rfl
  · rw [hc B (List.mem_of_mem_filter hB)]
    rfl

theorem bgmcCandidates_blocks_pairwise : ((bgmcCandidates blk).map c).Pairwise (·.blocks < ·.blocks) := by
  rw [List.pairwise_map]
  refine (bgmcCandidates_pairwise blk).imp_of_mem fun hA hB h => ?_
  rwa [blocks_of_mem_bgmcCandidates h1 hc hA, blocks_of_mem_bgmcCandidates h1 hc hB]

end

/-- Settles O38: the candidates are seeded along their doublings, `cheapest` finds the first of smallest total, and each candidate's
parameters are its searches' or estimates. -/
theorem cheapestCandidateWins : Obligations.CheapestCandidateWins := by
  intro P blk xe c h1 hc
  have hbest := bgmcBest_eq_cheapest h1 hc
  have hblocks : ∀ B ∈ bgmcCandidates blk, (c B).blocks = B := fun B => blocks_of_mem_bgmcCandidates h1 hc
  obtain ⟨hmem, hmin, -⟩ := cheapest_spec (([2, 4, 8].filter (bgmcSplits blk)).map c) (c 1)
  obtain ⟨A, hA, e⟩ : ∃ A ∈ bgmcCandidates blk, c A = bgmcBest P blk xe := by
    rw [hbest]
    exact List.mem_map.mp hmem
  have hAblocks : (bgmcBest P blk xe).blocks = A := by rw [← e, hblocks A hA]
  refine ⟨?_, by rw [hAblocks, e], fun B hB => ?_, fun B seed b _ hb =>
    ⟨fun _ => bgmcChoice_searched P blk seed hb, fun _ => bgmcChoice_estimated P blk seed hb⟩⟩
  · rw [hAblocks]
    exact mem_bgmcCandidates.mp hA
  · have hB := mem_bgmcCandidates.mpr hB
    have hcB : c B ∈ (bgmcCandidates blk).map c := List.mem_map_of_mem hB
    rw [hbest]
    refine ⟨hmin _ hcB, fun hfewer => cheapest_lt_of_fewer (bgmcCandidates_blocks_pairwise h1 hc) hcB ?_⟩
    rwa [hblocks B hB]

end Sys2Proof.Machine
end

section
namespace Sys2Proof.Machine
open Sys2Proof

/-! # What stops a step (R343, R51) -/

/-- The fault is the read of a word that nothing has written to `m`. -/
def UnwrittenIn (m : Memory) (f : Fault) : Prop := ∃ a, f = .unwrittenRead a ∧ m.readWord a = none

/-- A command that completes when a read succeeds, and stops with the read's fault when it does not, stops only there. -/
theorem read_error_of_fault {α : Type} {r : Except Fault α} {o : Host.Outcome State Fault Refusal} {f : Fault}
    (hok : ∀ x, r = .ok x → ∃ t, o = .next t) (herr : ∀ e, r = .error e → o = .fault e) (h : o = .fault f) : r = .error f := by
  cases hr : r with
  | ok x =>
    obtain ⟨t, ht⟩ := hok x hr
    rw [ht] at h
    cases h
  | error e =>
    rw [herr e hr] at h
    cases h
    rfl

/-- A command that reads one range inside its window, and else completes, stops only on an unwritten word of it (R343). -/
theorem unwrittenIn_of_range {m : Memory} {w : Window} {n : Nat} {f : Fault} {o : Host.Outcome State Fault Refusal} (hn : n ≤ w.words)
    (hok : ∀ vs, m.readRange w 0 n = .ok vs → ∃ t, o = .next t) (herr : ∀ e, m.readRange w 0 n = .error e → o = .fault e)
    (h : o = .fault f) : UnwrittenIn m f :=
  Memory.readRange_error_unwritten (read_error_of_fault hok herr h) (by omega)

/-- RESID stops on the read of its coefficients or of its samples (R343). -/
theorem exec_resid_fault_unwritten {n : Nat} {ra : Bool} {s : State} {f : Fault} (hn : n < 1024) (hL : s.blockLen ≤ 65536)
    (h : exec (.resid n ra) s = .fault f) : UnwrittenIn s.mem f := by
  cases hrc : s.mem.readRange .rcof 0 n with
  | error e =>
    rw [exec_resid_fault hrc] at h
    cases h
    exact Memory.readRange_error_unwritten hrc (by simp only [Window.words]; omega)
  | ok rc =>
    have hlen : (effectiveRc rc).length < 1024 := effectiveRc_length_lt (by rw [Memory.readRange_length hrc]; exact hn)
    exact blockResiduals_error (read_error_of_fault (fun es hes => ⟨_, exec_resid_next.mpr ⟨rc, es, hrc, hes, rfl⟩⟩)
      (fun e he => exec_resid_samples_fault hrc he) h) hlen hL

/-- ORDSEL stops on a read of the cost of one of its orders (R343). -/
theorem exec_ordsel_fault_unwritten {n ct : Nat} {xo xe ra vd bg : Bool} {s : State} {f : Fault} (hn : n < 1024)
    (hL : s.blockLen ≤ 65536) (h : exec (.ordsel n ct xo xe ra vd bg) s = .fault f) : UnwrittenIn s.mem f := by
  have hscan : orderScan (orderCost Config.params s n ⟨ct, xo, xe, ra, vd, bg⟩) vd (valleyT n) ⟨none, 0, 0⟩ 0 (n + 1) = .error f :=
    read_error_of_fault (fun a ha => ⟨_, exec_ordsel_next.mpr ⟨a, ha, rfl⟩⟩) (fun e he => by simp [exec, execOrdsel, ordselOp, he]) h
  obtain ⟨k, -, hk, hcost⟩ := orderScan_error _ _ _ _ hscan
  exact orderCost_error hcost (by omega) hL

/-- A well-formed command that passed its value checks stops only on an unwritten word (R343). -/
theorem exec_fault_unwritten {i : Instr} {s : State} {f : Fault} (hw : i.WellFormed) (hv : valueCheck s.par i = none)
    (h : exec i s = .fault f) : UnwrittenIn s.mem f := by
  have hlen := valueCheck_len hv
  cases i with
  | nop => cases h
  | quant n =>
    have hn : n < 1024 := of_decide_eq_true hw
    exact unwrittenIn_of_range (w := .parcor) hn.le (fun ps hread => ⟨_, exec_quant_next.mpr ⟨ps, hread, rfl⟩⟩) (fun e => exec_quant_fault) h
  | recon n =>
    have hn : n < 1024 := of_decide_eq_true hw
    exact unwrittenIn_of_range (w := .qcof) hn.le (fun qs hread => ⟨_, exec_recon_next.mpr ⟨qs, hread, rfl⟩⟩) (fun e => exec_recon_fault) h
  | coefbits n ct =>
    have hn : n < 1024 := of_decide_eq_true (Bool.and_eq_true_iff.mp hw).1
    exact unwrittenIn_of_range (w := .qcof) hn.le (fun qs hread => ⟨_, exec_coefbits_next.mpr ⟨qs, hread, rfl⟩⟩)
      (fun e => exec_coefbits_fault) h
  | p2l n =>
    have hn : n < 1024 := of_decide_eq_true hw
    exact unwrittenIn_of_range (w := .rcof) hn.le (fun rc hread => ⟨_, exec_p2l_next.mpr ⟨rc, hread, rfl⟩⟩) (fun e => exec_p2l_fault) h
  | resid n ra => exact exec_resid_fault_unwritten (of_decide_eq_true hw) (hlen (.inl ⟨n, ra, rfl⟩)) h
  | ricebits n ra =>
    exact unwrittenIn_of_range (w := .res) (hlen (.inr (.inr ⟨n, ra, false, .inl rfl⟩)))
      (fun es hes => ⟨_, exec_ricebits_next.mpr ⟨es, hes, rfl⟩⟩) (fun e he => have ⟨hstop, _⟩ := exec_entropy_fault he n ra false; hstop) h
  | ricesrch n ra xe =>
    exact unwrittenIn_of_range (w := .res) (hlen (.inr (.inr ⟨n, ra, xe, .inr (.inr (.inl rfl))⟩)))
      (fun es hes => ⟨_, exec_ricesrch_next.mpr ⟨es, hes, rfl⟩⟩) (fun e he => have ⟨_, hstop, _⟩ := exec_entropy_fault he n ra xe; hstop) h
  | bgmcbits n ra =>
    exact unwrittenIn_of_range (w := .res) (hlen (.inr (.inr ⟨n, ra, false, .inr (.inl rfl)⟩)))
      (fun es hes => ⟨_, exec_bgmcbits_next.mpr ⟨es, hes, rfl⟩⟩) (fun e he => have ⟨_, _, hstop, _⟩ := exec_entropy_fault he n ra false; hstop) h
  | bgmcsrch n ra xe =>
    exact unwrittenIn_of_range (w := .res) (hlen (.inr (.inr ⟨n, ra, xe, .inr (.inr (.inr rfl))⟩)))
      (fun es hes => ⟨_, exec_bgmcsrch_next.mpr ⟨es, hes, rfl⟩⟩) (fun e he => have ⟨_, _, _, hstop⟩ := exec_entropy_fault he n ra xe; hstop) h
  | ordsel n ct xo xe ra vd bg =>
    exact exec_ordsel_fault_unwritten (of_decide_eq_true (Bool.and_eq_true_iff.mp hw).1)
      (hlen (.inr (.inl ⟨n, ct, xo, xe, ra, vd, bg, rfl⟩))) h

/-- A host transaction stops only on the read of an unwritten word (R343). -/
theorem hostTransact_error_unwritten {op : HostOp} {s : State} {f : Fault} (h : hostTransact op s = .error f) : UnwrittenIn s.mem f := by
  cases op with
  | read a z =>
    obtain ⟨c, -, e⟩ | ⟨v, e⟩ | ⟨-, hu, e⟩ := hostRead_cases a.toNat z s <;> cases e.symm.trans h
    exact ⟨a.toNat, rfl, hu⟩
  | write | wait | powerOn => cases h

/-- What a host transaction makes the step: a next state or its fault, never a refusal. -/
theorem step_host_cases {s : State} {op : HostOp} {rest : List HostOp} (hn : HostNext s op rest) :
    (∃ t, step s = .next t) ∨ ∃ f, step s = .fault f ∧ UnwrittenIn s.mem f := by
  cases ht : hostTransact op (s.afterPop rest) with
  | ok t => exact .inl ⟨t, step_of_hostTransact hn ht⟩
  | error f => exact .inr ⟨f, step_of_hostTransact_error hn ht, hostTransact_error_unwritten (s := s.afterPop rest) ht⟩

/-- Under the invariant the engine's turn completes the latched command or stops on an unwritten word. -/
theorem Inv.engineTurn_cases {s : State} (hi : Inv s) {w : Word} {snap : ParamRegs} (he : s.eng = .run w snap) :
    (∃ t, engineTurn w s = .next t) ∨ ∃ f, engineTurn w s = .fault f ∧ UnwrittenIn s.mem f := by
  obtain ⟨-, -, -, -, i, hd, hv⟩ := hi.engine.of_run he
  rw [engineTurn_ok hd]
  cases ht : exec i s with
  | next t => exact .inl ⟨t, rfl⟩
  | fault f => exact .inr ⟨f, rfl, exec_fault_unwritten (wellFormed_of_decode hd) hv ht⟩
  | refused r => exact absurd ht (exec_ne_refused i s r)

/-- Under the invariant a step has a next state or stops on an unwritten word, by the cases of a step. -/
theorem Inv.step_outcome {s : State} (hi : Inv s) : (∃ t, step s = .next t) ∨ ∃ f, step s = .fault f ∧ UnwrittenIn s.mem f := by
  obtain ⟨-, -, e⟩ | ⟨op, rest, hn⟩ | ⟨w, snap, he, -, e⟩ := step_cases s
  · exact .inl ⟨s, e⟩
  · exact step_host_cases hn
  · rw [e]
    exact hi.engineTurn_cases he

/-- Settles O11: neither outcome that the invariant leaves a step is a refusal or another fault. -/
theorem onlyUnwrittenReadsStop : Obligations.OnlyUnwrittenReadsStop := by
  intro s hi
  obtain ⟨t, e⟩ | ⟨g, e, hg⟩ := hi.step_outcome <;> rw [e]
  · exact ⟨fun r h => (by cases h), fun f h => (by cases h)⟩
  · refine ⟨fun r h => (by cases h), fun f h => ?_⟩
    cases h
    exact hg

/-! # Completion (R281) -/

/-- Settles O12: the frame of every completion, whose stores touch no input-only array. -/
theorem completionRaisesNoError : Obligations.CompletionRaisesNoError := by
  intro i s t hw hL h
  have hf := exec_completionFrame i s t hw (fun _ => hL) h
  exact ⟨hf.err, hf.ecause, hf.ieDone, hf.ieErr, hf.cmd, hf.done, hf.eng, hf.rescode, hf.sbpart, hf.bps, hf.len, hf.bits, hf.mem.untouched⟩

/-- Settles O13: NOP has no operation before its completion. -/
theorem nopOnlyCompletes : Obligations.NopOnlyCompletes := exec_nop

/-- A 32-bit word is the table word of its own bits (R110). -/
theorem tableWord_toNat (w : Word) : tableWord 32 w.toNat = w := by
  rw [tableWord, Nat.mod_eq_of_lt w.isLt, BitVec.ofNat_toNat, BitVec.setWidth_eq]

/-- When the completion of a legal latched word is the next step, the step is its exec (R281). -/
theorem step_eq_exec {s : State} {w : Word} {snap : ParamRegs} {i : Instr} (he : s.eng = .run w snap) (hd : decode w = .ok i)
    (hc : s.due = 0 ∨ s.pending = []) : step s = exec i s := by
  rw [step_engine he hc, engineTurn_ok hd]

/-- Settles O5: `withFetchWord` latches the word itself, with its completion due. -/
theorem stepRunsLatchedCommand : Obligations.StepRunsLatchedCommand := by
  refine ⟨fun s w snap i => step_eq_exec, fun s w i hd => ?_⟩
  rw [State.withFetchWord, tableWord_toNat]
  exact step_eq_exec (latched_eng w s) hd (.inl (latched_due w s))

/-! # Command acceptance (R280) -/

/-- A word written to `CMD` is the acceptance of that word. -/
theorem step_writeCmd {s : State} {w : Word} {rest : List HostOp} (hn : HostNext s (.write 0x010#24 4 w) rest) :
    step s = .next (acceptCommand w (s.afterPop rest)) :=
  step_writeRegister hn (by decide) (by decide)

/-- Settles O44: the step is the acceptance, in each of its outcomes. -/
theorem commandAcceptance : Obligations.CommandAcceptance := by
  intro s w rest hn
  rw [step_writeCmd hn]
  refine ⟨fun hb => ?_, fun hb hno => ?_, fun i hb hd => ⟨fun c hv => ?_, fun hv => ⟨_, rfl, ?_⟩⟩⟩
  · rw [acceptCommand_busy (s := s.afterPop rest) hb, raiseError]
  · cases hd : decode w with
    | ok i => exact absurd hd (hno i)
    | error r => rw [acceptCommand_illegal (s := s.afterPop rest) hb hd, raiseError]
  · rw [acceptCommand_rejected (s := s.afterPop rest) hb hd hv, raiseError]
  · rw [acceptCommand_accepted (s := s.afterPop rest) hb hd hv]
    exact ⟨rfl, rfl⟩

/-! # The soft reset (R284, R342) -/

/-- A word with bit 31 set written to `CTRL` is the soft reset, idle or not. -/
theorem step_softReset {s : State} {v : Word} {rest : List HostOp} (hn : HostNext s (.write 0x008#24 4 v) rest)
    (hv : v.getLsbD 31 = true) : step s = .next (softReset (s.afterPop rest)) := by
  rw [step_writeRegister hn (by decide) (by decide)]
  simp [writeRegister, writeCtrl, hv]

theorem abandon_of_idle {s : State} (h : s.eng = .idle) : abandon s = s.mem := by simp only [abandon, h]

theorem abandon_of_run {s : State} {w : Word} {snap : ParamRegs} {i : Instr} (h : s.eng = .run w snap) (hd : decode w = .ok i) :
    abandon s = s.mem.havocAll s.draws (abandonedSet snap.len.toNat i) := by simp only [abandon, h, hd]

/-- Settles O58: the arrays after the reset are those of `abandon`, whose free values cover the write set and nothing else. -/
theorem softResetEffects : Obligations.SoftResetEffects := by
  intro s v rest hn hv
  refine ⟨_, step_softReset hn hv, rfl, abandon_of_idle (s := s.afterPop rest), fun w snap i he hd => ?_⟩
  have hmem : (softReset (s.afterPop rest)).mem = s.mem.havocAll s.draws (abandonedSet snap.len.toNat i) :=
    abandon_of_run (s := s.afterPop rest) he hd
  rw [hmem]
  exact ⟨fun a => Memory.readByte_havocAll_other _ _ _ a, Memory.havocAll_written _ _ _⟩

end Sys2Proof.Machine
end

section
namespace Sys2Proof.Machine
open Sys2Proof

/-! # What wakes an idle engine (R319)

Of the host's transactions only a write to `CMD` can leave an idle engine running: each case of a write says so, and the others start no command. -/

theorem writeRegister_wakes {a : Nat} {v : Word} {s : State} (hidle : s.eng = .idle) (hrun : (writeRegister a v s).eng ≠ .idle) :
    a = 0x010 := by
  obtain ⟨ha, -⟩ | ⟨-, -, e⟩ | ⟨-, -, e⟩ | ⟨-, e⟩ | ⟨-, e⟩ | ⟨-, p, -, e⟩ | e := writeRegister_cases a v s
  · exact ha
  · rw [e] at hrun
    exact absurd rfl hrun
  all_goals
    rw [e] at hrun
    exact absurd hidle hrun

theorem hostWrite_wakes {a z : Nat} {v : Word} {s : State} (hidle : s.eng = .idle) (hrun : (hostWrite a z v s).eng ≠ .idle) :
    a = 0x010 ∧ z = 4 := by
  obtain ⟨c, -, e⟩ | ⟨hz, -, e⟩ | ⟨-, w, j, -, -, e⟩ | e := hostWrite_cases a z v s
  case inr.inl => exact ⟨writeRegister_wakes hidle (e ▸ hrun), hz⟩
  all_goals
    rw [e] at hrun
    exact absurd hidle hrun

theorem hostRead_eng {a z : Nat} {s t : State} (h : hostRead a z s = .ok t) : t.eng = s.eng := by
  obtain ⟨c, -, e⟩ | ⟨v, e⟩ | ⟨-, -, e⟩ := hostRead_cases a z s <;> rw [e] at h <;> cases h <;> rfl

theorem hostWait_eng (s : State) : (hostWait s).eng = s.eng := by
  unfold hostWait
  split <;> rfl

/-- The only transaction that leaves an idle engine running is a whole-word write to `CMD`. -/
theorem hostTransact_wakes {op : HostOp} {s t : State} (hidle : s.eng = .idle) (h : hostTransact op s = .ok t) (hrun : t.eng ≠ .idle) :
    ∃ w, op = .write 0x010#24 4 w := by
  cases op with
  | read a z => exact absurd ((hostRead_eng h).trans hidle) hrun
  | write a z v =>
    cases h
    obtain ⟨ha, rfl⟩ := hostWrite_wakes hidle hrun
    obtain rfl : a = 0x010#24 := BitVec.eq_of_toNat_eq ha
    exact ⟨v, rfl⟩
  | wait =>
    cases h
    exact absurd ((hostWait_eng s).trans hidle) hrun
  | powerOn =>
    cases h
    exact absurd rfl hrun

/-- Settles O7: an idle engine takes no turn, so a step that wakes it is a transaction that does. -/
theorem onlyCmdWriteWakesIdleEngine : Obligations.OnlyCmdWriteWakesIdleEngine := by
  refine ⟨fun s => step_idle, fun s t hidle ht hrun => ?_⟩
  obtain ⟨-, -, e⟩ | ⟨op, rest, hn⟩ | ⟨w, snap, he, -⟩ := step_cases s
  · rw [e] at ht
    cases ht
    exact absurd hidle hrun
  · obtain ⟨w, rfl⟩ := hostTransact_wakes (s := s.afterPop rest) hidle (hostTransact_of_step hn ht) hrun
    exact ⟨w, rest, hn.1⟩
  · rw [hidle] at he
    cases he

/-! # The value checks (R302)

The outcome of each check, then of the checks L and C that the entropy commands and ORDSEL begin with. -/

section
variable {p : ParamRegs}

theorem checkLen_bad (h : ¬ (1 ≤ p.len.toNat ∧ p.len.toNat ≤ 65536)) : checkLen p = some .badLen := if_neg h

theorem checkLen_ok (h : 1 ≤ p.len.toNat ∧ p.len.toNat ≤ 65536) : checkLen p = none := if_pos h

theorem checkBps_bad (h : ¬ (4 ≤ p.bps.toNat ∧ p.bps.toNat ≤ 32)) : checkBps p = some .badConfig := if_neg h

theorem checkBps_ok (h : 4 ≤ p.bps.toNat ∧ p.bps.toNat ≤ 32) : checkBps p = none := if_pos h

end

/-- Check S_bgmc admits the block counts 2, 4 and 8 under one condition. -/
theorem checkBgmcBlocks_eq (p : ParamRegs) : checkBgmcBlocks p =
    if p.subblocks.toNat = 1 ∨ (p.subblocks.toNat ∈ [2, 4, 8] ∧ p.sbpart = true ∧ p.len.toNat % p.subblocks.toNat = 0)
    then none else some .badSubblocks := by
  simp only [checkBgmcBlocks, List.mem_cons, List.not_mem_nil, or_false]

/-- A property of the first `B` parameters, register by register (R41). -/
theorem sparList_forall (p : ParamRegs) (B : Nat) (P : Nat → Prop) :
    (∀ k ∈ p.sparList B, P k) ↔ ∀ b : Fin 8, b < B → P p.spar[b].toNat := by
  simp only [ParamRegs.sparList, List.forall_mem_map, List.mem_take_iff_getElem]
  constructor
  · exact fun h b hb => h _ ⟨b, by simpa using hb, by simp⟩
  · rintro h _ ⟨i, hi, rfl⟩
    obtain ⟨hB, h8⟩ : i < B ∧ i < 8 := by simpa using hi
    simpa using h ⟨i, h8⟩ hB

theorem checkRiceParams_eq (p : ParamRegs) : checkRiceParams p =
    if ∀ b : Fin 8, b < p.subblocks.toNat → p.spar[b].toNat ≤ p.kmax then none else some .badParam := by
  simp only [checkRiceParams, List.all_eq_true, decide_eq_true_eq, sparList_forall]

/-- A check followed by others: the cause of the first, or the outcome of the rest. -/
theorem check_orElse (P : Prop) [Decidable P] (c : Cause) (rest : Option Cause) :
    ((if P then none else some c) <|> rest) = if P then rest else some c := by
  split <;> rfl

/-- The commands of R302's table whose checks begin with L, C. -/
theorem valueCheck_lenBps {p : ParamRegs} {n ct : Nat} {ra xe xo vd bg : Bool} {i : Instr}
    (hi : i = .ricebits n ra ∨ i = .ricesrch n ra xe ∨ i = .bgmcbits n ra ∨ i = .bgmcsrch n ra xe ∨ i = .ordsel n ct xo xe ra vd bg) :
    ∃ r, valueCheck p i = (checkLen p <|> checkBps p <|> r) := by
  rcases hi with rfl | rfl | rfl | rfl | rfl
  · exact ⟨_, rfl⟩
  · exact ⟨none, by simp [valueCheck]⟩
  · exact ⟨_, rfl⟩
  · exact ⟨none, by simp [valueCheck]⟩
  · exact ⟨none, by simp [valueCheck]⟩

/-- Settles O45: the checks in R302's order, a failing one before the rest. -/
theorem valueChecksInOrder : Obligations.ValueChecksInOrder := by
  intro p n ct ra xe xo vd bg
  refine ⟨fun s w i c hb hd hv => acceptCommand_rejected hb hd hv, fun i hi => ?_, rfl, fun i hi => ?_, fun h1 h2 h3 h4 => ?_⟩
  · rcases hi with rfl | rfl | rfl | rfl | rfl <;> rfl
  · obtain ⟨r, hr⟩ := valueCheck_lenBps (p := p) hi
    rw [hr]
    exact ⟨fun hL => by rw [checkLen_bad hL]; rfl, fun h1 h2 hC => by rw [checkLen_ok ⟨h1, h2⟩, checkBps_bad hC]; rfl⟩
  · have hL := checkLen_ok ⟨h1, h2⟩
    have hC := checkBps_ok ⟨h3, h4⟩
    simp only [valueCheck, hL, hC]
    refine ⟨rfl, rfl, rfl, checkBgmcBlocks_eq p, ?_⟩
    rw [checkRiceParams_eq]
    exact check_orElse _ _ _

end Sys2Proof.Machine
end

section
namespace Sys2Proof.Machine
open Sys2Proof

/-! # A running command ends (R281, R350) -/

/-- A command's completion step is its operation followed by the completion (R281). -/
theorem exec_eq_finish (i : Instr) (s : State) : ∃ r, exec i s = finish r := by
  cases i with
  | nop => exact ⟨.ok s, rfl⟩
  | _ => exact ⟨_, rfl⟩

/-- A command's completion leaves the engine idle (R281). -/
theorem exec_eng {i : Instr} {s t : State} (h : exec i s = .next t) : t.eng = .idle := by
  obtain ⟨r, hr⟩ := exec_eq_finish i s
  obtain ⟨u, -, rfl⟩ := finish_next.mp (hr.symm.trans h)
  rfl

/-- A transaction while a command runs resets the engine or leaves it and its latency as they are (R88). -/
theorem hostTransact_eng_of_busy {op : HostOp} {s t : State} (hb : s.busy = true) (h : hostTransact op s = .ok t) :
    t.eng = .idle ∨ (t.eng = s.eng ∧ t.due = s.due) := by
  cases hr : isReset op with
  | true => exact .inl (by rw [hostTransact_reset_eq hr h]; rfl)
  | false =>
    have hkeep : t = _ := onlyHostBitsChange_of_busy hb hr h
    exact .inr ⟨by rw [hkeep], by rw [hkeep]⟩

/-- A step while a legal command runs ends it, stops on a fault, or leaves it running with one fewer transaction to land (log 1). -/
theorem step_of_running {s : State} {w : Word} {snap : ParamRegs} {i : Instr} (he : s.eng = .run w snap) (hd : decode w = .ok i) :
    (∃ t, step s = .next t ∧ (t.eng = .idle ∨ (t.eng = .run w snap ∧ t.due + 1 = s.due))) ∨ ∃ f, step s = .fault f := by
  obtain ⟨hidle, -⟩ | ⟨op, rest, hn⟩ | ⟨-, -, -, hc, -⟩ := step_cases s
  · rw [he] at hidle
    cases hidle
  · have hb : s.busy = true := busy_of_run he
    obtain ⟨t, ht⟩ | ⟨f, hf, -⟩ := step_host_cases hn
    · have hend := hostTransact_eng_of_busy (s := s.afterPop rest) hb (hostTransact_of_step hn ht)
      refine .inl ⟨t, ht, hend.imp_right fun ⟨heng, hdue⟩ => ?_⟩
      have hpos : 0 < s.due := hn.2 hb
      rw [afterPop_due, if_pos hb] at hdue
      exact ⟨heng.trans he, by omega⟩
    · exact .inr ⟨f, hf⟩
  · rw [step_eq_exec he hd hc]
    cases hx : exec i s with
    | next t => exact .inl ⟨t, rfl, .inl (exec_eng hx)⟩
    | fault f => exact .inr ⟨f, rfl⟩
    | refused r => exact absurd hx (exec_ne_refused i s r)

theorem runSteps_succ_of_next {s t : State} (h : step s = .next t) (k : Nat) : runSteps (k + 1) s = runSteps k t := by
  simp only [runSteps, h]

theorem runSteps_succ_of_fault {s : State} {f : Fault} (h : step s = .fault f) (k : Nat) : runSteps (k + 1) s = .fault f := by
  simp only [runSteps, h]

/-- Settles O8, by induction on the latency: each step that does not end the command takes one off it. -/
theorem runningCommandEndsWithinLatency : Obligations.RunningCommandEndsWithinLatency := by
  intro s w snap i he hd
  induction hdue : s.due using Nat.strong_induction_on generalizing s with
  | _ d ih =>
    obtain ⟨t, ht, hidle | ⟨hrun, hless⟩⟩ | ⟨f, hf⟩ := step_of_running he hd
    · exact ⟨1, by omega, .inl ⟨t, runSteps_succ_of_next ht 0, hidle⟩⟩
    · obtain ⟨k, hk, hend⟩ := ih t.due (by omega) t hrun rfl
      exact ⟨k + 1, by omega, by rwa [runSteps_succ_of_next ht]⟩
    · exact ⟨1, by omega, .inr ⟨f, runSteps_succ_of_fault hf 0⟩⟩

/-! # Written words stay written (R51, R341)

No store, free value or soft reset makes a word unwritten, whatever the operands' ranges; only the power-on reset does. -/

section
variable {s t : State} {x : Nat} (hx : (s.mem.readWord x).isSome = true)
include hx

theorem written_loadLpc (rc : List Int) : ((loadLpc rc s).mem.readWord x).isSome = true := by
  rw [loadLpc_mem]
  apply Memory.written_writeRange
  split
  · exact Memory.written_writeWord _ _ _ _ (Memory.written_writeWord _ _ _ _ hx)
  · exact hx

/-- No command makes a word unwritten: its stores are element and range stores and free values (R49). -/
theorem written_exec {i : Instr} (h : exec i s = .next t) : (t.mem.readWord x).isSome = true := by
  cases i with
  | nop => cases h; exact hx
  | quant n =>
    obtain ⟨ps, -, rfl⟩ := exec_quant_next.mp h
    exact Memory.written_writeRange _ _ _ _ _ (Memory.written_writeRange _ _ _ _ _ hx)
  | recon n =>
    obtain ⟨qs, -, rfl⟩ := exec_recon_next.mp h
    exact Memory.written_writeRange _ _ _ _ _ hx
  | coefbits n ct => obtain ⟨qs, -, rfl⟩ := exec_coefbits_next.mp h; exact hx
  | p2l n =>
    obtain ⟨rc, -, rfl⟩ := exec_p2l_next.mp h
    exact written_loadLpc hx rc
  | resid n ra =>
    obtain ⟨rc, es, -, -, rfl⟩ := exec_resid_next.mp h
    exact Memory.written_writeRange _ _ _ _ _ (written_loadLpc hx rc)
  | ricebits n ra => obtain ⟨es, -, rfl⟩ := exec_ricebits_next.mp h; exact hx
  | ricesrch n ra xe => obtain ⟨es, -, rfl⟩ := exec_ricesrch_next.mp h; exact hx
  | bgmcbits n ra => obtain ⟨es, -, rfl⟩ := exec_bgmcbits_next.mp h; exact hx
  | bgmcsrch n ra xe => obtain ⟨es, -, rfl⟩ := exec_bgmcsrch_next.mp h; exact hx
  | ordsel n ct xo xe ra vd bg =>
    obtain ⟨a, -, rfl⟩ := exec_ordsel_next.mp h
    exact Memory.written_havocRange _ _ _ _ _ _ (Memory.written_havocRange _ _ _ _ _ _ hx)

theorem written_engineTurn {w : Word} (h : engineTurn w s = .next t) : (t.mem.readWord x).isSome = true := by
  unfold engineTurn at h
  split at h
  · exact written_exec hx h
  · cases h

/-- The write set of an abandoned command holds free values, so it is written (R342, log 8). -/
theorem written_abandon : ((abandon s).readWord x).isSome = true := by
  unfold abandon
  split
  · exact hx
  · split
    · exact hx
    · exact Memory.written_havocAll _ _ _ _ hx

theorem HostEffect.written (h : HostEffect s t) : (t.mem.readWord x).isSome = true := by
  cases h with
  | store w j v => exact Memory.written_writeWord _ _ _ _ hx
  | report | accept | param | quiet => exact hx

end

/-- The two resets: the power-on reset (R340) and the soft reset's write to `CTRL` (R284). -/
theorem isReset_cases {op : HostOp} (h : isReset op = true) :
    op = .powerOn ∨ ∃ v, op = .write 0x008#24 4 v ∧ v.getLsbD 31 = true := by
  cases op with
  | read | wait => cases h
  | write a z v =>
    simp only [isReset, Bool.and_eq_true, decide_eq_true_eq] at h
    obtain ⟨⟨rfl, rfl⟩, hv⟩ := h
    exact .inr ⟨v, rfl, hv⟩
  | powerOn => exact .inl rfl

/-- Settles O56: of the cases of a step, only the power-on reset takes away what is written. -/
theorem writtenWordsStayWritten : Obligations.WrittenWordsStayWritten := by
  intro s t w j ht hx
  obtain ⟨-, -, e⟩ | ⟨op, rest, hn⟩ | ⟨cw, snap, -, -, e⟩ := step_cases s
  · rw [e] at ht
    cases ht
    exact .inr hx
  · cases hr : isReset op with
    | false => exact .inr ((hostEffect_of_transact hr (hostTransact_of_step hn ht)).written (s := s.afterPop rest) hx)
    | true =>
      obtain rfl | ⟨v, rfl, hv⟩ := isReset_cases hr
      · exact .inl ⟨rest, hn⟩
      · rw [step_softReset hn hv] at ht
        cases ht
        exact .inr (written_abandon (s := s.afterPop rest) hx)
  · rw [e] at ht
    exact .inr (written_engineTurn hx ht)

/-! # The power-on reset (R340, R341, R344) -/

/-- Settles O59: the power-on reset is one host transaction, whose outcome is the reset state. -/
theorem powerOnResetForgetsAll : Obligations.PowerOnResetForgetsAll := by
  intro s rest hn
  have hreset : hostTransact .powerOn (s.afterPop rest) = .ok (powerOnReset (s.afterPop rest)) := rfl
  exact step_of_hostTransact hn hreset

end Sys2Proof.Machine
end
